-- ==== Sys2Proof/Word.lean ====
section
/-! DEFINITION. The words of the block: `u8` and `u32` of 00_scope.md R6. -/

namespace Sys2Proof

/-- One PIXMEM byte, the `u8` of R6. -/
abbrev Byte := BitVec 8

/-- A command word, an argument register, a CSR: the `u32` of R6. Bit 0 is the least significant bit (R7). -/
abbrev Word := BitVec 32

end Sys2Proof
end

