-- ==== Sys2Proof/Syntax.lean ====
section
/-! DEFINITION. The commands: one constructor per row of the opcode map, 30_encoding.md R84, with the fields of R81. -/

namespace Sys2Proof

/-- An argument register number, the fields `rd`, `rs` and `ra` of R81. -/
abbrev Reg := BitVec 3

/-- A CSR address, the field `csr` of R81. -/
abbrev CsrAddr := BitVec 8

/-- A filter level or a table index 0..63, the fields `lvl` and `li` of R81 and the entries of `LVLTAB` and `LVLU`. -/
abbrev Level := BitVec 6

/-- The field `dir`: 0 is V (a vertical edge), 1 is H (a horizontal edge), 00_scope.md R11. -/
inductive Dir where
  | v
  | h
  deriving DecidableEq, Repr

/-- The field `plane`: 0 is luma (Y), 1 is chroma (UV), R81. -/
inductive Plane where
  | luma
  | chroma
  deriving DecidableEq, Repr

/-- The 21 commands of R84, destination first as in R89. -/
inductive Instr where
  /-- `NOP`, 44_control.md R200. -/
  | nop
  /-- `DONE`, R201. -/
  | done
  /-- `PREF`, R202; `hint` is the 26 bits the block ignores (30_encoding.md R87), kept so that a word is told from its command. -/
  | pref (hint : BitVec 26)
  /-- `LI rd, imm16`, R203. -/
  | li (rd : Reg) (imm : BitVec 16)
  /-- `LIH rd, imm16`, R204. -/
  | lih (rd : Reg) (imm : BitVec 16)
  /-- `CSRR rd, csr`, R205. -/
  | csrr (rd : Reg) (csr : CsrAddr)
  /-- `CSRW csr, rs`, R206. -/
  | csrw (csr : CsrAddr) (rs : Reg)
  /-- `LUTW li, rs`, 40_threshold_lut.md R101. -/
  | lutw (idx : Level) (rs : Reg)
  /-- `LUTR rd, li`, R102. -/
  | lutr (rd : Reg) (idx : Level)
  /-- `LVLW li, rs`, R103. -/
  | lvlw (idx : Level) (rs : Reg)
  /-- `LVLR rd, li`, R104. -/
  | lvlr (rd : Reg) (idx : Level)
  /-- `LVUW q, rs`, R106. -/
  | lvuw (q : BitVec 4) (rs : Reg)
  /-- `LVUR rd, q`, R107. -/
  | lvur (rd : Reg) (q : BitVec 4)
  /-- `CLS rd, ra, lvl`, 41_classifier.md R127; `wide` is the field `w`. -/
  | cls (rd ra : Reg) (dir : Dir) (wide : Bool) (lvl : Level)
  /-- `K4 ra, m, h`, 42_kernels.md R148. -/
  | k4 (ra : Reg) (dir : Dir) (m h : Bool)
  /-- `K8 ra`, R149. -/
  | k8 (ra : Reg) (dir : Dir)
  /-- `K16 ra`, R150. -/
  | k16 (ra : Reg) (dir : Dir)
  /-- `LPF4 ra, lvl`, R151. -/
  | lpf4 (ra : Reg) (dir : Dir) (lvl : Level)
  /-- `LPF8 ra, lvl`, R152. -/
  | lpf8 (ra : Reg) (dir : Dir) (lvl : Level)
  /-- `LPF16 ra, lvl`, R153. -/
  | lpf16 (ra : Reg) (dir : Dir) (lvl : Level)
  /-- `DISPATCH dir, plane, row`, 43_dispatcher.md R187. -/
  | dispatch (dir : Dir) (plane : Plane) (row : BitVec 3)
  deriving DecidableEq, Repr

end Sys2Proof
end

