-- ==== Sys2Proof/WellFormed.lean ====
section
/-! DEFINITION. Which commands the encoding admits. The field widths of 30_encoding.md R81 are in the types; the one check
left is R85's: the chroma superblock has only unit rows 0..3. -/

namespace Sys2Proof

/-- A command some legal word stands for. The only ill-formed ones are chroma dispatches of rows 4..7 (R85). -/
def Instr.wf : Instr → Bool
  | .dispatch _ .chroma row => decide (row.toNat < 4)
  | .dispatch _ .luma _ => true
  | .nop | .done | .pref _ | .li _ _ | .lih _ _ | .csrr _ _ | .csrw _ _ => true
  | .lutw _ _ | .lutr _ _ | .lvlw _ _ | .lvlr _ _ | .lvuw _ _ | .lvur _ _ => true
  | .cls _ _ _ _ _ | .k4 _ _ _ _ | .k8 _ _ | .k16 _ _ => true
  | .lpf4 _ _ _ | .lpf8 _ _ _ | .lpf16 _ _ _ => true

end Sys2Proof
end

