-- ==== Sys2Proof/Decode.lean ====
section
/-! DEFINITION. Decoding and encoding of a 32-bit command word: 30_encoding.md R80 to R92. -/

namespace Sys2Proof

/-! ### The fields of R81 -/

/-- `opc`, bits 31:26. -/
def opcOf (w : Word) : BitVec 6 := w.extractLsb' 26 6
/-- `rd`, bits 25:23. -/
def rdOf (w : Word) : Reg := w.extractLsb' 23 3
/-- `rs` or `ra`, bits 22:20: one field, two names. -/
def rsOf (w : Word) : Reg := w.extractLsb' 20 3
/-- `dir`, bit 19: 0 is V, 1 is H. -/
def dirOf (w : Word) : Dir := if w.getLsbD 19 then .h else .v
/-- `w` of `CLS`, bit 18. -/
def wideOf (w : Word) : Bool := w.getLsbD 18
/-- `plane` of `DISPATCH`, bit 18: 0 is luma, 1 is chroma. -/
def planeOf (w : Word) : Plane := if w.getLsbD 18 then .chroma else .luma
/-- `m` of `K4`, bit 17. -/
def mOf (w : Word) : Bool := w.getLsbD 17
/-- `h` of `K4`, bit 16. -/
def hOf (w : Word) : Bool := w.getLsbD 16
/-- `imm16`, bits 15:0. -/
def immOf (w : Word) : BitVec 16 := w.extractLsb' 0 16
/-- `csr`, bits 7:0. -/
def csrOf (w : Word) : CsrAddr := w.extractLsb' 0 8
/-- `lvl` and `li`, bits 5:0. -/
def lvlOf (w : Word) : Level := w.extractLsb' 0 6
/-- `q`, bits 3:0. -/
def qOf (w : Word) : BitVec 4 := w.extractLsb' 0 4
/-- `row`, bits 2:0. -/
def rowOf (w : Word) : BitVec 3 := w.extractLsb' 0 3
/-- The bits 25:0 that `PREF` ignores (R87). -/
def hintOf (w : Word) : BitVec 26 := w.extractLsb' 0 26

/-! ### The opcode map of R84 -/

/-- A row of the opcode map: its "reserved bits" column, and the command its fields make (format column, R82). -/
structure OpcodeRow where
  reserved : Word
  command : Word → Instr

/-- The opcode map of R84. The opcodes it leaves out are illegal (R85). -/
def opcodeRow (opc : BitVec 6) : Option OpcodeRow :=
  match opc.toNat with
  | 0x00 => some ⟨0x03FFFFFF#32, fun _ => .nop⟩
  | 0x01 => some ⟨0x03FFFFFF#32, fun _ => .done⟩
  | 0x02 => some ⟨0x00000000#32, fun w => .pref (hintOf w)⟩
  | 0x03 => some ⟨0x007F0000#32, fun w => .li (rdOf w) (immOf w)⟩
  | 0x04 => some ⟨0x007F0000#32, fun w => .lih (rdOf w) (immOf w)⟩
  | 0x05 => some ⟨0x007FFF00#32, fun w => .csrr (rdOf w) (csrOf w)⟩
  | 0x06 => some ⟨0x038FFF00#32, fun w => .csrw (csrOf w) (rsOf w)⟩
  | 0x08 => some ⟨0x038FFFC0#32, fun w => .lutw (lvlOf w) (rsOf w)⟩
  | 0x09 => some ⟨0x007FFFC0#32, fun w => .lutr (rdOf w) (lvlOf w)⟩
  | 0x0A => some ⟨0x038FFFC0#32, fun w => .lvlw (lvlOf w) (rsOf w)⟩
  | 0x0B => some ⟨0x007FFFC0#32, fun w => .lvlr (rdOf w) (lvlOf w)⟩
  | 0x0C => some ⟨0x038FFFF0#32, fun w => .lvuw (qOf w) (rsOf w)⟩
  | 0x0D => some ⟨0x007FFFF0#32, fun w => .lvur (rdOf w) (qOf w)⟩
  | 0x10 => some ⟨0x0003FFC0#32, fun w => .cls (rdOf w) (rsOf w) (dirOf w) (wideOf w) (lvlOf w)⟩
  | 0x11 => some ⟨0x0384FFFF#32, fun w => .k4 (rsOf w) (dirOf w) (mOf w) (hOf w)⟩
  | 0x12 => some ⟨0x0387FFFF#32, fun w => .k8 (rsOf w) (dirOf w)⟩
  | 0x13 => some ⟨0x0387FFFF#32, fun w => .k16 (rsOf w) (dirOf w)⟩
  | 0x14 => some ⟨0x0387FFC0#32, fun w => .lpf4 (rsOf w) (dirOf w) (lvlOf w)⟩
  | 0x15 => some ⟨0x0387FFC0#32, fun w => .lpf8 (rsOf w) (dirOf w) (lvlOf w)⟩
  | 0x16 => some ⟨0x0387FFC0#32, fun w => .lpf16 (rsOf w) (dirOf w) (lvlOf w)⟩
  | 0x18 => some ⟨0x03F3FFF8#32, fun w => .dispatch (dirOf w) (planeOf w) (rowOf w)⟩
  | _ => none

/-! ### The decode procedure of R91 -/

/-- Why a word is no command, in the order R91 tests. Each raises `E_ILLEGAL` (60_exceptions.md R222). -/
inductive Reject where
  /-- The opcode is not one of the 21 of R84 (R85). -/
  | opcode
  /-- A reserved bit of the command's format is 1 (R86). -/
  | reservedBit
  /-- A chroma `DISPATCH` with `row` ≥ 4 (R85). -/
  | chromaRow
  deriving DecidableEq, Repr

/-- What decoding answers. -/
inductive Decoded where
  | command (i : Instr)
  | reject (why : Reject)
  deriving DecidableEq, Repr

/-- Decoding a word, R91: opcode, then reserved bits, then the chroma row; it reads nothing but the word. -/
def decode (w : Word) : Decoded :=
  match opcodeRow (opcOf w) with
  | none => .reject .opcode
  | some row =>
    if w &&& row.reserved ≠ 0#32 then .reject .reservedBit
    else if (row.command w).wf then .command (row.command w)
    else .reject .chromaRow

/-- The command, where there is one. -/
def Decoded.toOption : Decoded → Option Instr
  | .command i => some i
  | .reject _ => none

/-- A command word carried over a byte bus: little-endian, byte 0 is bits 7:0 (20_memory.md R63). -/
def wordOfBusBytes (b0 b1 b2 b3 : Byte) : Word := b3 ++ b2 ++ b1 ++ b0

/-- The word of a table row of `nbits` bits: the bits above are 0. Every row of the table has 32 (R80). -/
def tableWord (nbits w : Nat) : Word := BitVec.ofNat 32 (w % 2 ^ nbits)

/-- The instruction the decoder reads from a word numbered as spec/opcode_table.json numbers it. -/
def decodeTableWord (nbits w : Nat) : Option Instr := (decode (tableWord nbits w)).toOption

/-! ### The encoder: the formats of R82, with the opcodes of R84 -/

/-- The bit of `dir` (R81). -/
def Dir.bit : Dir → BitVec 1
  | .v => 0#1
  | .h => 1#1

/-- The bit of `plane` (R81). -/
def Plane.bit : Plane → BitVec 1
  | .luma => 0#1
  | .chroma => 1#1

/-- The one word of a command: fields from bit 31 down, zeros in the reserved places. -/
def encode : Instr → Word
  | .nop => 0x00#6 ++ 0#26
  | .done => 0x01#6 ++ 0#26
  | .pref hint => 0x02#6 ++ hint
  | .li rd imm => 0x03#6 ++ rd ++ 0#7 ++ imm
  | .lih rd imm => 0x04#6 ++ rd ++ 0#7 ++ imm
  | .csrr rd csr => 0x05#6 ++ rd ++ 0#15 ++ csr
  | .csrw csr rs => 0x06#6 ++ 0#3 ++ rs ++ 0#12 ++ csr
  | .lutw idx rs => 0x08#6 ++ 0#3 ++ rs ++ 0#14 ++ idx
  | .lutr rd idx => 0x09#6 ++ rd ++ 0#17 ++ idx
  | .lvlw idx rs => 0x0A#6 ++ 0#3 ++ rs ++ 0#14 ++ idx
  | .lvlr rd idx => 0x0B#6 ++ rd ++ 0#17 ++ idx
  | .lvuw q rs => 0x0C#6 ++ 0#3 ++ rs ++ 0#16 ++ q
  | .lvur rd q => 0x0D#6 ++ rd ++ 0#19 ++ q
  | .cls rd ra dir wide lvl => 0x10#6 ++ rd ++ ra ++ dir.bit ++ BitVec.ofBool wide ++ 0#12 ++ lvl
  | .k4 ra dir m h => 0x11#6 ++ 0#3 ++ ra ++ dir.bit ++ 0#1 ++ BitVec.ofBool m ++ BitVec.ofBool h ++ 0#16
  | .k8 ra dir => 0x12#6 ++ 0#3 ++ ra ++ dir.bit ++ 0#19
  | .k16 ra dir => 0x13#6 ++ 0#3 ++ ra ++ dir.bit ++ 0#19
  | .lpf4 ra dir lvl => 0x14#6 ++ 0#3 ++ ra ++ dir.bit ++ 0#13 ++ lvl
  | .lpf8 ra dir lvl => 0x15#6 ++ 0#3 ++ ra ++ dir.bit ++ 0#13 ++ lvl
  | .lpf16 ra dir lvl => 0x16#6 ++ 0#3 ++ ra ++ dir.bit ++ 0#13 ++ lvl
  | .dispatch dir plane row => 0x18#6 ++ 0#6 ++ dir.bit ++ plane.bit ++ 0#15 ++ row

end Sys2Proof
end

