-- ==== Sys2Proof/Config.lean ====
section
/-! DEFINITION. The two implementation parameters of 00_scope.md R5 that a model takes as arguments. They are carried by
the state and no step writes them (log 3). No rule leaves a value of a running command open, so there is no free value. -/

namespace Sys2Proof

/-- The parameters of R5 marked "parameter", with the defaults R5 gives. -/
structure Config where
  /-- `PIX_BYTES`, the size of PIXMEM in bytes. -/
  pixBytes : Nat := 65536
  /-- `CMDQ_DEPTH`, the number of command-queue entries. -/
  cmdqDepth : Nat := 16
  deriving DecidableEq, Repr

/-- The ranges R5 gives for the two parameters. -/
abbrev Config.Legal (c : Config) : Prop :=
  (1 ≤ c.pixBytes ∧ c.pixBytes ≤ 2 ^ 31) ∧ (1 ≤ c.cmdqDepth ∧ c.cmdqDepth ≤ 255)

end Sys2Proof
end

