-- ==== Sys2Proof/Machine/State.lean ====
section
/-! DEFINITION. The architectural state, 10_state.md R20, the port moves that other agents still make, and the state after
reset, 70_reset_and_hazards.md R251. -/

namespace Sys2Proof.Machine

/-! ### The registers that have fields -/

/-- `CTRL`, R27: what the register holds. `FLUSH` is an action and reads 0; bits 31:3 read 0. -/
structure Ctrl where
  /-- `IE_DONE`, bit 0. -/
  ieDone : Bool
  /-- `IE_ERR`, bit 1. -/
  ieErr : Bool
  deriving DecidableEq, Repr

/-- `STATUS`, R28: what the register holds. `BUSY` is computed (R46); the reserved bits read 0. -/
structure Status where
  /-- `DONE`, bit 0. -/
  done : Bool
  /-- `ERR`, bit 1: the block is halted exactly when it is 1 (R23). -/
  err : Bool
  /-- `ERRCODE`, bits 15:8. -/
  errcode : BitVec 8
  deriving DecidableEq, Repr

/-- One entry of the threshold LUT, R40. -/
structure LutEntry where
  valid : Bool
  blimit : Byte
  limit : Byte
  hevthr : Byte
  deriving DecidableEq, Repr

/-- The names of the eight edge masks, R36: left masks `ML*` for vertical edges, above masks `MA*` for horizontal edges. -/
inductive MaskName where
  | ml16
  | ml8
  | ml4
  | ml4i
  | ma16
  | ma8
  | ma4
  | ma4i
  deriving DecidableEq, Repr

/-- The eight 64-bit edge masks, R36. -/
structure Masks where
  ml16 : BitVec 64
  ml8 : BitVec 64
  ml4 : BitVec 64
  ml4i : BitVec 64
  ma16 : BitVec 64
  ma8 : BitVec 64
  ma4 : BitVec 64
  ma4i : BitVec 64
  deriving DecidableEq, Repr

/-- The error causes, 60_exceptions.md R221. -/
inductive ErrCode where
  | illegal
  | csr
  | range
  | lut
  | pitch
  deriving DecidableEq, Repr

/-- The bytes of PIXMEM, R44: the bytes that are not 0, each with its address, addresses rising (log 1). -/
abbrev Memory := List Host.Cell

/-! ### The moves of the other agents -/

/-- A turn in the one total order of 20_memory.md R70: the block's, the host's at its port, or the platform's. -/
inductive Move where
  /-- The block takes this turn (the host waits). -/
  | block
  /-- The host pushes a command word (10_state.md R22). -/
  | push (w : Word)
  /-- The host's bus carries a command word as four bytes, byte 0 first (20_memory.md R63). -/
  | pushBytes (b0 b1 b2 b3 : Byte)
  /-- The host reads a CSR (10_state.md R39). -/
  | csrRead (addr : CsrAddr)
  /-- The host writes a CSR (10_state.md R39). -/
  | csrWrite (addr : CsrAddr) (v : Word)
  /-- The host reads a byte of PIXMEM (20_memory.md R76). -/
  | pixRead (addr : Nat)
  /-- The host writes a byte of PIXMEM (20_memory.md R76). -/
  | pixWrite (addr : Nat) (v : Byte)
  /-- The platform asserts reset (70_reset_and_hazards.md R250); `content` is what PIXMEM holds after it, which R251 leaves
  open (log 12). -/
  | reset (content : List Host.Cell)
  deriving DecidableEq, Repr

/-! ### The state -/

/-- The state: R20's eight items, then the model's own fields (parameters and port). -/
structure State where
  /-- `A0`..`A7`, R21. -/
  regs : Vector Word 8
  /-- `CMDQ`, head first, R22. While a command runs, the words behind it. -/
  cmdq : List Word
  /-- `CTRL`, R27. -/
  ctrl : Ctrl
  /-- `STATUS`, R28. -/
  status : Status
  /-- `PITCH` bits 15:0, R29. -/
  pitch : BitVec 16
  /-- `SBBASE`, R30. -/
  sbbase : Word
  /-- `CMDCNT`, R31. -/
  cmdcnt : Word
  /-- `ERRCMD`, R32. -/
  errcmd : Word
  /-- `ERRINFO`, R33. -/
  errinfo : Word
  /-- The eight edge masks, R36. -/
  masks : Masks
  /-- `LUT[0..63]`, R40. -/
  lut : Vector LutEntry 64
  /-- `LVLTAB[0..63]`, R42. -/
  lvltab : Vector Level 64
  /-- `LVLU[0..63]`, R43. -/
  lvlu : Vector Level 64
  /-- `PIXMEM`, R44. -/
  pix : Memory
  /-- Model's own: the parameters of 00_scope.md R5; no step writes them (log 3). -/
  cfg : Config
  /-- Model's own: the moves the other agents still make, next first; when it is empty every turn is the block's (log 4). -/
  pending : List Move
  /-- Model's own: what the last host-port read returned (log 8). -/
  reply : Option Word
  deriving DecidableEq, Repr

/-! ### Why a step can stop -/

/-- The faults of the model: none. Every error of the block is an error entry, a next state (60_exceptions.md R224), and the
host port never raises one (R241), so nobody raises a fault. Safe: there is none to lean on (log 14). -/
inductive Fault
  deriving DecidableEq, Repr

/-- The refusals of the model. -/
inductive Refusal where
  /-- Raised by an arm of `exec` whose instruction has no meaning yet; no arm does so now. Safe: the run stops. -/
  | notModelled (mnemonic : String)
  /-- Raised by a host move that reads or writes PIXMEM while host `STATUS.BUSY` = 1, for which 70_reset_and_hazards.md R257
  says "refuse". Safe: claims cover only runs without it (log 7). -/
  | hostPixWhileBusy
  deriving DecidableEq, Repr

/-! ### Reset -/

/-- The state after reset, R251, of a block with parameters `c`, when PIXMEM then holds `pix`. The threshold fields, which
R251 leaves unspecified while `VALID` is 0, are 0 (log 2). -/
def State.resetWith (c : Config) (pix : Memory) : State where
  regs := Vector.replicate 8 0#32
  cmdq := []
  ctrl := ⟨false, false⟩
  status := ⟨false, false, 0#8⟩
  pitch := 0#16
  sbbase := 0#32
  cmdcnt := 0#32
  errcmd := 0#32
  errinfo := 0#32
  masks := ⟨0#64, 0#64, 0#64, 0#64, 0#64, 0#64, 0#64, 0#64⟩
  lut := Vector.replicate 64 ⟨false, 0#8, 0#8, 0#8⟩
  lvltab := Vector.replicate 64 0#6
  lvlu := Vector.replicate 64 0#6
  pix := pix
  cfg := c
  pending := []
  reply := none

/-- The machine right after reset, with the default parameters of R5 (log 3) and PIXMEM all 0 (log 1). -/
def State.reset : State := State.resetWith {} []

end Sys2Proof.Machine
end

