-- ==== Sys2Proof/Machine/Ops.lean ====
section
/-! DEFINITION. The named operations over PIXMEM, the argument registers, the tables and the masks; error entry, the return
from an error, and the completion of a command. -/

namespace Sys2Proof.Machine

/-- What executing a command or taking a turn answers. -/
abbrev Result := Host.Outcome State Fault Refusal

/-! ### PIXMEM, 20_memory.md R61 to R65 -/

/-- What a byte of PIXMEM that is not listed reads as (log 1). -/
def Memory.unlisted : Byte := 0#8

/-- The canonical form: addresses strictly rising, no entry equal to what an unlisted address reads as. -/
abbrev Memory.wf (m : Memory) : Prop :=
  m.Pairwise (fun c d => c.1 < d.1) ∧ ∀ c ∈ m, c.2 ≠ Memory.unlisted

/-- `MemRead(a, 1)` of 00_scope.md R9. -/
def Memory.read : Memory → Nat → Byte
  | [], _ => Memory.unlisted
  | (a, b) :: m, x => if x = a then b else Memory.read m x

/-- Puts a byte before a list whose addresses are all greater, unless it is what an unlisted address reads as. -/
def Memory.cons (a : Nat) (v : Byte) (m : Memory) : Memory :=
  if v = Memory.unlisted then m else (a, v) :: m

/-- `MemWrite(a, 1, v)` of R9. -/
def Memory.write : Memory → Nat → Byte → Memory
  | [], x, v => Memory.cons x v []
  | (a, b) :: m, x, v =>
    if x < a then Memory.cons x v ((a, b) :: m)
    else if x = a then Memory.cons x v m
    else (a, b) :: Memory.write m x v

/-- A PIXMEM of `n` bytes that holds the given bytes, 0 elsewhere; bytes outside 0..n-1 do not exist (R61). -/
def Memory.ofCells (n : Nat) (cells : List Host.Cell) : Memory :=
  cells.foldl (fun m c => if c.1 < n then Memory.write m c.1 c.2 else m) []

/-- A valid PIXMEM address, R61: addresses are unbounded integers and never wrap. -/
def inPix (c : Config) (a : Int) : Bool := decide (0 ≤ a) && decide (a < c.pixBytes)

/-- The range check of R65: every address of a footprint is valid. -/
def inRange (c : Config) (footprint : List Int) : Bool := footprint.all (inPix c)

/-! ### Argument registers, 10_state.md R21 -/

/-- `x[r]`. -/
def State.reg (s : State) (r : Reg) : Word := s.regs[r.toNat]'r.isLt

/-- `x[r] <- v`. No register is hardwired. -/
def State.setReg (s : State) (r : Reg) (v : Word) : State := { s with regs := s.regs.set r.toNat v r.isLt }

/-! ### Threshold LUT, level table, unit levels, 10_state.md R40 to R43 -/

/-- `LUT[l]`. -/
def State.lutAt (s : State) (l : Level) : LutEntry := s.lut[l.toNat]'l.isLt

/-- `LUT[l] <- e`. -/
def State.setLut (s : State) (l : Level) (e : LutEntry) : State := { s with lut := s.lut.set l.toNat e l.isLt }

/-- The entry a packed word stands for, R41, with `VALID` 1; bits 31:24 are ignored. -/
def LutEntry.unpack (v : Word) : LutEntry := ⟨true, v.extractLsb' 0 8, v.extractLsb' 8 8, v.extractLsb' 16 8⟩

/-- The packed word of an entry, R41; bits 31:24 are 0. -/
def LutEntry.pack (e : LutEntry) : Word := 0#8 ++ e.hevthr ++ e.limit ++ e.blimit

/-- `LVLTAB[l]`. -/
def State.lvltabAt (s : State) (l : Level) : Level := s.lvltab[l.toNat]'l.isLt

/-- `LVLTAB[l] <- v`. -/
def State.setLvltab (s : State) (l : Level) (v : Level) : State :=
  { s with lvltab := s.lvltab.set l.toNat v l.isLt }

/-- `LVLU[n]`; every n the block uses is below 64. -/
def State.unitLevel (s : State) (n : Nat) : Level := s.lvlu[n]?.getD 0#6

/-- `LVLU[4q .. 4q+3]` from the low six bits of each byte of `v`, 40_threshold_lut.md R106. -/
def putUnits (t : Vector Level 64) (q : BitVec 4) (v : Word) : Vector Level 64 :=
  [0, 1, 2, 3].foldl (fun t i => t.setIfInBounds (4 * q.toNat + i) (v.extractLsb' (8 * i) 6)) t

/-- `LVLU[4q .. 4q+3] <- v`, the write of R106. -/
def State.setUnits (s : State) (q : BitVec 4) (v : Word) : State := { s with lvlu := putUnits s.lvlu q v }

/-- `LVLU[4q .. 4q+3]` as the four bytes of a word, R107. -/
def State.unitsWord (s : State) (q : BitVec 4) : Word :=
  (s.unitLevel (4 * q.toNat + 3)).setWidth 8 ++ (s.unitLevel (4 * q.toNat + 2)).setWidth 8
    ++ (s.unitLevel (4 * q.toNat + 1)).setWidth 8 ++ (s.unitLevel (4 * q.toNat)).setWidth 8

/-! ### Edge masks, 10_state.md R36 -/

/-- A mask by its name. -/
def Masks.get (m : Masks) : MaskName → BitVec 64
  | .ml16 => m.ml16
  | .ml8 => m.ml8
  | .ml4 => m.ml4
  | .ml4i => m.ml4i
  | .ma16 => m.ma16
  | .ma8 => m.ma8
  | .ma4 => m.ma4
  | .ma4i => m.ma4i

/-- A mask written whole. -/
def Masks.set (m : Masks) (n : MaskName) (v : BitVec 64) : Masks :=
  match n with
  | .ml16 => { m with ml16 := v }
  | .ml8 => { m with ml8 := v }
  | .ml4 => { m with ml4 := v }
  | .ml4i => { m with ml4i := v }
  | .ma16 => { m with ma16 := v }
  | .ma8 => { m with ma8 := v }
  | .ma4 => { m with ma4 := v }
  | .ma4i => { m with ma4i := v }

/-- The `_LO` half: bits 31:0. -/
def maskLo (v : BitVec 64) : Word := v.extractLsb' 0 32
/-- The `_HI` half: bits 63:32. -/
def maskHi (v : BitVec 64) : Word := v.extractLsb' 32 32

/-- A write of the `_LO` half, which leaves the other half unchanged. -/
def Masks.setLo (m : Masks) (n : MaskName) (v : Word) : Masks := m.set n (maskHi (m.get n) ++ v)
/-- A write of the `_HI` half, which leaves the other half unchanged. -/
def Masks.setHi (m : Masks) (n : MaskName) (v : Word) : Masks := m.set n (v ++ maskLo (m.get n))

/-! ### Errors, 60_exceptions.md R221, R224, R229 -/

/-- The number of an error cause, R221. -/
def ErrCode.code : ErrCode → BitVec 8
  | .illegal => 1#8
  | .csr => 2#8
  | .range => 3#8
  | .lut => 4#8
  | .pitch => 5#8

/-- Error entry, R224: the command `word` raised `code` with information `info`. Four writes and nothing else; the block is
then halted. The one shared operation by which every error is taken. -/
def State.enterError (s : State) (word : Word) (code : ErrCode) (info : Word) : State :=
  { s with
    status := { s.status with err := true, errcode := code.code }
    errcmd := word
    errinfo := info }

/-- The return from an error, R229, and the effect of writing 1 to `STATUS.ERR` (10_state.md R28): `ERRCMD` and `ERRINFO`
keep the record. -/
def State.clearError (s : State) : State := { s with status := { s.status with err := false, errcode := 0#8 } }

/-! ### Completing a command, 44_control.md R207 -/

/-- Retirement, R207: `CMDCNT` counts modulo 2^32. -/
def State.retire (s : State) : State := { s with cmdcnt := s.cmdcnt + 1#32 }

/-- A check of a command: whether it fails, and the error it then raises. -/
abbrev Check := Bool × ErrCode × Word

/-- The error of the first failing check: checks are listed in the priority order of 60_exceptions.md R228. -/
def firstError : List Check → Option (ErrCode × Word)
  | [] => none
  | (fails, e) :: rest => if fails then some e else firstError rest

/-- How a command ends, R207: an error is entered on the state before the command, with the word of the command (log 10), and
nothing the command would have written is written (20_memory.md R67); without one the answer is the state after the command. -/
def settle (i : Instr) (checks : List Check) (before after : State) : Result :=
  match firstError checks with
  | some (code, info) => .next (before.enterError (encode i) code info)
  | none => .next after

end Sys2Proof.Machine
end

