-- ==== Sys2Proof/Machine/Operands.lean ====
section
/-! DEFINITION. What the operand fields stand for: the CSR map, the geometry of lines and segments, the footprints, and the
checks a pixel command makes. -/

namespace Sys2Proof.Machine

/-! ### The CSR map, 10_state.md R25 and R36 -/

/-- The registers of the CSR map. -/
inductive Csr where
  | id
  | ctrl
  | status
  | pitch
  | sbbase
  | cmdcnt
  | errcmd
  | errinfo
  | qstat
  | pixsize
  | maskLo (m : MaskName)
  | maskHi (m : MaskName)
  deriving DecidableEq, Repr

/-- The CSR at an address, R25; `none` for an address that names no register (R38). -/
def csrAt (a : CsrAddr) : Option Csr :=
  match a.toNat with
  | 0x00 => some .id
  | 0x01 => some .ctrl
  | 0x02 => some .status
  | 0x03 => some .pitch
  | 0x04 => some .sbbase
  | 0x05 => some .cmdcnt
  | 0x06 => some .errcmd
  | 0x07 => some .errinfo
  | 0x08 => some .qstat
  | 0x09 => some .pixsize
  | 0x10 => some (.maskLo .ml16)
  | 0x11 => some (.maskHi .ml16)
  | 0x12 => some (.maskLo .ml8)
  | 0x13 => some (.maskHi .ml8)
  | 0x14 => some (.maskLo .ml4)
  | 0x15 => some (.maskHi .ml4)
  | 0x16 => some (.maskLo .ml4i)
  | 0x17 => some (.maskHi .ml4i)
  | 0x18 => some (.maskLo .ma16)
  | 0x19 => some (.maskHi .ma16)
  | 0x1A => some (.maskLo .ma8)
  | 0x1B => some (.maskHi .ma8)
  | 0x1C => some (.maskLo .ma4)
  | 0x1D => some (.maskHi .ma4)
  | 0x1E => some (.maskLo .ma4i)
  | 0x1F => some (.maskHi .ma4i)
  | _ => none

/-- The read-only CSRs of R39. -/
def Csr.readOnly : Csr → Bool
  | .id | .errcmd | .errinfo | .qstat | .pixsize => true
  | .ctrl | .status | .pitch | .sbbase | .cmdcnt | .maskLo _ | .maskHi _ => false

/-! ### Lines and segments, 00_scope.md R10, R11 and 42_kernels.md R147 -/

/-- The sample step `st`: 1 for V, `PITCH` for H. -/
def sampleStep (dir : Dir) (pitch : BitVec 16) : Int :=
  match dir with
  | .v => 1
  | .h => pitch.toNat

/-- The origin of line j of the segment at `a`: the address of its sample `q0`. -/
def lineOrigin (dir : Dir) (pitch : BitVec 16) (a : Int) (j : Nat) : Int :=
  match dir with
  | .v => a + j * pitch.toNat
  | .h => a + j

/-- The samples `p1..q1`: what `filter4` reads and writes. -/
def window4 : List Int := [-2, -1, 0, 1]
/-- The narrow window `p3..q3`. -/
def window8 : List Int := [-4, -3, -2, -1, 0, 1, 2, 3]
/-- The wide window `p7..q7`. -/
def window16 : List Int := [-8, -7, -6, -5, -4, -3, -2, -1, 0, 1, 2, 3, 4, 5, 6, 7]
/-- The samples `p2..q2`, which `filter8` writes. -/
def writes8 : List Int := [-3, -2, -1, 0, 1, 2]
/-- The samples `p6..q6`, which `filter16` writes. -/
def writes16 : List Int := [-7, -6, -5, -4, -3, -2, -1, 0, 1, 2, 3, 4, 5, 6]

/-- `LINES`, the lines of one segment (00_scope.md R5). -/
def segmentLines : List Nat := [0, 1, 2, 3, 4, 5, 6, 7]
/-- The raw kernels and `CLS` work on line 0 only (R147). -/
def lineZero : List Nat := [0]

/-- The footprint of 20_memory.md R65, R66: the addresses of the window's samples in each of the lines. -/
def footprint (dir : Dir) (pitch : BitVec 16) (a : Int) (lines : List Nat) (window : List Int) : List Int :=
  lines.flatMap fun j => window.map fun k => lineOrigin dir pitch a j + k * sampleStep dir pitch

/-! ### The checks of a pixel command, 60_exceptions.md R225 to R228 -/

/-- `MIN_PITCH` (00_scope.md R5). -/
def minPitch : Nat := 16

/-- `E_PITCH` when `PITCH` < 16, R225. -/
def pitchCheck (s : State) : Check := (decide (s.pitch.toNat < minPitch), .pitch, s.pitch.setWidth 32)

/-- `E_LUT` when the entry of a level is not valid, R226. -/
def lutCheck (s : State) (l : Level) : Check := (!(s.lutAt l).valid, .lut, l.setWidth 32)

/-- `E_RANGE` when an address of the footprint is outside PIXMEM, R227; `base` is the command's base operand. -/
def rangeCheck (s : State) (base : Word) (fp : List Int) : Check := (!inRange s.cfg fp, .range, base)

end Sys2Proof.Machine
end

