-- ==== Sys2Proof/Machine/Flags.lean ====
section
/-! DEFINITION. The status and control bits as words. The block has no flags or condition codes (10_state.md R24): what a
program or a host reads of its condition is `STATUS`, `QSTAT`, `CTRL` and the interrupt output. -/

namespace Sys2Proof.Machine

/-- `BUSY` as the host reads it, 10_state.md R46. -/
def State.busy (s : State) : Bool := !s.cmdq.isEmpty && !s.status.err

/-- The interrupt output, a level, 10_state.md R45 and 60_exceptions.md R232. -/
def State.irq (s : State) : Bool := (s.ctrl.ieDone && s.status.done) || (s.ctrl.ieErr && s.status.err)

/-- The layout of `STATUS`, 10_state.md R28. -/
def statusBits (errcode : BitVec 8) (busy err done : Bool) : Word :=
  0#16 ++ errcode ++ 0#5 ++ BitVec.ofBool busy ++ BitVec.ofBool err ++ BitVec.ofBool done

/-- `STATUS` as the host port reads it. -/
def State.hostStatus (s : State) : Word := statusBits s.status.errcode s.busy s.status.err s.status.done

/-- `STATUS` as the command stream reads it, R28: `ERR` and `ERRCODE` are always 0 and `BUSY` always 1 (log 9). -/
def State.streamStatus (s : State) : Word := statusBits 0#8 true false s.status.done

/-- `CTRL`, 10_state.md R27; `FLUSH` and the reserved bits read 0. -/
def State.ctrlWord (s : State) : Word := 0#30 ++ BitVec.ofBool s.ctrl.ieErr ++ BitVec.ofBool s.ctrl.ieDone

/-- `QSTAT`, 10_state.md R34: `DEPTH` and `QCOUNT`. -/
def State.qstatWord (s : State) : Word :=
  0#16 ++ BitVec.ofNat 8 s.cfg.cmdqDepth ++ BitVec.ofNat 8 s.cmdq.length

/-- What a read of a CSR returns, R25, given the view of `STATUS` the reader has. -/
def State.csrValue (s : State) (statusView : Word) : Csr → Word
  | .id => 0x44424631#32
  | .ctrl => s.ctrlWord
  | .status => statusView
  | .pitch => s.pitch.setWidth 32
  | .sbbase => s.sbbase
  | .cmdcnt => s.cmdcnt
  | .errcmd => s.errcmd
  | .errinfo => s.errinfo
  | .qstat => s.qstatWord
  | .pixsize => BitVec.ofNat 32 s.cfg.pixBytes
  | .maskLo m => maskLo (s.masks.get m)
  | .maskHi m => maskHi (s.masks.get m)

/-- A write of `CTRL`, R27: bits 1:0 are kept; bit 2 empties `CMDQ`. -/
def State.writeCtrl (s : State) (v : Word) : State :=
  { s with
    ctrl := ⟨v.getLsbD 0, v.getLsbD 1⟩
    cmdq := if v.getLsbD 2 then [] else s.cmdq }

/-- A write of `STATUS`, R28: a 1 in bit 0 clears `DONE`, a 1 in bit 1 is the return from an error; other bits are ignored. -/
def State.writeStatus (s : State) (v : Word) : State :=
  let t := if v.getLsbD 0 then { s with status := { s.status with done := false } } else s
  if v.getLsbD 1 then t.clearError else t

/-- A write of a CSR, R25 to R36. A read-only CSR keeps its value: the host port ignores such a write (R39), and the command
stream raises `E_CSR` before it gets here. -/
def State.writeCsr (s : State) (c : Csr) (v : Word) : State :=
  match c with
  | .ctrl => s.writeCtrl v
  | .status => s.writeStatus v
  | .pitch => { s with pitch := v.extractLsb' 0 16 }
  | .sbbase => { s with sbbase := v }
  | .cmdcnt => { s with cmdcnt := v }
  | .maskLo m => { s with masks := s.masks.setLo m v }
  | .maskHi m => { s with masks := s.masks.setHi m v }
  | .id | .errcmd | .errinfo | .qstat | .pixsize => s

end Sys2Proof.Machine
end

