-- ==== Sys2Proof/Machine/Control.lean ====
section
/-! DEFINITION. The control and immediate commands, 44_control.md R200 to R204. Each ends with retirement, R207. -/

namespace Sys2Proof.Machine

/-- `NOP`, R200: nothing; the command retires. -/
def execNop (s : State) : Result := settle .nop [] s s.retire

/-- `DONE`, R201: `STATUS.DONE <- 1`; the block goes on with the next command. -/
def execDone (s : State) : Result :=
  settle .done [] s { s with status := { s.status with done := true } }.retire

/-- `PREF`, R202: nothing, whatever bits 25:0 are; the command retires. -/
def execPref (hint : BitVec 26) (s : State) : Result := settle (.pref hint) [] s s.retire

/-- `LI`, R203: `x[rd] <- zext_32(imm16)`. -/
def execLi (rd : Reg) (imm : BitVec 16) (s : State) : Result :=
  settle (.li rd imm) [] s (s.setReg rd (imm.setWidth 32)).retire

/-- `LIH`, R204: `x[rd] <- (imm16 << 16) + x[rd][15:0]`. -/
def execLih (rd : Reg) (imm : BitVec 16) (s : State) : Result :=
  settle (.lih rd imm) [] s (s.setReg rd (imm ++ (s.reg rd).extractLsb' 0 16)).retire

end Sys2Proof.Machine
end

