-- ==== Sys2Proof/Machine/CsrAccess.lean ====
section
/-! DEFINITION. The CSR commands, 44_control.md R205 and R206. -/

namespace Sys2Proof.Machine

/-- `CSRR`, R205: an address that names no register raises `E_CSR`; else `x[rd]` is the value the command stream sees. -/
def execCsrr (rd : Reg) (csr : CsrAddr) (s : State) : Result :=
  match csrAt csr with
  | none => settle (.csrr rd csr) [(true, .csr, csr.setWidth 32)] s s
  | some c => settle (.csrr rd csr) [] s (s.setReg rd (s.csrValue s.streamStatus c)).retire

/-- What `CSRW` leaves when it completes: the written CSR, and `CMDCNT` counted unless it is the CSR written (R207). -/
def csrwAfter (s : State) (c : Csr) (v : Word) : State :=
  if c = .cmdcnt then s.writeCsr c v else (s.writeCsr c v).retire

/-- `CSRW`, R206: an address that names no register, or a read-only CSR, raises `E_CSR`. -/
def execCsrw (csr : CsrAddr) (rs : Reg) (s : State) : Result :=
  match csrAt csr with
  | none => settle (.csrw csr rs) [(true, .csr, csr.setWidth 32)] s s
  | some c => settle (.csrw csr rs) [(c.readOnly, .csr, csr.setWidth 32)] s (csrwAfter s c (s.reg rs))

end Sys2Proof.Machine
end

