-- ==== Sys2Proof/Machine/Classifier.lean ====
section
/-! DEFINITION. The edge classifier, 41_classifier.md R120 to R125, and the command `CLS`, R127. Arithmetic is over the
integers (00_scope.md R6). -/

namespace Sys2Proof.Machine

/-- The samples of one line, R10: `s k` is the sample at `o + k·st`, so `p_i = s (-1-i)` and `q_i = s i`. -/
abbrev Line := Int → Int

/-- The line at origin `o` with sample step `st`, read from PIXMEM. -/
def readLine (m : Memory) (o st : Int) : Line := fun k => ((m.read (o + k * st).toNat).toNat : Int)

/-- `abs(a - b)`. -/
def delta (a b : Int) : Int := ((a - b).natAbs : Int)

/-- The master gate, R120. -/
def filterMask (limit blimit p3 p2 p1 p0 q0 q1 q2 q3 : Int) : Bool :=
  decide (delta p3 p2 ≤ limit) && decide (delta p2 p1 ≤ limit) && decide (delta p1 p0 ≤ limit)
    && decide (delta q1 q0 ≤ limit) && decide (delta q2 q1 ≤ limit) && decide (delta q3 q2 ≤ limit)
    && decide (2 * delta p0 q0 + delta p1 q1 / 2 ≤ blimit)

/-- High edge variance, R121; the comparison is strict. -/
def hevMask (thresh p1 p0 q0 q1 : Int) : Bool := decide (delta p1 p0 > thresh) || decide (delta q1 q0 > thresh)

/-- The narrow flatness mask, R122. -/
def flatMask4 (t p3 p2 p1 p0 q0 q1 q2 q3 : Int) : Bool :=
  decide (delta p1 p0 ≤ t) && decide (delta q1 q0 ≤ t) && decide (delta p2 p0 ≤ t) && decide (delta q2 q0 ≤ t)
    && decide (delta p3 p0 ≤ t) && decide (delta q3 q0 ≤ t)

/-- The wide flatness mask, R123. -/
def flatMask5 (t a4 a3 a2 a1 a0 b0 b1 b2 b3 b4 : Int) : Bool :=
  flatMask4 t a3 a2 a1 a0 b0 b1 b2 b3 && decide (delta a4 a0 ≤ t) && decide (delta b4 b0 ≤ t)

/-- `FLAT_THRESH` (00_scope.md R5). -/
def flatThresh : Int := 1

/-- `flat(s)`, R124: `p3..q3`. -/
def flat (s : Line) : Bool := flatMask4 flatThresh (s (-4)) (s (-3)) (s (-2)) (s (-1)) (s 0) (s 1) (s 2) (s 3)

/-- `flat2(s)`, R124: the outer samples `p7..p4`, `q4..q7` against `p0` and `q0` (90_conflicts.md C2). -/
def flat2 (s : Line) : Bool :=
  flatMask5 flatThresh (s (-8)) (s (-7)) (s (-6)) (s (-5)) (s (-1)) (s 0) (s 4) (s 5) (s 6) (s 7)

/-- `filterMask` of a line with the thresholds of a LUT entry, R108. -/
def lineMask (e : LutEntry) (s : Line) : Bool :=
  filterMask e.limit.toNat e.blimit.toNat (s (-4)) (s (-3)) (s (-2)) (s (-1)) (s 0) (s 1) (s 2) (s 3)

/-- `hevMask` of a line with the threshold of a LUT entry, R108. -/
def lineHev (e : LutEntry) (s : Line) : Bool := hevMask e.hevthr.toNat (s (-2)) (s (-1)) (s 0) (s 1)

/-- A kernel: `filter4`, `filter8` or `filter16`. It is also the `cap` of R125. -/
inductive Kernel where
  | f4
  | f8
  | f16
  deriving DecidableEq, Repr

/-- The kernel class of one line, R125: none, or the widest eligible kernel the cap allows. -/
def kernelClass (mask flat flat2 : Bool) (cap : Kernel) : Option Kernel :=
  if !mask then none
  else if decide (cap = .f16) && flat2 && flat then some .f16
  else if decide (cap ≠ .f4) && flat then some .f8
  else some .f4

/-- `KSEL` of R127. -/
def kselBits (mask flat flat2 wide : Bool) : BitVec 2 :=
  if !mask then 0#2 else if wide && flat2 && flat then 3#2 else if flat then 2#2 else 1#2

/-- The result of `CLS`, R127: `M`, `HEV`, `FLAT`, `FLAT2` in bits 0 to 3, `KSEL` in bits 5:4, zeros above. `FLAT2` is 0 in
the narrow form, which does not read the outer samples. -/
def clsWord (e : LutEntry) (wide : Bool) (s : Line) : Word :=
  let f2 := wide && flat2 s
  0#26 ++ kselBits (lineMask e s) (flat s) f2 wide ++ BitVec.ofBool f2 ++ BitVec.ofBool (flat s)
    ++ BitVec.ofBool (lineHev e s) ++ BitVec.ofBool (lineMask e s)

/-- The window of `CLS`, R127: wide or narrow. -/
def clsWindow (wide : Bool) : List Int := if wide then window16 else window8

/-- `CLS`, R127. PIXMEM is read and never written; the address is read before the result is written, so `rd` may be `ra`. -/
def execCls (rd ra : Reg) (dir : Dir) (wide : Bool) (lvl : Level) (s : State) : Result :=
  settle (.cls rd ra dir wide lvl)
    [pitchCheck s, lutCheck s lvl,
      rangeCheck s (s.reg ra) (footprint dir s.pitch (s.reg ra).toNat lineZero (clsWindow wide))]
    s
    (s.setReg rd (clsWord (s.lutAt lvl) wide (readLine s.pix (s.reg ra).toNat (sampleStep dir s.pitch)))).retire

end Sys2Proof.Machine
end

