-- ==== Sys2Proof/Machine/Kernels.lean ====
section
/-! DEFINITION. The filter kernels on one line, 42_kernels.md R140 to R146, and the raw kernel commands `K4`, `K8`, `K16`,
R148 to R150. Arithmetic is over the integers (00_scope.md R6). -/

namespace Sys2Proof.Machine

/-- `v >> n`, the arithmetic right shift: `floor(v / 2^n)` (00_scope.md R7). -/
def asr (v : Int) (n : Nat) : Int := v / 2 ^ n

/-- `clamp8`, R8: saturation to [-128, 127]. -/
def clamp8 (v : Int) : Int := min 127 (max (-128) v)

/-- `u2s`, R8: a sample in the signed domain. -/
def u2s (b : Int) : Int := b - 128

/-- `s2u`, R8: a signed value back as a sample. -/
def s2u (v : Int) : Int := v + 128

/-- The result of `filter4`: the four samples it writes. -/
structure Filter4Out where
  p1 : Int
  p0 : Int
  q0 : Int
  q1 : Int
  deriving DecidableEq, Repr

/-- `filter4`, R140. The gate masks the clamped sum (90_conflicts.md C1). -/
def filter4 (m h : Bool) (p1 p0 q0 q1 : Int) : Filter4Out :=
  let ps1 := u2s p1
  let ps0 := u2s p0
  let qs0 := u2s q0
  let qs1 := u2s q1
  let f := if h then clamp8 (ps1 - qs1) else 0
  let f := if m then clamp8 (f + 3 * (qs0 - ps0)) else 0
  let f1 := asr (clamp8 (f + 4)) 3
  let f2 := asr (clamp8 (f + 3)) 3
  let g := if h then 0 else asr (f1 + 1) 1
  { p1 := s2u (clamp8 (ps1 + g))
    p0 := s2u (clamp8 (ps0 + f2))
    q0 := s2u (clamp8 (qs0 - f1))
    q1 := s2u (clamp8 (qs1 - g)) }

/-- `filter4` on the line: outputs at k = -2..1. -/
def filter4Line (m h : Bool) (s : Line) : Line := fun k =>
  let r := filter4 m h (s (-2)) (s (-1)) (s 0) (s 1)
  if k = -2 then r.p1 else if k = -1 then r.p0 else if k = 0 then r.q0 else r.q1

/-- The sum of `x[clamp(i + d, -(W+1), W)]` over the box d = -W..W of R142, as `n` terms from d = `n` - 1 - `W` down. -/
def boxSum (w : Nat) (x : Line) (i : Int) : Nat → Int
  | 0 => 0
  | n + 1 => boxSum w x i n + x (min (w : Int) (max (-((w : Int) + 1)) (i + ((n : Int) - (w : Int)))))

/-- `filterN`, R142: half-width `w` and shift `sh`. The end samples stand for the positions past the window (90_conflicts.md C9). -/
def filterN (w sh : Nat) (x : Line) : Line := fun i => asr (boxSum w x i (2 * w + 1) + x i + 2 ^ (sh - 1)) sh

/-- `filter8 = filterN(W = 3, S = 3)`, R142. -/
def filter8 (x : Line) : Line := filterN 3 3 x

/-- `filter16 = filterN(W = 7, S = 4)`, R142. -/
def filter16 (x : Line) : Line := filterN 7 4 x

/-- The writes of `ApplyLine`, R146: the outputs `out k` stored at `o + k·st`. The samples were all read before, from the
memory `out` was made from. A kernel's output is in 0..255 (R141, R145), so storing it as a byte loses nothing (log 16). -/
def storeLine (o st : Int) (ks : List Int) (out : Line) (m : Memory) : Memory :=
  ks.foldl (fun m k => m.write (o + k * st).toNat (BitVec.ofInt 8 (out k))) m

/-- What a raw kernel command checks, R148 to R150: `E_PITCH`, then `E_RANGE` over the window of line 0. -/
def rawChecks (s : State) (ra : Reg) (dir : Dir) (window : List Int) : List Check :=
  [pitchCheck s, rangeCheck s (s.reg ra) (footprint dir s.pitch (s.reg ra).toNat lineZero window)]

/-- PIXMEM after `ApplyLine` (R146) with a kernel on line 0 of the edge at `x[ra]`, writing the samples `ks`. -/
def rawApply (s : State) (ra : Reg) (dir : Dir) (ks : List Int) (kernel : Line → Line) : Memory :=
  storeLine (s.reg ra).toNat (sampleStep dir s.pitch) ks
    (kernel (readLine s.pix (s.reg ra).toNat (sampleStep dir s.pitch))) s.pix

/-- `K4`, R148: `filter4` on one line with the mask and hev bits of the word. -/
def execK4 (ra : Reg) (dir : Dir) (m h : Bool) (s : State) : Result :=
  settle (.k4 ra dir m h) (rawChecks s ra dir window4) s
    { s with pix := rawApply s ra dir window4 (filter4Line m h) }.retire

/-- `K8`, R149: `filter8` on one line. -/
def execK8 (ra : Reg) (dir : Dir) (s : State) : Result :=
  settle (.k8 ra dir) (rawChecks s ra dir window8) s { s with pix := rawApply s ra dir writes8 filter8 }.retire

/-- `K16`, R150: `filter16` on one line. -/
def execK16 (ra : Reg) (dir : Dir) (s : State) : Result :=
  settle (.k16 ra dir) (rawChecks s ra dir window16) s { s with pix := rawApply s ra dir writes16 filter16 }.retire

end Sys2Proof.Machine
end

