-- ==== Sys2Proof/Machine/Edges.lean ====
section
/-! DEFINITION. `EdgeOp` and the edge commands `LPF4`, `LPF8`, `LPF16`, 42_kernels.md R147, R151 to R153. -/

namespace Sys2Proof.Machine

/-- The window an edge command reads for a cap, R151: narrow, or wide for cap 16. -/
def capWindow : Kernel → List Int
  | .f4 => window8
  | .f8 => window8
  | .f16 => window16

/-- The samples a kernel writes, R146. -/
def kernelWrites : Kernel → List Int
  | .f4 => window4
  | .f8 => writes8
  | .f16 => writes16

/-- The kernel class of a line for the thresholds of a LUT entry, R125; the wide flatness counts only for cap 16. -/
def lineClass (e : LutEntry) (cap : Kernel) (s : Line) : Option Kernel :=
  kernelClass (lineMask e s) (flat s) (decide (cap = .f16) && flat2 s) cap

/-- The outputs of a kernel in `EdgeOp`, R151: `filter4` runs with mask 1 and the line's hev. -/
def kernelOut (e : LutEntry) (s : Line) : Kernel → Line
  | .f4 => filter4Line true (lineHev e s) s
  | .f8 => filter8 s
  | .f16 => filter16 s

/-- The body of `EdgeOp` for one line, R151: read the window, classify, and write the chosen kernel's outputs. -/
def filterLine (e : LutEntry) (cap : Kernel) (o st : Int) (m : Memory) : Memory :=
  match lineClass e cap (readLine m o st) with
  | none => m
  | some k => storeLine o st (kernelWrites k) (kernelOut e (readLine m o st) k) m

/-- `EdgeOp(a, dir, lvl, cap)` of R151 with the entry `Thr(lvl)`: lines 0..7 in order, each reading what the earlier wrote
(20_memory.md R71). -/
def edgeOp (e : LutEntry) (dir : Dir) (pitch : BitVec 16) (a : Int) (cap : Kernel) (m : Memory) : Memory :=
  segmentLines.foldl (fun m j => filterLine e cap (lineOrigin dir pitch a j) (sampleStep dir pitch) m) m

/-- What an edge command checks, in the order of R151: `E_PITCH`, `E_LUT`, `E_RANGE` over the 8 lines. -/
def edgeChecks (s : State) (ra : Reg) (dir : Dir) (lvl : Level) (cap : Kernel) : List Check :=
  [pitchCheck s, lutCheck s lvl,
    rangeCheck s (s.reg ra) (footprint dir s.pitch (s.reg ra).toNat segmentLines (capWindow cap))]

/-- PIXMEM after the edge operation at `x[ra]`. -/
def edgeApply (s : State) (ra : Reg) (dir : Dir) (lvl : Level) (cap : Kernel) : Memory :=
  edgeOp (s.lutAt lvl) dir s.pitch (s.reg ra).toNat cap s.pix

/-- `LPF4`, R151. -/
def execLpf4 (ra : Reg) (dir : Dir) (lvl : Level) (s : State) : Result :=
  settle (.lpf4 ra dir lvl) (edgeChecks s ra dir lvl .f4) s { s with pix := edgeApply s ra dir lvl .f4 }.retire

/-- `LPF8`, R152. -/
def execLpf8 (ra : Reg) (dir : Dir) (lvl : Level) (s : State) : Result :=
  settle (.lpf8 ra dir lvl) (edgeChecks s ra dir lvl .f8) s { s with pix := edgeApply s ra dir lvl .f8 }.retire

/-- `LPF16`, R153. -/
def execLpf16 (ra : Reg) (dir : Dir) (lvl : Level) (s : State) : Result :=
  settle (.lpf16 ra dir lvl) (edgeChecks s ra dir lvl .f16) s { s with pix := edgeApply s ra dir lvl .f16 }.retire

end Sys2Proof.Machine
end

