-- ==== Sys2Proof/Machine/Dispatcher.lean ====
section
/-! DEFINITION. The per-edge dispatcher, 43_dispatcher.md R180 to R187. It filters every edge whose mask bit is set (R188),
8 lines at a time (R189). -/

namespace Sys2Proof.Machine

/-- `COLS`, the units of one row of the superblock plane, R181. -/
def planeCols : Plane → Nat
  | .luma => 8
  | .chroma => 4

/-- `M16`, `M8`, `M4`, `M4I` for a direction, R182: the left masks for V, the above masks for H. -/
def dirMask16 (m : Masks) : Dir → BitVec 64
  | .v => m.ml16
  | .h => m.ma16
/-- `M8` of R182. -/
def dirMask8 (m : Masks) : Dir → BitVec 64
  | .v => m.ml8
  | .h => m.ma8
/-- `M4` of R182. -/
def dirMask4 (m : Masks) : Dir → BitVec 64
  | .v => m.ml4
  | .h => m.ma4
/-- `M4I` of R182. -/
def dirMask4i (m : Masks) : Dir → BitVec 64
  | .v => m.ml4i
  | .h => m.ma4i

/-- The class of a unit's boundary edge, R182: the widest whose mask bit is set. -/
def boundaryClass (m : Masks) (dir : Dir) (b : Nat) : Option Kernel :=
  if (dirMask16 m dir).getLsbD b then some .f16
  else if (dirMask8 m dir).getLsbD b then some .f8
  else if (dirMask4 m dir).getLsbD b then some .f4
  else none

/-- The offset of the internal edge inside its unit, R183. -/
def internalOffset : Nat := 4

/-- The origin of an edge of unit (row, c), R184. -/
def edgeOrigin (s : State) (dir : Dir) (row c off : Nat) : Int :=
  match dir with
  | .v => ((s.sbbase.toNat + 8 * row * s.pitch.toNat + 8 * c + off : Nat) : Int)
  | .h => ((s.sbbase.toNat + (8 * row + off) * s.pitch.toNat + 8 * c : Nat) : Int)

/-- One edge of a dispatch: its origin, its class and its unit's level. -/
structure Edge where
  origin : Int
  cls : Kernel
  lvl : Level
  deriving DecidableEq, Repr

/-- The edges of one unit, R185: the boundary edge, if it has a class, then the internal edge of class 4 (R183). -/
def unitEdges (s : State) (dir : Dir) (plane : Plane) (row c : Nat) : List Edge :=
  let b := row * planeCols plane + c
  (match boundaryClass s.masks dir b with
    | some k => [⟨edgeOrigin s dir row c 0, k, s.unitLevel b⟩]
    | none => [])
  ++ (if (dirMask4i s.masks dir).getLsbD b then [⟨edgeOrigin s dir row c internalOffset, .f4, s.unitLevel b⟩] else [])

/-- `EdgeList(dir, plane, row)`, R185: columns left to right. -/
def edgeList (s : State) (dir : Dir) (plane : Plane) (row : Nat) : List Edge :=
  (List.range (planeCols plane)).flatMap (unitEdges s dir plane row)

/-- The footprint of an edge, R186. -/
def Edge.footprint (e : Edge) (dir : Dir) (pitch : BitVec 16) : List Int :=
  Machine.footprint dir pitch e.origin segmentLines (capWindow e.cls)

/-- The checks of `DISPATCH`, R186 and R187: the row (already refused by decoding, 30_encoding.md R91; log 15), `PITCH`, the
entries of the edges in list order, then the footprints of all edges with `SBBASE` as the base operand. -/
def dispatchChecks (s : State) (dir : Dir) (plane : Plane) (row : BitVec 3) : List Check :=
  let l := edgeList s dir plane row.toNat
  (decide (plane = .chroma) && decide (4 ≤ row.toNat), .illegal, 0x18#32) :: pitchCheck s
    :: l.map (fun e => lutCheck s e.lvl)
    ++ l.map (fun e => rangeCheck s s.sbbase (e.footprint dir s.pitch))

/-- PIXMEM after the edges of a list, each reading what the earlier edges wrote (R185). -/
def applyEdges (s : State) (dir : Dir) (l : List Edge) (m : Memory) : Memory :=
  l.foldl (fun m e => edgeOp (s.lutAt e.lvl) dir s.pitch e.origin e.cls m) m

/-- `DISPATCH`, R187. -/
def execDispatch (dir : Dir) (plane : Plane) (row : BitVec 3) (s : State) : Result :=
  settle (.dispatch dir plane row) (dispatchChecks s dir plane row) s
    { s with pix := applyEdges s dir (edgeList s dir plane row.toNat) s.pix }.retire

end Sys2Proof.Machine
end

