-- ==== Sys2Proof/Machine/Tables.lean ====
section
/-! DEFINITION. The table commands, 40_threshold_lut.md R100 to R107. -/

namespace Sys2Proof.Machine

/-- `LUTW`, R101: the entry's three fields from the packed word, `VALID <- 1`. -/
def execLutw (idx : Level) (rs : Reg) (s : State) : Result :=
  settle (.lutw idx rs) [] s (s.setLut idx (LutEntry.unpack (s.reg rs))).retire

/-- `LUTR`, R102: `E_LUT` while `VALID` is 0, else the packed entry. -/
def execLutr (rd : Reg) (idx : Level) (s : State) : Result :=
  settle (.lutr rd idx) [lutCheck s idx] s (s.setReg rd (s.lutAt idx).pack).retire

/-- `LVLW`, R103: bits 5:0 of `x[rs]`. -/
def execLvlw (idx : Level) (rs : Reg) (s : State) : Result :=
  settle (.lvlw idx rs) [] s (s.setLvltab idx ((s.reg rs).extractLsb' 0 6)).retire

/-- `LVLR`, R104: the entry zero-extended. -/
def execLvlr (rd : Reg) (idx : Level) (s : State) : Result :=
  settle (.lvlr rd idx) [] s (s.setReg rd ((s.lvltabAt idx).setWidth 32)).retire

/-- `LVUW`, R106: four unit levels from the four bytes of `x[rs]`. -/
def execLvuw (q : BitVec 4) (rs : Reg) (s : State) : Result :=
  settle (.lvuw q rs) [] s (s.setUnits q (s.reg rs)).retire

/-- `LVUR`, R107: four unit levels packed. -/
def execLvur (rd : Reg) (q : BitVec 4) (s : State) : Result :=
  settle (.lvur rd q) [] s (s.setReg rd (s.unitsWord q)).retire

end Sys2Proof.Machine
end

