-- ==== Sys2Proof/Machine/Dispatch.lean ====
section
/-! DEFINITION. One arm per command. -/

namespace Sys2Proof.Machine

def exec (i : Instr) (s : State) : Host.Outcome State Fault Refusal :=
  match i with
  -- 44_control.md
  | .nop => Sys2Proof.Machine.execNop s
  | .done => Sys2Proof.Machine.execDone s
  | .pref hint => Sys2Proof.Machine.execPref hint s
  | .li rd imm => Sys2Proof.Machine.execLi rd imm s
  | .lih rd imm => Sys2Proof.Machine.execLih rd imm s
  | .csrr rd csr => Sys2Proof.Machine.execCsrr rd csr s
  | .csrw csr rs => Sys2Proof.Machine.execCsrw csr rs s
  -- 40_threshold_lut.md
  | .lutw idx rs => Sys2Proof.Machine.execLutw idx rs s
  | .lutr rd idx => Sys2Proof.Machine.execLutr rd idx s
  | .lvlw idx rs => Sys2Proof.Machine.execLvlw idx rs s
  | .lvlr rd idx => Sys2Proof.Machine.execLvlr rd idx s
  | .lvuw q rs => Sys2Proof.Machine.execLvuw q rs s
  | .lvur rd q => Sys2Proof.Machine.execLvur rd q s
  -- 41_classifier.md
  | .cls rd ra dir wide lvl => Sys2Proof.Machine.execCls rd ra dir wide lvl s
  -- 42_kernels.md
  | .k4 ra dir m h => Sys2Proof.Machine.execK4 ra dir m h s
  | .k8 ra dir => Sys2Proof.Machine.execK8 ra dir s
  | .k16 ra dir => Sys2Proof.Machine.execK16 ra dir s
  | .lpf4 ra dir lvl => Sys2Proof.Machine.execLpf4 ra dir lvl s
  | .lpf8 ra dir lvl => Sys2Proof.Machine.execLpf8 ra dir lvl s
  | .lpf16 ra dir lvl => Sys2Proof.Machine.execLpf16 ra dir lvl s
  -- 43_dispatcher.md
  | .dispatch dir plane row => Sys2Proof.Machine.execDispatch dir plane row s

end Sys2Proof.Machine
end

