-- ==== Sys2Proof/Machine/HostPort.lean ====
section
/-! DEFINITION. The host port and reset: 10_state.md R38, R39; 20_memory.md R63, R76; 60_exceptions.md R229, R231, R241;
70_reset_and_hazards.md R250 to R259. The host port never raises an error (R241). -/

namespace Sys2Proof.Machine

/-- A host CSR read: 0 from an address that names no register (R38). -/
def State.hostCsrRead (s : State) (a : CsrAddr) : Word :=
  match csrAt a with
  | some c => s.csrValue s.hostStatus c
  | none => 0#32

/-- A host CSR write: ignored at an address that names no register (R38) and at a read-only CSR (R39). -/
def State.hostCsrWrite (s : State) (a : CsrAddr) (v : Word) : State :=
  match csrAt a with
  | some c => s.writeCsr c v
  | none => s

/-- A host read of a byte of PIXMEM: 0 from an address outside it (R76; log 17). -/
def State.hostPixRead (s : State) (a : Nat) : Byte := if a < s.cfg.pixBytes then s.pix.read a else 0#8

/-- A host write of a byte of PIXMEM: ignored at an address outside it (R76). -/
def State.hostPixWrite (s : State) (a : Nat) (v : Byte) : State :=
  if a < s.cfg.pixBytes then { s with pix := s.pix.write a v } else s

/-- A push is enabled only when `CMDQ` is not full, R259. -/
def State.canPush (s : State) : Bool := decide (s.cmdq.length < s.cfg.cmdqDepth)

/-- A push that is enabled: the word goes behind the queued ones (R22). -/
def State.push (s : State) (w : Word) : State := { s with cmdq := s.cmdq ++ [w] }

/-- Reset, R250, R251: every piece of the block's state in one step; PIXMEM then holds `content`. The other agents' later
moves are theirs and stay. -/
def State.resetBy (s : State) (content : List Host.Cell) : State :=
  { State.resetWith s.cfg (Memory.ofCells s.cfg.pixBytes content) with pending := s.pending }

/-- A PIXMEM access of the host, refused while the block is busy (R257). -/
def pixAccess (s : State) (after : State) : Result := if s.busy then .refused .hostPixWhileBusy else .next after

end Sys2Proof.Machine
end

