-- ==== Sys2Proof/Machine/Sequencer.lean ====
section
/-! DEFINITION. Whose turn it is, and what the block does with its turn: 10_state.md R22, R23; 44_control.md R207;
20_memory.md R70. -/

namespace Sys2Proof.Machine

/-- Executing a word that has left the queue, R207: decode it; perform its command, or enter `E_ILLEGAL` with `ERRINFO` = `opc`
(30_encoding.md R91, 60_exceptions.md R222). -/
def runWord (w : Word) (s : State) : Result :=
  match decode w with
  | .command i => exec i s
  | .reject _ => .next (s.enterError w .illegal ((opcOf w).setWidth 32))

/-- The block's turn: halted (R23) or idle it does nothing and keeps all state (60_exceptions.md R240); else it takes the head
of `CMDQ` and executes it (R22). -/
def blockTurn (s : State) : Result :=
  if s.status.err then .next s
  else
    match s.cmdq with
    | [] => .next s
    | w :: rest => runWord w { s with cmdq := rest }

/-- A push when it is the host's turn: done if there is room; else it waits, still pending, and the block goes on
(70_reset_and_hazards.md R259; log 6). -/
def pushTurn (w : Word) (rest : List Move) (s : State) : Result :=
  if s.canPush then .next { s.push w with pending := rest } else blockTurn s

/-- The turn of a pending move; `rest` are the moves after it. -/
def moveTurn (m : Move) (rest : List Move) (s : State) : Result :=
  match m with
  | .block => blockTurn { s with pending := rest }
  | .push w => pushTurn w rest s
  | .pushBytes b0 b1 b2 b3 => pushTurn (wordOfBusBytes b0 b1 b2 b3) rest s
  | .csrRead a => .next { s with pending := rest, reply := some (s.hostCsrRead a) }
  | .csrWrite a v => .next { s.hostCsrWrite a v with pending := rest }
  | .pixRead a => pixAccess s { s with pending := rest, reply := some ((s.hostPixRead a).setWidth 32) }
  | .pixWrite a v => pixAccess s { s.hostPixWrite a v with pending := rest }
  | .reset content => .next { s.resetBy content with pending := rest }

/-- One turn of the total order of R70: the next pending move, or the block's turn when no agent has one (log 4, log 5). -/
def takeTurn (s : State) : Result :=
  match s.pending with
  | [] => blockTurn s
  | m :: rest => moveTurn m rest s

/-- The state in which the block's next turn executes a word: the word at the head of `CMDQ`, the block not halted, the turn
the block's (log 11). -/
def State.ready (s : State) (w : Word) : State :=
  { s.clearError with cmdq := w :: s.cmdq.tail, pending := [] }

end Sys2Proof.Machine
end

