-- ==== Sys2Proof/Machine/Step.lean ====
section
/-! DEFINITION. One step of the machine: one turn of the total order, 20_memory.md R70. -/

namespace Sys2Proof.Machine

/-- One step. -/
def step (s : State) : Host.Outcome State Fault Refusal := takeTurn s

/-- `s` with a word of the opcode table placed where the next step takes its command: the head of `CMDQ` (R22). The block is
made ready to run it: not halted, and no other agent's move before it (log 11). -/
def State.withFetchWord (s : State) (nbits w : Nat) : State := s.ready (tableWord nbits w)

end Sys2Proof.Machine
end

