-- ==== Sys2Proof/Safety.lean ====
section
/-! DEFINITION. What a legal state and a safe run are, in the terms the statements use. -/

namespace Sys2Proof.Machine

/-- The invariant of the block. Each part is a rule: the parameters are in their ranges (00_scope.md R5), the queue holds at
most `CMDQ_DEPTH` words (10_state.md R20), PIXMEM is in canonical form and has no byte outside 0..`PIX_BYTES`-1 (R44), and
`ERRCODE` is 0 exactly while `ERR` is 0 and never above 5 (60_exceptions.md R221). -/
structure State.Inv (s : State) : Prop where
  legal : s.cfg.Legal
  queue : s.cmdq.length ≤ s.cfg.cmdqDepth
  canonical : s.pix.wf
  inside : ∀ c ∈ s.pix, c.1 < s.cfg.pixBytes
  errcode : s.status.err = false ↔ s.status.errcode = 0#8
  codes : s.status.errcode.toNat ≤ 5

/-- The block waits: idle or halted, the two states of 70_reset_and_hazards.md R264. -/
def State.waiting (s : State) : Bool := s.cmdq.isEmpty || s.status.err

/-- A safe run of k steps: none of them stops. The only stop is the refusal of R257 (log 7). -/
def SafeRun (k : Nat) (s : State) : Prop := ∃ t : State, Host.Core.run core k s = .next t

end Sys2Proof.Machine
end

