-- ==== Sys2Proof/Certificates/Slice0/Obligations.lean ====
section
/-! DEFINITION. The statements for the provers. The first part writes out the words the statements use, from the rules and
not from the model's own operations wherever a rule gives a table or a formula. -/

namespace Sys2Proof.Claims

open Sys2Proof.Machine

/-! ### Words of the statements -/

/-- The opcode map of 30_encoding.md R84: each opcode with its "reserved bits" column. -/
def opcodeMap : List (Nat × Word) :=
  [(0x00, 0x03FFFFFF#32), (0x01, 0x03FFFFFF#32), (0x02, 0x00000000#32), (0x03, 0x007F0000#32), (0x04, 0x007F0000#32),
    (0x05, 0x007FFF00#32), (0x06, 0x038FFF00#32)]
  ++ [(0x08, 0x038FFFC0#32), (0x09, 0x007FFFC0#32), (0x0A, 0x038FFFC0#32), (0x0B, 0x007FFFC0#32), (0x0C, 0x038FFFF0#32),
    (0x0D, 0x007FFFF0#32)]
  ++ [(0x10, 0x0003FFC0#32), (0x11, 0x0384FFFF#32), (0x12, 0x0387FFFF#32), (0x13, 0x0387FFFF#32), (0x14, 0x0387FFC0#32),
    (0x15, 0x0387FFC0#32), (0x16, 0x0387FFC0#32)]
  ++ [(0x18, 0x03F3FFF8#32)]

/-- The `opc` field, bits 31:26 (R81). -/
def opcode (w : Word) : Nat := w.toNat / 2 ^ 26

/-- The words 60_exceptions.md R222 calls illegal: no opcode of the map; a reserved bit set; chroma `DISPATCH` of rows 4..7. -/
def illegalWord (w : Word) : Prop :=
  (∀ r ∈ opcodeMap, r.1 ≠ opcode w) ∨ (∃ r ∈ opcodeMap, r.1 = opcode w ∧ w &&& r.2 ≠ 0#32) ∨
    (opcode w = 0x18 ∧ w.getLsbD 18 = true ∧ 4 ≤ w.toNat % 8)

/-- The next turn is the block's, and `moves` are the moves that stay pending after it: no agent has a move (log 5), or the
next move is `.block` (log 4), which puts the block's turn between two host moves (R258). -/
def blockIsNext (s : State) (moves : List Move) : Prop := (s.pending = [] ∧ moves = []) ∨ s.pending = .block :: moves

/-- The block executes `w` when its turn comes: it is not halted, and `w` is the head of `CMDQ`. -/
def headIs (s : State) (w : Word) (rest : List Word) : Prop := s.status.err = false ∧ s.cmdq = w :: rest

/-- The four writes of error entry (R224), written out. -/
def raised (s : State) (w : Word) (code : BitVec 8) (info : Word) : State :=
  { s with status := { done := s.status.done, err := true, errcode := code }, errcmd := w, errinfo := info }

/-- The commands that read PIXMEM (R225). -/
def isPixel : Instr → Bool
  | .cls _ _ _ _ _ | .k4 _ _ _ _ | .k8 _ _ | .k16 _ _ | .lpf4 _ _ _ | .lpf8 _ _ _ | .lpf16 _ _ _ | .dispatch _ _ _ => true
  | .nop | .done | .pref _ | .li _ _ | .lih _ _ | .csrr _ _ | .csrw _ _ | .lutw _ _ | .lutr _ _ | .lvlw _ _ | .lvlr _ _
  | .lvuw _ _ | .lvur _ _ => false

/-- The destination register of a command (10_state.md R21, "Writers"). -/
def destination : Instr → Option Reg
  | .li rd _ | .lih rd _ | .csrr rd _ | .lutr rd _ | .lvlr rd _ | .lvur rd _ | .cls rd _ _ _ _ => some rd
  | .nop | .done | .pref _ | .csrw _ _ | .lutw _ _ | .lvlw _ _ | .lvuw _ _ | .k4 _ _ _ _ | .k8 _ _ | .k16 _ _ | .lpf4 _ _ _
  | .lpf8 _ _ _ | .lpf16 _ _ _ | .dispatch _ _ _ => none

/-- The PIXMEM address of sample k of line j of the segment at `a` (00_scope.md R10, R11; 42_kernels.md R147). -/
def addr (s : State) (dir : Dir) (a : Int) (j k : Int) : Int :=
  match dir with
  | .v => a + j * s.pitch.toNat + k
  | .h => a + j + k * s.pitch.toNat

/-- Sample k of line j as it stands in PIXMEM. -/
def sample (s : State) (dir : Dir) (a : Int) (j : Int) : Line := fun k => ((s.pix.read (addr s dir a j k).toNat).toNat : Int)

/-- Samples lo..hi of lines 0..n-1 lie in PIXMEM (20_memory.md R65). -/
def fits (s : State) (dir : Dir) (a : Int) (n lo hi : Int) : Prop :=
  ∀ j k : Int, 0 ≤ j → j < n → lo ≤ k → k ≤ hi → 0 ≤ addr s dir a j k ∧ addr s dir a j k < s.cfg.pixBytes

/-- The last sample of the window a cap reads (R151, R186); the first is `-(capReach + 1)`. -/
def capReach : Kernel → Int
  | .f4 => 3
  | .f8 => 3
  | .f16 => 7

/-- The last sample a kernel writes (R146); the first is `-(writeReach + 1)`. -/
def writeReach : Kernel → Int
  | .f4 => 1
  | .f8 => 2
  | .f16 => 6

/-- The kernel 41_classifier.md R125 gives a line. -/
def chosen (e : LutEntry) (cap : Kernel) (x : Line) : Option Kernel :=
  if lineMask e x = false then none
  else if cap = .f16 ∧ flat2 x = true ∧ flat x = true then some .f16
  else if (cap = .f8 ∨ cap = .f16) ∧ flat x = true then some .f8
  else some .f4

/-- The outputs of a kernel on a line (R140, R142); `filter4` runs with mask 1. -/
def kernelValue (e : LutEntry) (x : Line) : Kernel → Line
  | .f4 => filter4Line true (lineHev e x) x
  | .f8 => filter8 x
  | .f16 => filter16 x

/-- The edge command of a cap. -/
def edgeCommand (cap : Kernel) (ra : Reg) (dir : Dir) (lvl : Level) : Instr :=
  match cap with
  | .f4 => .lpf4 ra dir lvl
  | .f8 => .lpf8 ra dir lvl
  | .f16 => .lpf16 ra dir lvl

/-- The edges of a list executed one by one as edge commands, each with its origin in A0; the PIXMEM they leave, if all
complete. -/
def runEdges (s : State) (dir : Dir) : List Edge → Memory → Option Memory
  | [], m => some m
  | e :: es, m =>
    match exec (edgeCommand e.cls 0#3 dir e.lvl) { s.setReg 0#3 (BitVec.ofInt 32 e.origin) with pix := m } with
    | .next t => if t.status.err then none else runEdges s dir es t.pix
    | .fault _ => none
    | .refused _ => none

/-- The edges of a dispatch pass its checks (R186). -/
def edgesReady (s : State) (dir : Dir) (l : List Edge) : Prop :=
  ∀ e ∈ l, (s.lutAt e.lvl).valid = true ∧ fits s dir e.origin 8 (-(capReach e.cls + 1)) (capReach e.cls)

/-- The values of 70_reset_and_hazards.md R251 that a program or a host can observe. -/
structure ResetValues (t : State) : Prop where
  regs : ∀ r, t.reg r = 0#32
  queue : t.cmdq = []
  ctrl : t.hostCsrRead 0x01#8 = 0#32
  status : t.hostCsrRead 0x02#8 = 0#32
  id : t.hostCsrRead 0x00#8 = 0x44424631#32
  pitch : t.hostCsrRead 0x03#8 = 0#32
  sbbase : t.hostCsrRead 0x04#8 = 0#32
  cmdcnt : t.hostCsrRead 0x05#8 = 0#32
  errcmd : t.hostCsrRead 0x06#8 = 0#32
  errinfo : t.hostCsrRead 0x07#8 = 0#32
  qstat : (t.hostCsrRead 0x08#8).toNat = t.cfg.cmdqDepth * 256
  pixsize : (t.hostCsrRead 0x09#8).toNat = t.cfg.pixBytes
  masks : ∀ m, t.masks.get m = 0#64
  lut : ∀ l, (t.lutAt l).valid = false
  lvltab : ∀ l, t.lvltabAt l = 0#6
  lvlu : ∀ n, n < 64 → t.unitLevel n = 0#6
  irq : t.irq = false

/-- Two LUTs that differ only in the threshold fields of entries with `VALID` = 0. -/
def lutAgree (l l' : Vector LutEntry 64) : Prop :=
  ∀ n, (h : n < 64) → l[n].valid = l'[n].valid ∧ (l[n].valid = true → l[n] = l'[n])

/-- The CSR map of 10_state.md R25 as the command stream reads it (44_control.md R205), as numbers. -/
def csrReads (s : State) : List (CsrAddr × Nat) :=
  [(0x00#8, 0x44424631), (0x01#8, s.ctrl.ieDone.toNat + 2 * s.ctrl.ieErr.toNat), (0x02#8, s.status.done.toNat + 4),
    (0x03#8, s.pitch.toNat), (0x04#8, s.sbbase.toNat), (0x05#8, s.cmdcnt.toNat), (0x06#8, s.errcmd.toNat),
    (0x07#8, s.errinfo.toNat), (0x08#8, s.cmdq.length + 256 * s.cfg.cmdqDepth), (0x09#8, s.cfg.pixBytes)]
  ++ [(0x10#8, s.masks.ml16.toNat % 2 ^ 32), (0x11#8, s.masks.ml16.toNat / 2 ^ 32), (0x12#8, s.masks.ml8.toNat % 2 ^ 32),
    (0x13#8, s.masks.ml8.toNat / 2 ^ 32), (0x14#8, s.masks.ml4.toNat % 2 ^ 32), (0x15#8, s.masks.ml4.toNat / 2 ^ 32),
    (0x16#8, s.masks.ml4i.toNat % 2 ^ 32), (0x17#8, s.masks.ml4i.toNat / 2 ^ 32)]
  ++ [(0x18#8, s.masks.ma16.toNat % 2 ^ 32), (0x19#8, s.masks.ma16.toNat / 2 ^ 32), (0x1A#8, s.masks.ma8.toNat % 2 ^ 32),
    (0x1B#8, s.masks.ma8.toNat / 2 ^ 32), (0x1C#8, s.masks.ma4.toNat % 2 ^ 32), (0x1D#8, s.masks.ma4.toNat / 2 ^ 32),
    (0x1E#8, s.masks.ma4i.toNat % 2 ^ 32), (0x1F#8, s.masks.ma4i.toNat / 2 ^ 32)]

/-- `STATUS` as the host reads it (10_state.md R28), `BUSY` computed (R46), as a number. -/
def hostStatusNumber (s : State) : Nat :=
  s.status.done.toNat + 2 * s.status.err.toNat + 4 * (if s.cmdq ≠ [] ∧ s.status.err = false then 1 else 0) +
    256 * s.status.errcode.toNat

/-- The address of the `_LO` CSR of a mask (10_state.md R36); its `_HI` CSR is the next address. -/
def maskAddr : MaskName → Nat
  | .ml16 => 0x10
  | .ml8 => 0x12
  | .ml4 => 0x14
  | .ml4i => 0x16
  | .ma16 => 0x18
  | .ma8 => 0x1A
  | .ma4 => 0x1C
  | .ma4i => 0x1E

/-- The addresses of the read-only CSRs (10_state.md R39). -/
def readOnlyAddrs : List CsrAddr := [0x00#8, 0x06#8, 0x07#8, 0x08#8, 0x09#8]

/-- The addresses that name no CSR: 0x0A..0x0F and 0x20..0xFF (44_control.md R205). -/
def noCsr (a : CsrAddr) : Prop := (0x0A ≤ a.toNat ∧ a.toNat ≤ 0x0F) ∨ 0x20 ≤ a.toNat

/-- `COLS`, the unit columns of a superblock plane (43_dispatcher.md R181). -/
def cols : Plane → Nat
  | .luma => 8
  | .chroma => 4

/-- A mask bit of a unit for a direction (43_dispatcher.md R182): `M16`, `M8`, `M4`, `M4I`. -/
def unitBit (s : State) (dir : Dir) (left above : MaskName) (b : Nat) : Bool :=
  match dir with
  | .v => (s.masks.get left).getLsbD b
  | .h => (s.masks.get above).getLsbD b

/-- The origin of an edge (43_dispatcher.md R184). -/
def origin (s : State) (dir : Dir) (row c off : Nat) : Int :=
  match dir with
  | .v => (s.sbbase.toNat : Int) + 8 * row * s.pitch.toNat + 8 * c + off
  | .h => (s.sbbase.toNat : Int) + (8 * row + off) * s.pitch.toNat + 8 * c

/-- The edges of unit (row, c) in the order of 43_dispatcher.md R185: the boundary edge with the widest class whose mask bit is
set (R182), then the internal edge of class 4 (R183), both with the unit's level. -/
def unitList (s : State) (dir : Dir) (plane : Plane) (row c : Nat) : List Edge :=
  let b := row * cols plane + c
  let boundary : List Edge :=
    if unitBit s dir .ml16 .ma16 b then [⟨origin s dir row c 0, .f16, s.unitLevel b⟩]
    else if unitBit s dir .ml8 .ma8 b then [⟨origin s dir row c 0, .f8, s.unitLevel b⟩]
    else if unitBit s dir .ml4 .ma4 b then [⟨origin s dir row c 0, .f4, s.unitLevel b⟩]
    else []
  let inner : List Edge := if unitBit s dir .ml4i .ma4i b then [⟨origin s dir row c 4, .f4, s.unitLevel b⟩] else []
  boundary ++ inner

end Sys2Proof.Claims

section
open Sys2Proof Sys2Proof.Machine Sys2Proof.Claims

/-! ### Encoding -/

/-- The example words of 30_encoding.md R89, one for each of the 21 commands, decode to the commands they stand for. -/
def Obligations.ExampleWordsDecode : Prop :=
  decode 0x00000000#32 = .command .nop ∧ decode 0x04000000#32 = .command .done ∧
  decode 0x08300000#32 = .command (.pref 0x300000#26) ∧ decode 0x0D000040#32 = .command (.li 2#3 64#16) ∧
  decode 0x10800002#32 = .command (.lih 1#3 2#16) ∧ decode 0x16800005#32 = .command (.csrr 5#3 0x05#8) ∧
  decode 0x18200003#32 = .command (.csrw 0x03#8 2#3) ∧ decode 0x20100020#32 = .command (.lutw 32#6 1#3) ∧
  decode 0x25000020#32 = .command (.lutr 2#3 32#6) ∧ decode 0x2810002D#32 = .command (.lvlw 45#6 1#3) ∧
  decode 0x2D00002D#32 = .command (.lvlr 2#3 45#6) ∧ decode 0x30400000#32 = .command (.lvuw 0#4 4#3) ∧
  decode 0x35000000#32 = .command (.lvur 2#3 0#4) ∧ decode 0x42300020#32 = .command (.cls 4#3 3#3 .v false 32#6) ∧
  decode 0x44120000#32 = .command (.k4 1#3 .v true false) ∧ decode 0x48380000#32 = .command (.k8 3#3 .h) ∧
  decode 0x4C300000#32 = .command (.k16 3#3 .v) ∧ decode 0x50300020#32 = .command (.lpf4 3#3 .v 32#6) ∧
  decode 0x54380014#32 = .command (.lpf8 3#3 .h 20#6) ∧ decode 0x58300005#32 = .command (.lpf16 3#3 .v 5#6) ∧
  decode 0x600C0001#32 = .command (.dispatch .h .chroma 1#3)

/-- Every command the encoding admits is what its own word decodes to, whatever its operands. -/
def Obligations.DecodeOfEncode : Prop := ∀ i : Instr, i.wf = true → decode (encode i) = .command i

/-- Every legal word has exactly one meaning: it is the word of the command it decodes to, and that command is well formed. -/
def Obligations.EncodeOfDecode : Prop := ∀ (w : Word) (i : Instr), decode w = .command i → encode i = w ∧ i.wf = true

/-- Decoding refuses exactly the words that R85 and R86 call illegal, with R84's masks written out. -/
def Obligations.DecodeRefusesExactlyTheIllegalWords : Prop :=
  ∀ w : Word, (∃ why, decode w = .reject why) ↔ illegalWord w

/-- 60_exceptions.md R222: an illegal word at the head of `CMDQ` leaves the queue and raises `E_ILLEGAL` (code 1) with
`ERRINFO` = `opc`; nothing else changes. That the turn is the block's when no move is pending is log 5; that a `.block` move
gives it the turn, and is then gone, is log 4. -/
def Obligations.IllegalWordRaises : Prop :=
  ∀ (s : State) (moves : List Move) (w : Word) (rest : List Word), blockIsNext s moves → headIs s w rest → illegalWord w →
    step s = .next (raised { s with cmdq := rest, pending := moves } w 1#8 (BitVec.ofNat 32 (opcode w)))

/-! ### The machine -/

/-- A step of the block runs the decoded head of `CMDQ`, which has left the queue: when no move is pending (log 5), and at a
`.block` move, by which a command runs between two host moves (R258; log 4) and which is then gone. -/
def Obligations.StepRunsDecodedCommand : Prop :=
  ∀ (s : State) (moves : List Move) (w : Word) (rest : List Word) (i : Instr), blockIsNext s moves → headIs s w rest →
    decode w = .command i → step s = exec i { s with cmdq := rest, pending := moves }

/-- 60_exceptions.md R240: with an empty queue or halted, the block's turn changes nothing, but that a `.block` move that gave
the turn (log 4) is gone; a pushed word, or the clearing of `ERR`, makes the block ready to run. -/
def Obligations.WaitingBlockKeepsState : Prop :=
  (∀ (s : State) (moves : List Move), blockIsNext s moves → s.cmdq = [] ∨ s.status.err = true →
    step s = .next { s with pending := moves }) ∧
  (∀ (s : State) (w : Word) (moves : List Move), s.cmdq = [] → s.status.err = false → 1 ≤ s.cfg.cmdqDepth →
    s.pending = .push w :: moves → ∃ t, step s = .next t ∧ t.pending = moves ∧ headIs t w [] ∧ t.busy = true) ∧
  (∀ (s : State) (w : Word) (rest : List Word) (moves : List Move), s.cmdq = w :: rest → s.status.err = true →
    s.pending = .csrWrite 0x02#8 0x00000002#32 :: moves →
    ∃ t, step s = .next t ∧ t.pending = moves ∧ headIs t w rest ∧ t.busy = true)

/-- Every step keeps the invariant of the block (`State.Inv`, Safety.lean), whoever's turn it is. -/
def Obligations.StepKeepsInvariant : Prop := ∀ s t : State, s.Inv → step s = .next t → t.Inv

/-- The invariant holds after reset, for every legal choice of the parameters and every content of PIXMEM. -/
def Obligations.ResetMeetsInvariant : Prop :=
  State.reset.Inv ∧
  ∀ (c : Config) (content : List Host.Cell), c.Legal → (State.resetWith c (Memory.ofCells c.pixBytes content)).Inv

/-- Reset is one step (70_reset_and_hazards.md R253) and leaves the values of R251, with `CMDQ` emptied; the block then is
idle (R252): `BUSY` is 0 and its turn does nothing. R251 leaves PIXMEM unspecified: in the model the move's `content` says
which bytes it then holds, and every canonical PIXMEM is some content (log 12). That the parameters are kept is log 3; that the
moves after the reset stay pending is log 12. -/
def Obligations.ResetMoveLeavesResetValues : Prop :=
  (∀ (s : State) (content : List Host.Cell) (rest : List Move), s.cfg.Legal → s.pending = .reset content :: rest →
    ∃ t, step s = .next t ∧ ResetValues t ∧ t.pix = Memory.ofCells s.cfg.pixBytes content ∧ t.cfg = s.cfg ∧
      t.pending = rest ∧ t.busy = false ∧
      (∀ moves, blockIsNext t moves → step t = .next { t with pending := moves })) ∧
  (∀ (n : Nat) (m : Memory), m.wf → (∀ c ∈ m, c.1 < n) → ∃ content, Memory.ofCells n content = m)

/-- `State.reset` has the reset values, with the default parameters of 00_scope.md R5. -/
def Obligations.ResetStateHasResetValues : Prop :=
  ResetValues State.reset ∧ State.reset.cfg.pixBytes = 65536 ∧ State.reset.cfg.cmdqDepth = 16 ∧
    ∀ pix : Memory, ∀ c : Config, c.Legal → ResetValues (State.resetWith c pix)

/-- No step faults, and the only refusal is a host PIXMEM access while host `BUSY` is 1 (R257). -/
def Obligations.OnlyBusyPixelAccessIsRefused : Prop :=
  ∀ s : State, (∃ t, step s = .next t) ∨
    (step s = .refused .hostPixWhileBusy ∧ s.cmdq ≠ [] ∧ s.status.err = false ∧
      ∃ m rest, s.pending = m :: rest ∧ ((∃ a, m = .pixRead a) ∨ ∃ a v, m = .pixWrite a v))

/-- Errors are precise (R224): if the step that executes `w` leaves the block halted, the state is the one before with `w`
taken from the queue, and only `ERR`, `ERRCODE`, `ERRCMD` and `ERRINFO` written; the code is one of 1..5; `ERRCMD` is `w`;
and the block then executes nothing. -/
def Obligations.ErrorsArePrecise : Prop :=
  ∀ (s t : State) (w : Word) (rest : List Word), s.pending = [] → headIs s w rest → step s = .next t → t.status.err = true →
    t = raised { s with cmdq := rest } w t.status.errcode t.errinfo ∧
    1 ≤ t.status.errcode.toNat ∧ t.status.errcode.toNat ≤ 5 ∧ step t = .next t

/-- R207: a command of a running block either raises an error and does not count, or completes and adds 1 to `CMDCNT` modulo
2^32, except `CSRW CMDCNT`, after which `CMDCNT` is the written value. -/
def Obligations.CommandCounts : Prop :=
  ∀ (i : Instr) (s : State), s.status.err = false →
    ∃ t, exec i s = .next t ∧
      ((t.status.err = true ∧ t.cmdcnt = s.cmdcnt) ∨
       (t.status.err = false ∧ (∀ rs, i ≠ .csrw 0x05#8 rs) ∧ t.cmdcnt.toNat = (s.cmdcnt.toNat + 1) % 2 ^ 32) ∨
       (t.status.err = false ∧ ∃ rs, i = .csrw 0x05#8 rs ∧ t.cmdcnt = s.reg rs))

/-- Which command writes which state, over all commands (10_state.md R21 "Writers", 43_dispatcher.md R180, R207): every
register but the destination is kept; `CTRL`, `PITCH`, `SBBASE`, the masks and the queue change only by `CSRW`; the tables only
by their write commands; PIXMEM only by the raw kernels, the edge commands and `DISPATCH`; `DONE` is cleared only by a
`CSRW STATUS` of a value with bit 0 = 1 and set only by `DONE`; the parameters and the port are kept by all. -/
def Obligations.WhoWritesWhat : Prop :=
  ∀ (i : Instr) (s t : State), exec i s = .next t →
    (∀ r, destination i ≠ some r → t.reg r = s.reg r) ∧
    ((∀ csr rs, i ≠ .csrw csr rs) → t.ctrl = s.ctrl ∧ t.pitch = s.pitch ∧ t.sbbase = s.sbbase ∧ t.masks = s.masks ∧
      t.cmdq = s.cmdq) ∧
    ((∀ l rs, i ≠ .lutw l rs) → t.lut = s.lut) ∧ ((∀ l rs, i ≠ .lvlw l rs) → t.lvltab = s.lvltab) ∧
    ((∀ q rs, i ≠ .lvuw q rs) → t.lvlu = s.lvlu) ∧
    (isPixel i = false ∨ (∃ rd ra dir wide lvl, i = .cls rd ra dir wide lvl) → t.pix = s.pix) ∧
    (s.status.done = true → t.status.done = false → ∃ rs, i = .csrw 0x02#8 rs ∧ (s.reg rs).getLsbD 0 = true) ∧
    (s.status.done = false → t.status.done = true → i = .done) ∧
    t.cfg = s.cfg ∧ t.pending = s.pending ∧ t.reply = s.reply

/-- After n steps from a queue of n words, with no move pending, the queue is empty or the block has halted. A `CSRW CTRL` with
its flush bit set empties the queue without executing its words. 70_reset_and_hazards.md R263 says only that the head command
is eventually executed; the bound of n steps is the model's: with no move pending every turn is the block's (log 5). -/
def Obligations.QueueDrains : Prop :=
  ∀ s : State, s.pending = [] →
    ∃ t, Host.Core.run core s.cmdq.length s = .next t ∧ t.pending = [] ∧ (t.cmdq = [] ∨ t.status.err = true)

/-- Two canonical PIXMEMs that read alike at every address are the same list of cells. -/
def Obligations.CanonicalMemoryIsDeterminedByReads : Prop :=
  ∀ m m' : Memory, m.wf → m'.wf → (∀ a, m.read a = m'.read a) → m = m'

/-! ### Errors -/

/-- 60_exceptions.md R225: every command that reads PIXMEM raises `E_PITCH` (code 5) when `PITCH` < 16, whatever its
direction, with `ERRINFO` = `PITCH`. -/
def Obligations.PitchBelow16Raises : Prop :=
  ∀ (i : Instr) (s : State), isPixel i = true → i.wf = true → s.pitch.toNat < 16 →
    exec i s = .next (raised s (encode i) 5#8 (s.pitch.setWidth 32))

/-- 60_exceptions.md R226: a needed LUT entry with `VALID` = 0 raises `E_LUT` (code 4) with the level: `LUTR`; `CLS` and the
edge commands; `DISPATCH` for the first such edge in list order. The raw kernels never raise it. -/
def Obligations.InvalidLevelRaises : Prop :=
  (∀ (s : State) (rd : Reg) (l : Level), (s.lutAt l).valid = false →
    exec (.lutr rd l) s = .next (raised s (encode (.lutr rd l)) 4#8 (l.setWidth 32))) ∧
  (∀ (s : State) (i : Instr) (rd ra : Reg) (dir : Dir) (wide : Bool) (l : Level), 16 ≤ s.pitch.toNat →
    (s.lutAt l).valid = false →
    i = .cls rd ra dir wide l ∨ i = .lpf4 ra dir l ∨ i = .lpf8 ra dir l ∨ i = .lpf16 ra dir l →
    exec i s = .next (raised s (encode i) 4#8 (l.setWidth 32))) ∧
  (∀ (s : State) (dir : Dir) (plane : Plane) (row : BitVec 3) (pre post : List Edge) (e : Edge), 16 ≤ s.pitch.toNat →
    (Instr.dispatch dir plane row).wf = true → edgeList s dir plane row.toNat = pre ++ e :: post →
    (∀ d ∈ pre, (s.lutAt d.lvl).valid = true) → (s.lutAt e.lvl).valid = false →
    exec (.dispatch dir plane row) s = .next (raised s (encode (.dispatch dir plane row)) 4#8 (e.lvl.setWidth 32))) ∧
  (∀ (s t : State) (i : Instr) (ra : Reg) (dir : Dir) (m h : Bool), s.status.errcode = 0#8 →
    i = .k4 ra dir m h ∨ i = .k8 ra dir ∨ i = .k16 ra dir → exec i s = .next t → t.status.errcode ≠ 4#8)

/-- 60_exceptions.md R227: any byte of the footprint outside PIXMEM raises `E_RANGE` (code 3) with the base operand `x[ra]`,
or `SBBASE` for `DISPATCH`. -/
def Obligations.FootprintOutsideRaises : Prop :=
  (∀ (s : State) (rd ra : Reg) (dir : Dir) (wide : Bool) (l : Level), 16 ≤ s.pitch.toNat → (s.lutAt l).valid = true →
    ¬ fits s dir (s.reg ra).toNat 1 (if wide then -8 else -4) (if wide then 7 else 3) →
    exec (.cls rd ra dir wide l) s = .next (raised s (encode (.cls rd ra dir wide l)) 3#8 (s.reg ra))) ∧
  (∀ (s : State) (i : Instr) (ra : Reg) (dir : Dir) (m h : Bool) (lo hi : Int), 16 ≤ s.pitch.toNat →
    ¬ fits s dir (s.reg ra).toNat 1 lo hi →
    (i = .k4 ra dir m h ∧ lo = -2 ∧ hi = 1) ∨ (i = .k8 ra dir ∧ lo = -4 ∧ hi = 3) ∨ (i = .k16 ra dir ∧ lo = -8 ∧ hi = 7) →
    exec i s = .next (raised s (encode i) 3#8 (s.reg ra))) ∧
  (∀ (s : State) (cap : Kernel) (ra : Reg) (dir : Dir) (l : Level), 16 ≤ s.pitch.toNat → (s.lutAt l).valid = true →
    ¬ fits s dir (s.reg ra).toNat 8 (-(capReach cap + 1)) (capReach cap) →
    exec (edgeCommand cap ra dir l) s = .next (raised s (encode (edgeCommand cap ra dir l)) 3#8 (s.reg ra))) ∧
  (∀ (s : State) (dir : Dir) (plane : Plane) (row : BitVec 3), 16 ≤ s.pitch.toNat →
    (Instr.dispatch dir plane row).wf = true → (∀ e ∈ edgeList s dir plane row.toNat, (s.lutAt e.lvl).valid = true) →
    (∃ e ∈ edgeList s dir plane row.toNat, ¬ fits s dir e.origin 8 (-(capReach e.cls + 1)) (capReach e.cls)) →
    exec (.dispatch dir plane row) s = .next (raised s (encode (.dispatch dir plane row)) 3#8 s.sbbase))

/-- 60_exceptions.md R223: `CSRR` and `CSRW` of an address that names no register, and `CSRW` of a read-only CSR, raise
`E_CSR` (code 2) with `ERRINFO` = the address. -/
def Obligations.CsrErrors : Prop :=
  (∀ (s : State) (r : Reg) (a : CsrAddr), noCsr a →
    exec (.csrr r a) s = .next (raised s (encode (.csrr r a)) 2#8 (a.setWidth 32)) ∧
    exec (.csrw a r) s = .next (raised s (encode (.csrw a r)) 2#8 (a.setWidth 32))) ∧
  (∀ (s : State) (r : Reg) (a : CsrAddr), a ∈ readOnlyAddrs →
    exec (.csrw a r) s = .next (raised s (encode (.csrw a r)) 2#8 (a.setWidth 32)))

/-! ### Control, immediates and CSRs -/

/-- 44_control.md R200 to R202: `NOP` and every `PREF` only count; `DONE` also sets `STATUS.DONE`. -/
def Obligations.ControlCommandsComplete : Prop :=
  ∀ (s : State) (hint : BitVec 26),
    exec .nop s = .next { s with cmdcnt := s.cmdcnt + 1#32 } ∧
    exec (.pref hint) s = .next { s with cmdcnt := s.cmdcnt + 1#32 } ∧
    exec .done s = .next { s with status := { s.status with done := true }, cmdcnt := s.cmdcnt + 1#32 }

/-- 44_control.md R203, R204: the new value of `x[rd]`, and nothing else but `CMDCNT` changes. -/
def Obligations.ImmediateCommands : Prop :=
  ∀ (s : State) (rd : Reg) (imm : BitVec 16),
    (∃ t, exec (.li rd imm) s = .next t ∧ (t.reg rd).toNat = imm.toNat ∧ (∀ r, r ≠ rd → t.reg r = s.reg r) ∧
      t = { s with regs := t.regs, cmdcnt := s.cmdcnt + 1#32 }) ∧
    (∃ t, exec (.lih rd imm) s = .next t ∧ (t.reg rd).toNat = imm.toNat * 2 ^ 16 + (s.reg rd).toNat % 2 ^ 16 ∧
      (∀ r, r ≠ rd → t.reg r = s.reg r) ∧ t = { s with regs := t.regs, cmdcnt := s.cmdcnt + 1#32 })

/-- 30_encoding.md R90: `li rd, v[15:0]` then `lih rd, v[31:16]` leaves `x[rd] = v`, for every 32-bit v. -/
def Obligations.LiThenLihLoadsAnyWord : Prop :=
  ∀ (s : State) (rd : Reg) (v : Word), ∃ t u,
    exec (.li rd (BitVec.ofNat 16 (v.toNat % 2 ^ 16))) s = .next t ∧
    exec (.lih rd (BitVec.ofNat 16 (v.toNat / 2 ^ 16))) t = .next u ∧
    u.reg rd = v ∧ (∀ r, r ≠ rd → u.reg r = s.reg r) ∧ u = { s with regs := u.regs, cmdcnt := s.cmdcnt + 2#32 }

/-- 44_control.md R205: `CSRR` of each of the 26 CSRs puts the value the command stream sees in `x[rd]`; nothing else but
`CMDCNT` changes. -/
def Obligations.CsrrReadsTheMap : Prop :=
  ∀ (s : State) (rd : Reg) (a : CsrAddr) (v : Nat), s.cfg.Legal → s.cmdq.length ≤ s.cfg.cmdqDepth → (a, v) ∈ csrReads s →
    ∃ t, exec (.csrr rd a) s = .next t ∧ (t.reg rd).toNat = v ∧ (∀ r, r ≠ rd → t.reg r = s.reg r) ∧
      t = { s with regs := t.regs, cmdcnt := s.cmdcnt + 1#32 }

/-- 44_control.md R206: what `CSRW` leaves for each writable CSR. -/
def Obligations.CsrwWritesTheMap : Prop :=
  ∀ (s : State) (rs : Reg),
    exec (.csrw 0x01#8 rs) s = .next { s with
      ctrl := ⟨(s.reg rs).getLsbD 0, (s.reg rs).getLsbD 1⟩
      cmdq := if (s.reg rs).getLsbD 2 = true then [] else s.cmdq
      cmdcnt := s.cmdcnt + 1#32 } ∧
    exec (.csrw 0x02#8 rs) s = .next { s with
      status :=
        { done := if (s.reg rs).getLsbD 0 = true then false else s.status.done
          err := if (s.reg rs).getLsbD 1 = true then false else s.status.err
          errcode := if (s.reg rs).getLsbD 1 = true then 0#8 else s.status.errcode }
      cmdcnt := s.cmdcnt + 1#32 } ∧
    exec (.csrw 0x03#8 rs) s = .next { s with
      pitch := BitVec.ofNat 16 ((s.reg rs).toNat % 2 ^ 16), cmdcnt := s.cmdcnt + 1#32 } ∧
    exec (.csrw 0x04#8 rs) s = .next { s with sbbase := s.reg rs, cmdcnt := s.cmdcnt + 1#32 } ∧
    exec (.csrw 0x05#8 rs) s = .next { s with cmdcnt := s.reg rs } ∧
    (∀ m : MaskName, ∃ t, exec (.csrw (BitVec.ofNat 8 (maskAddr m)) rs) s = .next t ∧
      (t.masks.get m).toNat = (s.masks.get m).toNat / 2 ^ 32 * 2 ^ 32 + (s.reg rs).toNat ∧
      (∀ n, n ≠ m → t.masks.get n = s.masks.get n) ∧ t = { s with masks := t.masks, cmdcnt := s.cmdcnt + 1#32 }) ∧
    (∀ m : MaskName, ∃ t, exec (.csrw (BitVec.ofNat 8 (maskAddr m + 1)) rs) s = .next t ∧
      (t.masks.get m).toNat = (s.reg rs).toNat * 2 ^ 32 + (s.masks.get m).toNat % 2 ^ 32 ∧
      (∀ n, n ≠ m → t.masks.get n = s.masks.get n) ∧ t = { s with masks := t.masks, cmdcnt := s.cmdcnt + 1#32 })

/-! ### Tables -/

/-- 40_threshold_lut.md R101: `LUTW` writes the three fields from the bytes of `x[rs]` and sets `VALID`; the other entries and
everything else but `CMDCNT` stay. -/
def Obligations.LutwWritesEntry : Prop :=
  ∀ (s : State) (idx : Level) (rs : Reg), ∃ t, exec (.lutw idx rs) s = .next t ∧
    (t.lutAt idx).valid = true ∧ (t.lutAt idx).blimit.toNat = (s.reg rs).toNat % 256 ∧
    (t.lutAt idx).limit.toNat = (s.reg rs).toNat / 256 % 256 ∧ (t.lutAt idx).hevthr.toNat = (s.reg rs).toNat / 65536 % 256 ∧
    (∀ l, l ≠ idx → t.lutAt l = s.lutAt l) ∧ t = { s with lut := t.lut, cmdcnt := s.cmdcnt + 1#32 }

/-- 40_threshold_lut.md R102: `LUTR` of a valid entry packs its fields into `x[rd]`, bits 31:24 zero; of an entry with
`VALID` = 0 it raises `E_LUT`. -/
def Obligations.LutrReadsEntry : Prop :=
  ∀ (s : State) (rd : Reg) (idx : Level),
    ((s.lutAt idx).valid = false → exec (.lutr rd idx) s = .next (raised s (encode (.lutr rd idx)) 4#8 (idx.setWidth 32))) ∧
    ((s.lutAt idx).valid = true → ∃ t, exec (.lutr rd idx) s = .next t ∧
      (t.reg rd).toNat =
        (s.lutAt idx).hevthr.toNat * 65536 + (s.lutAt idx).limit.toNat * 256 + (s.lutAt idx).blimit.toNat ∧
      (∀ r, r ≠ rd → t.reg r = s.reg r) ∧ t = { s with regs := t.regs, cmdcnt := s.cmdcnt + 1#32 })

/-- 40_threshold_lut.md R103, R104: `LVLW` stores bits 5:0 of `x[rs]`; `LVLR` reads the entry zero-extended. -/
def Obligations.LevelTableAccess : Prop :=
  (∀ (s : State) (idx : Level) (rs : Reg), ∃ t, exec (.lvlw idx rs) s = .next t ∧
    (t.lvltabAt idx).toNat = (s.reg rs).toNat % 64 ∧ (∀ l, l ≠ idx → t.lvltabAt l = s.lvltabAt l) ∧
    t = { s with lvltab := t.lvltab, cmdcnt := s.cmdcnt + 1#32 }) ∧
  (∀ (s : State) (rd : Reg) (idx : Level), ∃ t, exec (.lvlr rd idx) s = .next t ∧
    (t.reg rd).toNat = (s.lvltabAt idx).toNat ∧ (∀ r, r ≠ rd → t.reg r = s.reg r) ∧
    t = { s with regs := t.regs, cmdcnt := s.cmdcnt + 1#32 })

/-- 40_threshold_lut.md R106: `LVUW` writes `LVLU[4q+i]` from bits 8i+5:8i of `x[rs]`, i = 0..3, and no other entry. -/
def Obligations.LvuwWritesFourLevels : Prop :=
  ∀ (s : State) (q : BitVec 4) (rs : Reg), ∃ t, exec (.lvuw q rs) s = .next t ∧
    (∀ i, i < 4 → (t.unitLevel (4 * q.toNat + i)).toNat = (s.reg rs).toNat / 2 ^ (8 * i) % 64) ∧
    (∀ n, n < 64 → n / 4 ≠ q.toNat → t.unitLevel n = s.unitLevel n) ∧
    t = { s with lvlu := t.lvlu, cmdcnt := s.cmdcnt + 1#32 }

/-- 40_threshold_lut.md R107: `LVUR` packs four unit levels into the bytes of `x[rd]`. -/
def Obligations.LvurReadsFourLevels : Prop :=
  ∀ (s : State) (rd : Reg) (q : BitVec 4), ∃ t, exec (.lvur rd q) s = .next t ∧
    (t.reg rd).toNat = (s.unitLevel (4 * q.toNat)).toNat + (s.unitLevel (4 * q.toNat + 1)).toNat * 2 ^ 8 +
      (s.unitLevel (4 * q.toNat + 2)).toNat * 2 ^ 16 + (s.unitLevel (4 * q.toNat + 3)).toNat * 2 ^ 24 ∧
    (∀ r, r ≠ rd → t.reg r = s.reg r) ∧ t = { s with regs := t.regs, cmdcnt := s.cmdcnt + 1#32 }

/-- `LVUW q, rs` then `LVUR rd, q` gives `x[rs]` with bits 7:6, 15:14, 23:22 and 31:30 cleared. -/
def Obligations.LevelsWrittenAreLevelsRead : Prop :=
  ∀ (s : State) (q : BitVec 4) (rd rs : Reg), ∃ t u, exec (.lvuw q rs) s = .next t ∧ exec (.lvur rd q) t = .next u ∧
    u.reg rd = s.reg rs &&& 0x3F3F3F3F#32

/-- 40_threshold_lut.md R105: `LVLTAB` is storage only. With other contents of it, every command but `LVLR` answers the same
state but for `LVLTAB` itself; `LVLW` still writes bits 5:0 of `x[rs]` to its entry, and every other entry stays. -/
def Obligations.LevelTableIsStorageOnly : Prop :=
  ∀ (i : Instr) (s t : State) (tab : Vector Level 64), (∀ rd idx, i ≠ .lvlr rd idx) → exec i s = .next t →
    ∃ t', exec i { s with lvltab := tab } = .next t' ∧ t' = { t with lvltab := t'.lvltab } ∧
      ((∀ idx rs, i ≠ .lvlw idx rs) → t'.lvltab = tab) ∧
      (∀ idx rs, i = .lvlw idx rs → (t'.lvltabAt idx).toNat = (s.reg rs).toNat % 64 ∧
        ∀ l, l ≠ idx → t'.lvltabAt l = tab[l.toNat])

/-- The threshold fields of an entry whose `VALID` is 0 are never observed (10_state.md R40): with other values in them every
command answers the same state, but for those fields. -/
def Obligations.UnwrittenThresholdsAreNeverObserved : Prop :=
  ∀ (i : Instr) (s t : State) (l : Vector LutEntry 64), lutAgree s.lut l → exec i s = .next t →
    ∃ t', exec i { s with lut := l } = .next t' ∧ t' = { t with lut := t'.lut } ∧ lutAgree t.lut t'.lut

/-! ### Classifier -/

/-- 41_classifier.md R120 to R125: the classifier functions as the inequalities of the rules, and the kernel class. `lineMask`
and `lineHev` are `filterMask` and `hevMask` of a line with the thresholds that 40_threshold_lut.md R108 fetches: `LIMIT`,
`BLIMIT` and `HEVTHR` of the entry. -/
def Obligations.ClassifierFunctions : Prop :=
  (∀ limit blimit p3 p2 p1 p0 q0 q1 q2 q3 : Int, filterMask limit blimit p3 p2 p1 p0 q0 q1 q2 q3 = true ↔
    |p3 - p2| ≤ limit ∧ |p2 - p1| ≤ limit ∧ |p1 - p0| ≤ limit ∧ |q1 - q0| ≤ limit ∧ |q2 - q1| ≤ limit ∧ |q3 - q2| ≤ limit ∧
    2 * |p0 - q0| + |p1 - q1| / 2 ≤ blimit) ∧
  (∀ thresh p1 p0 q0 q1 : Int, hevMask thresh p1 p0 q0 q1 = true ↔ |p1 - p0| > thresh ∨ |q1 - q0| > thresh) ∧
  (∀ t p3 p2 p1 p0 q0 q1 q2 q3 : Int, flatMask4 t p3 p2 p1 p0 q0 q1 q2 q3 = true ↔
    |p1 - p0| ≤ t ∧ |q1 - q0| ≤ t ∧ |p2 - p0| ≤ t ∧ |q2 - q0| ≤ t ∧ |p3 - p0| ≤ t ∧ |q3 - q0| ≤ t) ∧
  (∀ t a4 a3 a2 a1 a0 b0 b1 b2 b3 b4 : Int, flatMask5 t a4 a3 a2 a1 a0 b0 b1 b2 b3 b4 = true ↔
    flatMask4 t a3 a2 a1 a0 b0 b1 b2 b3 = true ∧ |a4 - a0| ≤ t ∧ |b4 - b0| ≤ t) ∧
  (∀ x : Line, flat x = true ↔ ∀ i : Int, 1 ≤ i → i ≤ 3 → |x (-1 - i) - x (-1)| ≤ 1 ∧ |x i - x 0| ≤ 1) ∧
  (∀ x : Line, flat2 x = true ↔ ∀ i : Int, 4 ≤ i → i ≤ 7 → |x (-1 - i) - x (-1)| ≤ 1 ∧ |x i - x 0| ≤ 1) ∧
  (∀ (m f f2 : Bool) (cap : Kernel), kernelClass m f f2 cap =
    if m = false then none
    else if cap = .f16 ∧ f2 = true ∧ f = true then some .f16
    else if (cap = .f8 ∨ cap = .f16) ∧ f = true then some .f8
    else some .f4) ∧
  (∀ (e : LutEntry) (x : Line), lineMask e x = true ↔
    |x (-4) - x (-3)| ≤ e.limit.toNat ∧ |x (-3) - x (-2)| ≤ e.limit.toNat ∧ |x (-2) - x (-1)| ≤ e.limit.toNat ∧
    |x 1 - x 0| ≤ e.limit.toNat ∧ |x 2 - x 1| ≤ e.limit.toNat ∧ |x 3 - x 2| ≤ e.limit.toNat ∧
    2 * |x (-1) - x 0| + |x (-2) - x 1| / 2 ≤ e.blimit.toNat) ∧
  (∀ (e : LutEntry) (x : Line), lineHev e x = true ↔ |x (-2) - x (-1)| > e.hevthr.toNat ∨ |x 1 - x 0| > e.hevthr.toNat)

/-- 41_classifier.md R127: the result word of `CLS`, bit by bit, read at the address in `x[ra]` before `x[rd]` is written; only
`x[rd]` and `CMDCNT` change, PIXMEM does not. -/
def Obligations.ClsReportsTheClass : Prop :=
  ∀ (s : State) (rd ra : Reg) (dir : Dir) (wide : Bool) (lvl : Level), 16 ≤ s.pitch.toNat → (s.lutAt lvl).valid = true →
    fits s dir (s.reg ra).toNat 1 (if wide then -8 else -4) (if wide then 7 else 3) →
    ∃ t, exec (.cls rd ra dir wide lvl) s = .next t ∧
      (let x := sample s dir (s.reg ra).toNat 0
       let e := s.lutAt lvl
       let f2 := wide && flat2 x
       let ksel := match chosen e (if wide then .f16 else .f8) x with
         | none => 0
         | some .f4 => 1
         | some .f8 => 2
         | some .f16 => 3
       (t.reg rd).toNat =
         (lineMask e x).toNat + 2 * (lineHev e x).toNat + 4 * (flat x).toNat + 8 * f2.toNat + 16 * ksel) ∧
      (∀ r, r ≠ rd → t.reg r = s.reg r) ∧ t = { s with regs := t.regs, cmdcnt := s.cmdcnt + 1#32 }

/-! ### Kernels -/

/-- 42_kernels.md R143: the taps of `filter8`, and its golden vector. -/
def Obligations.Filter8Taps : Prop :=
  (∀ x : Line,
    filter8 x (-3) = (3 * x (-4) + 2 * x (-3) + x (-2) + x (-1) + x 0 + 4) / 8 ∧
    filter8 x (-2) = (2 * x (-4) + x (-3) + 2 * x (-2) + x (-1) + x 0 + x 1 + 4) / 8 ∧
    filter8 x (-1) = (x (-4) + x (-3) + x (-2) + 2 * x (-1) + x 0 + x 1 + x 2 + 4) / 8 ∧
    filter8 x 0 = (x (-3) + x (-2) + x (-1) + 2 * x 0 + x 1 + x 2 + x 3 + 4) / 8 ∧
    filter8 x 1 = (x (-2) + x (-1) + x 0 + 2 * x 1 + x 2 + 2 * x 3 + 4) / 8 ∧
    filter8 x 2 = (x (-1) + x 0 + x 1 + 2 * x 2 + 3 * x 3 + 4) / 8) ∧
  ∀ x : Line, (∀ k, x k = if k < 0 then 10 else 250) →
    [-3, -2, -1, 0, 1, 2].map (filter8 x) = [40, 70, 100, 160, 190, 220]

/-- 42_kernels.md R144: the taps of `filter16`, and its example. -/
def Obligations.Filter16Taps : Prop :=
  (∀ x : Line,
    filter16 x (-7) = (7 * x (-8) + 2 * x (-7) + x (-6) + x (-5) + x (-4) + x (-3) + x (-2) + x (-1) + x 0 + 8) / 16 ∧
    filter16 x (-6) = (6 * x (-8) + x (-7) + 2 * x (-6) + x (-5) + x (-4) + x (-3) + x (-2) + x (-1) + x 0 + x 1 + 8) / 16 ∧
    filter16 x (-5) = (5 * x (-8) + x (-7) + x (-6) + 2 * x (-5) + x (-4) + x (-3) + x (-2) + x (-1) + x 0 + x 1 + x 2 + 8) / 16 ∧
    filter16 x (-4) = (4 * x (-8) + x (-7) + x (-6) + x (-5) + 2 * x (-4) + x (-3) + x (-2) + x (-1) + x 0 + x 1 + x 2 + x 3
      + 8) / 16 ∧
    filter16 x (-3) = (3 * x (-8) + x (-7) + x (-6) + x (-5) + x (-4) + 2 * x (-3) + x (-2) + x (-1) + x 0 + x 1 + x 2 + x 3
      + x 4 + 8) / 16 ∧
    filter16 x (-2) = (2 * x (-8) + x (-7) + x (-6) + x (-5) + x (-4) + x (-3) + 2 * x (-2) + x (-1) + x 0 + x 1 + x 2 + x 3
      + x 4 + x 5 + 8) / 16 ∧
    filter16 x (-1) = (x (-8) + x (-7) + x (-6) + x (-5) + x (-4) + x (-3) + x (-2) + 2 * x (-1) + x 0 + x 1 + x 2 + x 3
      + x 4 + x 5 + x 6 + 8) / 16) ∧
  (∀ x : Line,
    filter16 x 0 = (x (-7) + x (-6) + x (-5) + x (-4) + x (-3) + x (-2) + x (-1) + 2 * x 0 + x 1 + x 2 + x 3 + x 4 + x 5
      + x 6 + x 7 + 8) / 16 ∧
    filter16 x 1 = (x (-6) + x (-5) + x (-4) + x (-3) + x (-2) + x (-1) + x 0 + 2 * x 1 + x 2 + x 3 + x 4 + x 5 + x 6
      + 2 * x 7 + 8) / 16 ∧
    filter16 x 2 = (x (-5) + x (-4) + x (-3) + x (-2) + x (-1) + x 0 + x 1 + 2 * x 2 + x 3 + x 4 + x 5 + x 6 + 3 * x 7 + 8) / 16 ∧
    filter16 x 3 = (x (-4) + x (-3) + x (-2) + x (-1) + x 0 + x 1 + x 2 + 2 * x 3 + x 4 + x 5 + x 6 + 4 * x 7 + 8) / 16 ∧
    filter16 x 4 = (x (-3) + x (-2) + x (-1) + x 0 + x 1 + x 2 + x 3 + 2 * x 4 + x 5 + x 6 + 5 * x 7 + 8) / 16 ∧
    filter16 x 5 = (x (-2) + x (-1) + x 0 + x 1 + x 2 + x 3 + x 4 + 2 * x 5 + x 6 + 6 * x 7 + 8) / 16 ∧
    filter16 x 6 = (x (-1) + x 0 + x 1 + x 2 + x 3 + x 4 + x 5 + 2 * x 6 + 7 * x 7 + 8) / 16) ∧
  ∀ x : Line, (∀ k, x k = if k < 0 then 10 else 250) →
    [-7, -6, -5, -4, -3, -2, -1, 0, 1, 2, 3, 4, 5, 6].map (filter16 x) =
      [25, 40, 55, 70, 85, 100, 115, 145, 160, 175, 190, 205, 220, 235]

/-- 42_kernels.md R145: on samples of 0..255 the sums of the flat kernels with their rounding are at most 2044 and 4088, every
output is in 0..255, and a constant line is unchanged. -/
def Obligations.FlatKernelRanges : Prop :=
  (∀ (x : Line) (i : Int), (∀ k, 0 ≤ x k ∧ x k ≤ 255) →
    boxSum 3 x i 7 + x i + 4 ≤ 2044 ∧ boxSum 7 x i 15 + x i + 8 ≤ 4088 ∧
    0 ≤ filter8 x i ∧ filter8 x i ≤ 255 ∧ 0 ≤ filter16 x i ∧ filter16 x i ≤ 255) ∧
  (∀ (x : Line) (v i : Int), (∀ k, x k = v) → filter8 x i = v ∧ filter16 x i = v)

/-- 42_kernels.md R141 items 1, 2, 4 and 5, and the outputs of item 3: no gate or a flat line changes nothing; outputs are
samples; with hev only `p0` and `q0` can change; the two passes of item 5. -/
def Obligations.Filter4Properties : Prop :=
  (∀ (h : Bool) (p1 p0 q0 q1 : Int), (0 ≤ p1 ∧ p1 ≤ 255) → (0 ≤ p0 ∧ p0 ≤ 255) → (0 ≤ q0 ∧ q0 ≤ 255) → (0 ≤ q1 ∧ q1 ≤ 255) →
    filter4 false h p1 p0 q0 q1 = ⟨p1, p0, q0, q1⟩) ∧
  (∀ (m h : Bool) (p1 p0 : Int), (0 ≤ p1 ∧ p1 ≤ 255) → (0 ≤ p0 ∧ p0 ≤ 255) → filter4 m h p1 p0 p0 p1 = ⟨p1, p0, p0, p1⟩) ∧
  (∀ (m h : Bool) (p1 p0 q0 q1 : Int), (0 ≤ p1 ∧ p1 ≤ 255) → (0 ≤ p0 ∧ p0 ≤ 255) → (0 ≤ q0 ∧ q0 ≤ 255) →
    (0 ≤ q1 ∧ q1 ≤ 255) →
    let r := filter4 m h p1 p0 q0 q1
    (0 ≤ r.p1 ∧ r.p1 ≤ 255) ∧ (0 ≤ r.p0 ∧ r.p0 ≤ 255) ∧ (0 ≤ r.q0 ∧ r.q0 ≤ 255) ∧ (0 ≤ r.q1 ∧ r.q1 ≤ 255) ∧
    |r.p0 - p0| ≤ 16 ∧ |r.q0 - q0| ≤ 16 ∧ |r.p1 - p1| ≤ 8 ∧ |r.q1 - q1| ≤ 8 ∧ (h = true → r.p1 = p1 ∧ r.q1 = q1)) ∧
  filter4 true false 100 100 110 110 = ⟨102, 104, 106, 108⟩ ∧ filter4 true false 102 104 106 108 = ⟨103, 105, 105, 107⟩

/-- 42_kernels.md R140 in the sample domain, with mask 1: on samples of 0..255, `filter4` adds and subtracts the two roundings of
the clamped sum, and clamps at 0 and 255; no conversion to the signed domain is left. And R146, R148: `filter4` of a line takes
its samples p1, p0, q0, q1 at -2, -1, 0, 1 and puts its four outputs there. -/
def Obligations.Filter4OnSamples : Prop :=
  (∀ (h : Bool) (p1 p0 q0 q1 : Int), (0 ≤ p1 ∧ p1 ≤ 255) → (0 ≤ p0 ∧ p0 ≤ 255) → (0 ≤ q0 ∧ q0 ≤ 255) → (0 ≤ q1 ∧ q1 ≤ 255) →
    let outer := if h then min 127 (max (-128) (p1 - q1)) else 0
    let c := min 127 (max (-128) (outer + 3 * (q0 - p0)))
    let a := min 127 (c + 4) / 8
    let b := min 127 (c + 3) / 8
    let g := if h then 0 else (a + 1) / 2
    filter4 true h p1 p0 q0 q1 =
      ⟨min 255 (max 0 (p1 + g)), min 255 (max 0 (p0 + b)), min 255 (max 0 (q0 - a)), min 255 (max 0 (q1 - g))⟩) ∧
  (∀ (m h : Bool) (x : Line),
    let r := filter4 m h (x (-2)) (x (-1)) (x 0) (x 1)
    filter4Line m h x (-2) = r.p1 ∧ filter4Line m h x (-1) = r.p0 ∧ filter4Line m h x 0 = r.q0 ∧ filter4Line m h x 1 = r.q1)

/-- 42_kernels.md R148 to R150: a raw kernel with a legal pitch and its window in PIXMEM completes; the samples it writes hold
the kernel's outputs on the samples before; every other byte, and everything but PIXMEM and `CMDCNT`, is as before. -/
def Obligations.RawKernelCommands : Prop :=
  ∀ (s : State) (i : Instr) (ra : Reg) (dir : Dir) (m h : Bool) (out : Line) (lo hi wlo whi : Int), s.pix.wf →
    16 ≤ s.pitch.toNat →
    (let x := sample s dir (s.reg ra).toNat 0
     (i = .k4 ra dir m h ∧ out = filter4Line m h x ∧ lo = -2 ∧ hi = 1 ∧ wlo = -2 ∧ whi = 1) ∨
     (i = .k8 ra dir ∧ out = filter8 x ∧ lo = -4 ∧ hi = 3 ∧ wlo = -3 ∧ whi = 2) ∨
     (i = .k16 ra dir ∧ out = filter16 x ∧ lo = -8 ∧ hi = 7 ∧ wlo = -7 ∧ whi = 6)) →
    fits s dir (s.reg ra).toNat 1 lo hi →
    ∃ t, exec i s = .next t ∧ t = { s with pix := t.pix, cmdcnt := s.cmdcnt + 1#32 } ∧
      (∀ k, wlo ≤ k → k ≤ whi → sample t dir (s.reg ra).toNat 0 k = out k) ∧
      (∀ a : Nat, (∀ k, wlo ≤ k → k ≤ whi → (a : Int) ≠ addr s dir (s.reg ra).toNat 0 k) → t.pix.read a = s.pix.read a)

/-- 42_kernels.md R151 to R154, whole: an edge command with a legal pitch, a valid level and its 8 windows in PIXMEM completes.
Each line holds the outputs of the kernel R125 chooses for it on the line as it was BEFORE the command, whatever the other
lines did (R154); a line whose mask is false, every byte no line writes, and everything but PIXMEM and `CMDCNT` is as before. -/
def Obligations.EdgeCommandsFilterEachLine : Prop :=
  ∀ (s : State) (cap : Kernel) (ra : Reg) (dir : Dir) (lvl : Level), s.pix.wf → 16 ≤ s.pitch.toNat →
    (s.lutAt lvl).valid = true → fits s dir (s.reg ra).toNat 8 (-(capReach cap + 1)) (capReach cap) →
    ∃ t, exec (edgeCommand cap ra dir lvl) s = .next t ∧ t = { s with pix := t.pix, cmdcnt := s.cmdcnt + 1#32 } ∧
      (∀ j : Int, 0 ≤ j → j < 8 →
        let x := sample s dir (s.reg ra).toNat j
        (chosen (s.lutAt lvl) cap x = none →
          ∀ k, -(capReach cap + 1) ≤ k → k ≤ capReach cap → sample t dir (s.reg ra).toNat j k = x k) ∧
        (∀ K, chosen (s.lutAt lvl) cap x = some K → ∀ k, -(capReach cap + 1) ≤ k → k ≤ capReach cap →
          sample t dir (s.reg ra).toNat j k =
            if -(writeReach K + 1) ≤ k ∧ k ≤ writeReach K then kernelValue (s.lutAt lvl) x K k else x k)) ∧
      (∀ a : Nat,
        (∀ j k : Int, 0 ≤ j → j < 8 → -(writeReach cap + 1) ≤ k → k ≤ writeReach cap →
          (a : Int) ≠ addr s dir (s.reg ra).toNat j k) → t.pix.read a = s.pix.read a)

/-! ### Dispatcher -/

/-- 43_dispatcher.md R182 to R185: the edge list, its classes, origins, levels and order, written out. -/
def Obligations.DispatchEdgeList : Prop :=
  ∀ (s : State) (dir : Dir) (plane : Plane) (row : Nat),
    edgeList s dir plane row = (List.range (cols plane)).flatMap (unitList s dir plane row)

/-- 43_dispatcher.md R187: a dispatch whose checks pass completes and leaves exactly the PIXMEM that the edge commands `LPF16`,
`LPF8`, `LPF4` of its edges leave when executed one by one in list order; everything but PIXMEM and `CMDCNT` is as before. -/
def Obligations.DispatchIsItsEdgeCommands : Prop :=
  ∀ (s : State) (dir : Dir) (plane : Plane) (row : BitVec 3), s.Inv → s.status.err = false → 16 ≤ s.pitch.toNat →
    (Instr.dispatch dir plane row).wf = true → edgesReady s dir (edgeList s dir plane row.toNat) →
    ∃ t, exec (.dispatch dir plane row) s = .next t ∧ t = { s with pix := t.pix, cmdcnt := s.cmdcnt + 1#32 } ∧
      runEdges s dir (edgeList s dir plane row.toNat) s.pix = some t.pix

/-- The frame of `DISPATCH` in memory: a byte that no line of any of its edges can write, for the edge's class, is as before. -/
def Obligations.DispatchFrame : Prop :=
  ∀ (s t : State) (dir : Dir) (plane : Plane) (row : BitVec 3), s.pix.wf → exec (.dispatch dir plane row) s = .next t →
    t.regs = s.regs ∧ t.masks = s.masks ∧ t.lut = s.lut ∧ t.lvlu = s.lvlu ∧ t.lvltab = s.lvltab ∧
    ∀ a : Nat,
      (∀ e ∈ edgeList s dir plane row.toNat, ∀ j k : Int, 0 ≤ j → j < 8 → -(writeReach e.cls + 1) ≤ k → k ≤ writeReach e.cls →
        (a : Int) ≠ (addr s dir e.origin j k).toNat) → t.pix.read a = s.pix.read a

/-- 43_dispatcher.md R187, corner case: with no mask bit set for the row nothing but `CMDCNT` changes, but `PITCH` is still
checked. -/
def Obligations.DispatchOfEmptyRow : Prop :=
  ∀ (s : State) (dir : Dir) (plane : Plane) (row : BitVec 3), (Instr.dispatch dir plane row).wf = true →
    (∀ c, c < cols plane →
      unitBit s dir .ml16 .ma16 (row.toNat * cols plane + c) = false ∧ unitBit s dir .ml8 .ma8 (row.toNat * cols plane + c) = false ∧
      unitBit s dir .ml4 .ma4 (row.toNat * cols plane + c) = false ∧
      unitBit s dir .ml4i .ma4i (row.toNat * cols plane + c) = false) →
    (16 ≤ s.pitch.toNat → exec (.dispatch dir plane row) s = .next { s with cmdcnt := s.cmdcnt + 1#32 }) ∧
    (s.pitch.toNat < 16 →
      exec (.dispatch dir plane row) s = .next (raised s (encode (.dispatch dir plane row)) 5#8 (s.pitch.setWidth 32)))

/-- 43_dispatcher.md R187, 10_state.md R37: a chroma dispatch does not read mask bits 63:16 nor `LVLU[16..63]`. -/
def Obligations.ChromaIgnoresUpperBits : Prop :=
  ∀ (s t : State) (dir : Dir) (row : BitVec 3) (masks : Masks) (lvlu : Vector Level 64), row.toNat < 4 →
    (∀ (m : MaskName) (b : Nat), b < 16 → (masks.get m).getLsbD b = (s.masks.get m).getLsbD b) →
    (∀ n, (h : n < 16) → lvlu[n] = s.lvlu[n]) → exec (.dispatch dir .chroma row) s = .next t →
    exec (.dispatch dir .chroma row) { s with masks := masks, lvlu := lvlu } = .next { t with masks := masks, lvlu := lvlu }

/-! ### Host port -/

/-- 10_state.md R38, R39 and 60_exceptions.md R241 for the CSRs: a host read of an address that names no CSR returns 0, a host
write of such an address or of a read-only CSR changes nothing, and neither raises an error. -/
def Obligations.HostCsrNeverFaults : Prop :=
  ∀ (s : State) (a : CsrAddr) (v : Word) (rest : List Move),
    (s.pending = .csrRead a :: rest → noCsr a → step s = .next { s with pending := rest, reply := some 0#32 }) ∧
    (s.pending = .csrWrite a v :: rest → noCsr a ∨ a ∈ readOnlyAddrs → step s = .next { s with pending := rest }) ∧
    (s.pending = .csrRead a :: rest →
      ∃ t x, step s = .next t ∧ t = { s with pending := rest, reply := some x } ∧
        (∀ n, (a, n) ∈ csrReads s → a ≠ 0x02#8 → s.cfg.Legal → s.cmdq.length ≤ s.cfg.cmdqDepth → x.toNat = n)) ∧
    (s.pending = .csrWrite a v :: rest → ∃ t, step s = .next t ∧ t.errcmd = s.errcmd ∧ t.errinfo = s.errinfo ∧
      (s.status.err = false → t.status.err = false) ∧ t.pix = s.pix ∧ t.regs = s.regs ∧ t.lut = s.lut)

/-- 10_state.md R39: the host port and the command stream reach the same CSRs. A host write of a CSR that `CSRW` may write
leaves what `CSRW` of the same value leaves, less the count of the command; a host read returns what `CSRR` reads, but for
`STATUS`. -/
def Obligations.PortsReachTheSameCsrs : Prop :=
  (∀ (s : State) (a : CsrAddr) (v : Word) (r : Reg), ¬ noCsr a → a ∉ readOnlyAddrs → s.reg r = v → s.pending = [.csrWrite a v] →
    ∃ t u, step s = .next t ∧ exec (.csrw a r) { s with pending := [] } = .next u ∧ t = { u with cmdcnt := t.cmdcnt } ∧
      (a ≠ 0x05#8 → t.cmdcnt = s.cmdcnt ∧ u.cmdcnt = s.cmdcnt + 1#32) ∧ (a = 0x05#8 → t.cmdcnt = v ∧ u.cmdcnt = v)) ∧
  (∀ (s : State) (a : CsrAddr) (r : Reg), ¬ noCsr a → a ≠ 0x02#8 → s.pending = [.csrRead a] →
    ∃ t u, step s = .next t ∧ exec (.csrr r a) { s with pending := [] } = .next u ∧ t.reply = some (u.reg r) ∧
      t = { s with pending := [], reply := t.reply })

/-- 10_state.md R28, R46: what the host reads in `STATUS`, and that the step of a host read of `STATUS` answers that word and
changes nothing else. That the word stands in the model's field `reply` is log 8; that the move is then gone is log 4. -/
def Obligations.HostStatusWord : Prop :=
  (∀ s : State, (s.hostCsrRead 0x02#8).toNat = hostStatusNumber s) ∧
  (∀ (s : State) (rest : List Move), s.pending = .csrRead 0x02#8 :: rest →
    ∃ w : Word, w.toNat = hostStatusNumber s ∧ step s = .next { s with pending := rest, reply := some w })

/-- 20_memory.md R76 and 70_reset_and_hazards.md R257: while not busy the host reads and writes single bytes of PIXMEM; outside
it a read returns 0 and a write is ignored; while busy the move is refused (log 7). That a read's byte stands in the low 8 bits
of the model's field `reply` is log 8. -/
def Obligations.HostPixelAccess : Prop :=
  ∀ (s : State) (a : Nat) (v : Byte) (rest : List Move), s.pix.wf →
    (s.busy = true → s.pending = .pixRead a :: rest ∨ s.pending = .pixWrite a v :: rest →
      step s = .refused .hostPixWhileBusy) ∧
    (s.busy = false → s.pending = .pixRead a :: rest → step s = .next { s with
      pending := rest, reply := some ((if a < s.cfg.pixBytes then s.pix.read a else 0#8).setWidth 32) }) ∧
    (s.busy = false → s.pending = .pixWrite a v :: rest → ∃ t, step s = .next t ∧
      t = { s with pending := rest, pix := t.pix } ∧
      (∀ b, t.pix.read b = if b = a ∧ a < s.cfg.pixBytes then v else s.pix.read b))

/-- 60_exceptions.md R229: the host clears an error by writing 1 to bit 1 of `STATUS`; the record stays, and the block goes on
with the command now at the head of the queue. A write with bit 1 = 0 leaves the block halted. -/
def Obligations.ReturnFromError : Prop :=
  ∀ (s : State) (v : Word) (rest : List Move), s.status.err = true → s.pending = .csrWrite 0x02#8 v :: rest →
    (v.getLsbD 1 = true → ∃ t, step s = .next t ∧ t.status.err = false ∧ t.status.errcode = 0#8 ∧
      t = { s with status := t.status, pending := rest } ∧
      (∀ w q i, rest = [] → s.cmdq = w :: q → decode w = .command i → step t = exec i { t with cmdq := q })) ∧
    (v.getLsbD 1 = false → ∃ t, step s = .next t ∧ t.status.err = true ∧ t.status.errcode = s.status.errcode ∧
      t = { s with status := t.status, pending := rest })

/-- 60_exceptions.md R231: a flush by the host while halted, then the clearing of the error: the queue is empty and the block
stays idle. -/
def Obligations.FlushDuringHalt : Prop :=
  ∀ (s : State) (v u : Word), s.status.err = true → v.getLsbD 2 = true → u.getLsbD 1 = true →
    s.pending = [.csrWrite 0x01#8 v, .csrWrite 0x02#8 u] →
    ∃ t, Host.Core.run core 2 s = .next t ∧ t.cmdq = [] ∧ t.status.err = false ∧ t.busy = false ∧ step t = .next t

/-- 70_reset_and_hazards.md R259: a push is added behind the queue when it is not full; else it waits until the block has
removed a word, and is then added: the word is neither lost nor overwritten. How it waits is the model's reading (log 6): the
push stays pending before the host's later moves, and the block takes that turn; while the block is halted the step answers the
same state. `BusBytesAreLittleEndian` says the same of a word pushed as four bytes. -/
def Obligations.PushWaitsForRoom : Prop :=
  ∀ (s : State) (w : Word) (rest : List Move), s.pending = .push w :: rest →
    (s.cmdq.length < s.cfg.cmdqDepth → step s = .next { s with cmdq := s.cmdq ++ [w], pending := rest }) ∧
    (s.cmdq.length = s.cfg.cmdqDepth → s.status.err = true → step s = .next s) ∧
    (s.cmdq.length = s.cfg.cmdqDepth → 1 ≤ s.cfg.cmdqDepth → s.status.err = false →
      ∃ t, step s = .next t ∧ t.pending = .push w :: rest ∧ t.cmdq.length < t.cfg.cmdqDepth ∧
        step t = .next { t with cmdq := t.cmdq ++ [w], pending := rest })

/-- 20_memory.md R63: four bytes a bus carries are pushed as the little-endian word, byte 0 at bits 7:0; and when the queue is
full that push waits until the block has removed a word, and the word is then added (70_reset_and_hazards.md R259). How it
waits is the model's reading (log 6), as for `PushWaitsForRoom`. -/
def Obligations.BusBytesAreLittleEndian : Prop :=
  ∀ (s : State) (b0 b1 b2 b3 : Byte) (rest : List Move), s.pending = .pushBytes b0 b1 b2 b3 :: rest →
    ∃ w : Word, w.toNat = b0.toNat + 2 ^ 8 * b1.toNat + 2 ^ 16 * b2.toNat + 2 ^ 24 * b3.toNat ∧
      (s.cmdq.length < s.cfg.cmdqDepth → step s = .next { s with cmdq := s.cmdq ++ [w], pending := rest }) ∧
      (s.cmdq.length = s.cfg.cmdqDepth → s.status.err = true → step s = .next s) ∧
      (s.cmdq.length = s.cfg.cmdqDepth → 1 ≤ s.cfg.cmdqDepth → s.status.err = false →
        ∃ t, step s = .next t ∧ t.pending = .pushBytes b0 b1 b2 b3 :: rest ∧ t.cmdq.length < t.cfg.cmdqDepth ∧
          step t = .next { t with cmdq := t.cmdq ++ [w], pending := rest })

/-- 10_state.md R45, 60_exceptions.md R232: `IRQ` is the two enabled sources; it rises with a `DONE` whose enable is set and with
an error whose enable is set, and is 0 after reset. -/
def Obligations.InterruptOutput : Prop :=
  (∀ s t : State, exec .done s = .next t → t.irq = (s.ctrl.ieDone || (s.ctrl.ieErr && s.status.err))) ∧
  (∀ (i : Instr) (s t : State), s.status.err = false → exec i s = .next t → t.status.err = true →
    t.irq = (s.ctrl.ieErr || (s.ctrl.ieDone && s.status.done))) ∧
  State.reset.irq = false ∧
  (∀ s : State, s.irq = true ↔
    (s.ctrl.ieDone = true ∧ s.status.done = true) ∨ (s.ctrl.ieErr = true ∧ s.status.err = true))

end
end

