-- ==== Sys2Proof/Laws/Decode.lean ====
section
/-! SUPPORT. The bits of an encoded command, and what `decode` answers. -/

namespace Sys2Proof

/-- A bit of two fields side by side. -/
theorem bit_append {n m : Nat} (x : BitVec n) (y : BitVec m) (k : Nat) :
    (x ++ y).getLsbD k = if k < m then y.getLsbD k else x.getLsbD (k - m) := by
  rw [BitVec.getLsbD_append]

/-- Two fields side by side, as numbers. -/
theorem toNat_fields {n m : Nat} (x : BitVec n) (y : BitVec m) : (x ++ y).toNat = x.toNat * 2 ^ m + y.toNat := by
  rw [BitVec.toNat_append, ← Nat.shiftLeft_add_eq_or_of_lt y.isLt, Nat.shiftLeft_eq]

/-- A field of a word, as a number. -/
theorem toNat_field {w : Nat} (x : BitVec w) (lo n : Nat) : (x.extractLsb' lo n).toNat = x.toNat / 2 ^ lo % 2 ^ n := by
  rw [BitVec.extractLsb'_toNat, Nat.shiftRight_eq_div_pow]

/-- A word whose 32 bits are 0 is 0. -/
theorem word_eq_zero {w : Word} (h : ∀ k < 32, w.getLsbD k = false) : w = 0#32 := by
  refine BitVec.eq_of_getLsbD_eq fun k hk => ?_
  rw [h k hk, BitVec.getLsbD_zero]

/-- A bit that a mask selects is 0 where the masked word is 0. -/
theorem bit_of_and_eq_zero {w r : Word} (h : w &&& r = 0#32) {k : Nat} (hr : r.getLsbD k = true) : w.getLsbD k = false := by
  have := congrArg (fun x : Word => x.getLsbD k) h
  simpa [BitVec.getLsbD_and, hr] using this

/-- A reserved mask of 0 reserves nothing. -/
theorem and_zero_word (w : Word) : w &&& 0x00000000#32 = 0#32 := by simp

/-- What `decode` answers, in one equation. -/
theorem decode_of_row {w : Word} {row : OpcodeRow} (h : opcodeRow (opcOf w) = some row) :
    decode w = if w &&& row.reserved ≠ 0#32 then .reject .reservedBit
      else if (row.command w).wf then .command (row.command w) else .reject .chromaRow := by
  simp only [decode, h]

/-- A word decodes to a command exactly when its row's reserved bits are 0 and the row's command is well formed. -/
theorem decode_eq_command_iff (w : Word) (i : Instr) :
    decode w = .command i ↔
      ∃ row, opcodeRow (opcOf w) = some row ∧ w &&& row.reserved = 0#32 ∧ row.command w = i ∧ i.wf = true := by
  cases h : opcodeRow (opcOf w) with
  | none => simp [decode, h]
  | some row =>
    rw [decode_of_row h]
    by_cases hr : w &&& row.reserved = 0#32
    · by_cases hw : (row.command w).wf = true
      · simp only [hr, ne_eq, not_true_eq_false, if_false, hw, if_true, Decoded.command.injEq, Option.some.injEq]
        constructor
        · rintro rfl
          exact ⟨row, rfl, hr, rfl, hw⟩
        · rintro ⟨_, rfl, _, rfl, _⟩
          rfl
      · simp only [hr, ne_eq, not_true_eq_false, if_false, hw, Bool.false_eq_true, reduceCtorEq, Option.some.injEq, false_iff]
        rintro ⟨_, rfl, _, rfl, hw'⟩
        exact hw hw'
    · simp only [ne_eq, hr, not_false_eq_true, if_true, reduceCtorEq, Option.some.injEq, false_iff]
      rintro ⟨_, rfl, hr', _⟩
      exact hr hr'

end Sys2Proof
end

