-- ==== Sys2Proof/Laws/Memory.lean ====
section
/-! SUPPORT. PIXMEM: a read after a write, the canonical form, and that every memory operation keeps it. -/

namespace Sys2Proof.Machine

@[simp] theorem Memory.read_nil (x : Nat) : Memory.read [] x = 0#8 := rfl

theorem Memory.read_cons (c : Host.Cell) (m : Memory) (x : Nat) :
    Memory.read (c :: m) x = if x = c.1 then c.2 else Memory.read m x := rfl

/-- An address that is not listed reads as the unlisted byte. -/
theorem Memory.read_of_not_listed {m : Memory} {x : Nat} (h : ∀ c ∈ m, c.1 ≠ x) : m.read x = Memory.unlisted := by
  induction m with
  | nil => rfl
  | cons c m ih =>
    rw [Memory.read_cons, if_neg (fun e => h c (by simp) e.symm), ih (fun d hd => h d (by simp [hd]))]

theorem Memory.wf_tail {c : Host.Cell} {m : Memory} (h : Memory.wf (c :: m)) : Memory.wf m :=
  ⟨(List.pairwise_cons.1 h.1).2, fun d hd => h.2 d (by simp [hd])⟩

theorem Memory.wf_lt {c : Host.Cell} {m : Memory} (h : Memory.wf (c :: m)) : ∀ d ∈ m, c.1 < d.1 :=
  (List.pairwise_cons.1 h.1).1

theorem Memory.mem_cons {a : Nat} {v : Byte} {m : Memory} {c : Host.Cell} (h : c ∈ Memory.cons a v m) :
    c = (a, v) ∨ c ∈ m := by
  unfold Memory.cons at h
  split at h
  · exact .inr h
  · simpa using h

theorem Memory.cons_wf {a : Nat} {v : Byte} {m : Memory} (h : m.wf) (hlt : ∀ d ∈ m, a < d.1) : (Memory.cons a v m).wf := by
  unfold Memory.cons
  split
  · exact h
  · exact ⟨List.pairwise_cons.2 ⟨hlt, h.1⟩, fun c hc => by
      rcases List.mem_cons.1 hc with rfl | hc
      · assumption
      · exact h.2 c hc⟩

theorem Memory.read_put {a : Nat} {v : Byte} {m : Memory} (hlt : ∀ d ∈ m, a < d.1) (x : Nat) :
    (Memory.cons a v m).read x = if x = a then v else m.read x := by
  unfold Memory.cons
  split
  · split
    · rename_i hv hx
      rw [hv, hx, Memory.read_of_not_listed (fun d hd => (hlt d hd).ne')]
    · rfl
  · exact Memory.read_cons _ _ _

/-- A cell of a written memory is the cell written or an old cell. -/
theorem Memory.mem_write {m : Memory} {a : Nat} {v : Byte} {c : Host.Cell} (h : c ∈ m.write a v) : c = (a, v) ∨ c ∈ m := by
  induction m with
  | nil => exact Memory.mem_cons h
  | cons d m ih =>
    simp only [Memory.write] at h
    split at h
    · exact Memory.mem_cons h
    · split at h
      · exact (Memory.mem_cons h).imp_right (List.mem_cons_of_mem _)
      · rcases List.mem_cons.1 h with rfl | h
        · exact .inr (by simp)
        · exact (ih h).imp_right (List.mem_cons_of_mem _)

/-- A write keeps the canonical form. -/
theorem Memory.write_wf {m : Memory} (h : m.wf) (a : Nat) (v : Byte) : (m.write a v).wf := by
  induction m with
  | nil => exact Memory.cons_wf h (by simp)
  | cons d m ih =>
    have hd := Memory.wf_lt h
    simp only [Memory.write]
    split
    · rename_i hlt
      refine Memory.cons_wf h fun e he => ?_
      rcases List.mem_cons.1 he with rfl | he
      · exact hlt
      · exact hlt.trans (hd e he)
    · split
      · rename_i heq
        exact Memory.cons_wf (Memory.wf_tail h) (by simpa [heq] using hd)
      · rename_i hnlt hne
        refine ⟨List.pairwise_cons.2 ⟨fun e he => ?_, (ih (Memory.wf_tail h)).1⟩, fun e he => ?_⟩
        · rcases Memory.mem_write he with rfl | he
          · exact lt_of_le_of_ne (not_lt.1 hnlt) (fun e => hne e.symm)
          · exact hd e he
        · rcases List.mem_cons.1 he with rfl | he
          · exact h.2 _ (by simp)
          · exact (ih (Memory.wf_tail h)).2 e he

/-- A read after a write: the byte written at its address, the old byte elsewhere. -/
theorem Memory.read_write {m : Memory} (h : m.wf) (a : Nat) (v : Byte) (x : Nat) :
    (m.write a v).read x = if x = a then v else m.read x := by
  induction m with
  | nil => exact Memory.read_put (by simp) x
  | cons d m ih =>
    have hd := Memory.wf_lt h
    simp only [Memory.write]
    split
    · rename_i hlt
      refine Memory.read_put (fun e he => ?_) x
      rcases List.mem_cons.1 he with rfl | he
      · exact hlt
      · exact hlt.trans (hd e he)
    · split
      · rename_i heq
        rw [Memory.read_put (by simpa [heq] using hd), Memory.read_cons]
        by_cases hx : x = a
        · simp [hx]
        · rw [if_neg hx, if_neg hx, if_neg (fun e => hx (e.trans heq.symm))]
      · rename_i hnlt hne
        rw [Memory.read_cons, Memory.read_cons, ih (Memory.wf_tail h)]
        by_cases hx : x = d.1
        · rw [if_pos hx, if_pos hx, if_neg (fun e => hne (e.symm.trans hx))]
        · rw [if_neg hx, if_neg hx]

/-- `ofCells` makes a canonical memory with no byte outside 0..n-1. -/
theorem Memory.ofCells_wf (n : Nat) (cells : List Host.Cell) :
    (Memory.ofCells n cells).wf ∧ ∀ c ∈ Memory.ofCells n cells, c.1 < n := by
  suffices H : ∀ m : Memory, m.wf → (∀ c ∈ m, c.1 < n) →
      (cells.foldl (fun m c => if c.1 < n then Memory.write m c.1 c.2 else m) m).wf ∧
      ∀ c ∈ cells.foldl (fun m c => if c.1 < n then Memory.write m c.1 c.2 else m) m, c.1 < n from
    H [] ⟨.nil, by simp⟩ (by simp)
  induction cells with
  | nil => exact fun m h1 h2 => ⟨h1, h2⟩
  | cons d cells ih =>
    intro m h1 h2
    rw [List.foldl_cons]
    refine ih _ ?_ ?_
    · split
      · exact Memory.write_wf h1 _ _
      · exact h1
    · split
      · rename_i hlt
        intro c hc
        rcases Memory.mem_write hc with rfl | hc
        · exact hlt
        · exact h2 c hc
      · exact h2

end Sys2Proof.Machine
end

