-- ==== Sys2Proof/Laws/State.lean ====
section
/-! SUPPORT. One lemma per field per named update of the state: what the update writes and what it leaves. -/

namespace Sys2Proof.Machine

section
variable (s : State)

/-! ### `setReg` -/

@[simp] theorem State.setReg_regs (r : Reg) (v : Word) : (s.setReg r v).regs = s.regs.set r.toNat v r.isLt := rfl
@[simp] theorem State.setReg_cmdq (r : Reg) (v : Word) : (s.setReg r v).cmdq = s.cmdq := rfl
@[simp] theorem State.setReg_ctrl (r : Reg) (v : Word) : (s.setReg r v).ctrl = s.ctrl := rfl
@[simp] theorem State.setReg_status (r : Reg) (v : Word) : (s.setReg r v).status = s.status := rfl
@[simp] theorem State.setReg_pitch (r : Reg) (v : Word) : (s.setReg r v).pitch = s.pitch := rfl
@[simp] theorem State.setReg_sbbase (r : Reg) (v : Word) : (s.setReg r v).sbbase = s.sbbase := rfl
@[simp] theorem State.setReg_cmdcnt (r : Reg) (v : Word) : (s.setReg r v).cmdcnt = s.cmdcnt := rfl
@[simp] theorem State.setReg_errcmd (r : Reg) (v : Word) : (s.setReg r v).errcmd = s.errcmd := rfl
@[simp] theorem State.setReg_errinfo (r : Reg) (v : Word) : (s.setReg r v).errinfo = s.errinfo := rfl
@[simp] theorem State.setReg_masks (r : Reg) (v : Word) : (s.setReg r v).masks = s.masks := rfl
@[simp] theorem State.setReg_lut (r : Reg) (v : Word) : (s.setReg r v).lut = s.lut := rfl
@[simp] theorem State.setReg_lvltab (r : Reg) (v : Word) : (s.setReg r v).lvltab = s.lvltab := rfl
@[simp] theorem State.setReg_lvlu (r : Reg) (v : Word) : (s.setReg r v).lvlu = s.lvlu := rfl
@[simp] theorem State.setReg_pix (r : Reg) (v : Word) : (s.setReg r v).pix = s.pix := rfl
@[simp] theorem State.setReg_cfg (r : Reg) (v : Word) : (s.setReg r v).cfg = s.cfg := rfl
@[simp] theorem State.setReg_pending (r : Reg) (v : Word) : (s.setReg r v).pending = s.pending := rfl
@[simp] theorem State.setReg_reply (r : Reg) (v : Word) : (s.setReg r v).reply = s.reply := rfl

/-! ### `setLut` -/

@[simp] theorem State.setLut_regs (l : Level) (e : LutEntry) : (s.setLut l e).regs = s.regs := rfl
@[simp] theorem State.setLut_cmdq (l : Level) (e : LutEntry) : (s.setLut l e).cmdq = s.cmdq := rfl
@[simp] theorem State.setLut_ctrl (l : Level) (e : LutEntry) : (s.setLut l e).ctrl = s.ctrl := rfl
@[simp] theorem State.setLut_status (l : Level) (e : LutEntry) : (s.setLut l e).status = s.status := rfl
@[simp] theorem State.setLut_pitch (l : Level) (e : LutEntry) : (s.setLut l e).pitch = s.pitch := rfl
@[simp] theorem State.setLut_sbbase (l : Level) (e : LutEntry) : (s.setLut l e).sbbase = s.sbbase := rfl
@[simp] theorem State.setLut_cmdcnt (l : Level) (e : LutEntry) : (s.setLut l e).cmdcnt = s.cmdcnt := rfl
@[simp] theorem State.setLut_errcmd (l : Level) (e : LutEntry) : (s.setLut l e).errcmd = s.errcmd := rfl
@[simp] theorem State.setLut_errinfo (l : Level) (e : LutEntry) : (s.setLut l e).errinfo = s.errinfo := rfl
@[simp] theorem State.setLut_masks (l : Level) (e : LutEntry) : (s.setLut l e).masks = s.masks := rfl
@[simp] theorem State.setLut_lut (l : Level) (e : LutEntry) : (s.setLut l e).lut = s.lut.set l.toNat e l.isLt := rfl
@[simp] theorem State.setLut_lvltab (l : Level) (e : LutEntry) : (s.setLut l e).lvltab = s.lvltab := rfl
@[simp] theorem State.setLut_lvlu (l : Level) (e : LutEntry) : (s.setLut l e).lvlu = s.lvlu := rfl
@[simp] theorem State.setLut_pix (l : Level) (e : LutEntry) : (s.setLut l e).pix = s.pix := rfl
@[simp] theorem State.setLut_cfg (l : Level) (e : LutEntry) : (s.setLut l e).cfg = s.cfg := rfl
@[simp] theorem State.setLut_pending (l : Level) (e : LutEntry) : (s.setLut l e).pending = s.pending := rfl
@[simp] theorem State.setLut_reply (l : Level) (e : LutEntry) : (s.setLut l e).reply = s.reply := rfl

/-! ### `setLvltab` -/

@[simp] theorem State.setLvltab_regs (l v : Level) : (s.setLvltab l v).regs = s.regs := rfl
@[simp] theorem State.setLvltab_cmdq (l v : Level) : (s.setLvltab l v).cmdq = s.cmdq := rfl
@[simp] theorem State.setLvltab_ctrl (l v : Level) : (s.setLvltab l v).ctrl = s.ctrl := rfl
@[simp] theorem State.setLvltab_status (l v : Level) : (s.setLvltab l v).status = s.status := rfl
@[simp] theorem State.setLvltab_pitch (l v : Level) : (s.setLvltab l v).pitch = s.pitch := rfl
@[simp] theorem State.setLvltab_sbbase (l v : Level) : (s.setLvltab l v).sbbase = s.sbbase := rfl
@[simp] theorem State.setLvltab_cmdcnt (l v : Level) : (s.setLvltab l v).cmdcnt = s.cmdcnt := rfl
@[simp] theorem State.setLvltab_errcmd (l v : Level) : (s.setLvltab l v).errcmd = s.errcmd := rfl
@[simp] theorem State.setLvltab_errinfo (l v : Level) : (s.setLvltab l v).errinfo = s.errinfo := rfl
@[simp] theorem State.setLvltab_masks (l v : Level) : (s.setLvltab l v).masks = s.masks := rfl
@[simp] theorem State.setLvltab_lut (l v : Level) : (s.setLvltab l v).lut = s.lut := rfl
@[simp] theorem State.setLvltab_lvltab (l v : Level) : (s.setLvltab l v).lvltab = s.lvltab.set l.toNat v l.isLt := rfl
@[simp] theorem State.setLvltab_lvlu (l v : Level) : (s.setLvltab l v).lvlu = s.lvlu := rfl
@[simp] theorem State.setLvltab_pix (l v : Level) : (s.setLvltab l v).pix = s.pix := rfl
@[simp] theorem State.setLvltab_cfg (l v : Level) : (s.setLvltab l v).cfg = s.cfg := rfl
@[simp] theorem State.setLvltab_pending (l v : Level) : (s.setLvltab l v).pending = s.pending := rfl
@[simp] theorem State.setLvltab_reply (l v : Level) : (s.setLvltab l v).reply = s.reply := rfl

/-! ### `setUnits` -/

@[simp] theorem State.setUnits_regs (q : BitVec 4) (v : Word) : (s.setUnits q v).regs = s.regs := rfl
@[simp] theorem State.setUnits_cmdq (q : BitVec 4) (v : Word) : (s.setUnits q v).cmdq = s.cmdq := rfl
@[simp] theorem State.setUnits_ctrl (q : BitVec 4) (v : Word) : (s.setUnits q v).ctrl = s.ctrl := rfl
@[simp] theorem State.setUnits_status (q : BitVec 4) (v : Word) : (s.setUnits q v).status = s.status := rfl
@[simp] theorem State.setUnits_pitch (q : BitVec 4) (v : Word) : (s.setUnits q v).pitch = s.pitch := rfl
@[simp] theorem State.setUnits_sbbase (q : BitVec 4) (v : Word) : (s.setUnits q v).sbbase = s.sbbase := rfl
@[simp] theorem State.setUnits_cmdcnt (q : BitVec 4) (v : Word) : (s.setUnits q v).cmdcnt = s.cmdcnt := rfl
@[simp] theorem State.setUnits_errcmd (q : BitVec 4) (v : Word) : (s.setUnits q v).errcmd = s.errcmd := rfl
@[simp] theorem State.setUnits_errinfo (q : BitVec 4) (v : Word) : (s.setUnits q v).errinfo = s.errinfo := rfl
@[simp] theorem State.setUnits_masks (q : BitVec 4) (v : Word) : (s.setUnits q v).masks = s.masks := rfl
@[simp] theorem State.setUnits_lut (q : BitVec 4) (v : Word) : (s.setUnits q v).lut = s.lut := rfl
@[simp] theorem State.setUnits_lvltab (q : BitVec 4) (v : Word) : (s.setUnits q v).lvltab = s.lvltab := rfl
@[simp] theorem State.setUnits_lvlu (q : BitVec 4) (v : Word) : (s.setUnits q v).lvlu = putUnits s.lvlu q v := rfl
@[simp] theorem State.setUnits_pix (q : BitVec 4) (v : Word) : (s.setUnits q v).pix = s.pix := rfl
@[simp] theorem State.setUnits_cfg (q : BitVec 4) (v : Word) : (s.setUnits q v).cfg = s.cfg := rfl
@[simp] theorem State.setUnits_pending (q : BitVec 4) (v : Word) : (s.setUnits q v).pending = s.pending := rfl
@[simp] theorem State.setUnits_reply (q : BitVec 4) (v : Word) : (s.setUnits q v).reply = s.reply := rfl

/-! ### `enterError` -/

@[simp] theorem State.enterError_regs (w : Word) (c : ErrCode) (x : Word) : (s.enterError w c x).regs = s.regs := rfl
@[simp] theorem State.enterError_cmdq (w : Word) (c : ErrCode) (x : Word) : (s.enterError w c x).cmdq = s.cmdq := rfl
@[simp] theorem State.enterError_ctrl (w : Word) (c : ErrCode) (x : Word) : (s.enterError w c x).ctrl = s.ctrl := rfl
@[simp] theorem State.enterError_status (w : Word) (c : ErrCode) (x : Word) : (s.enterError w c x).status = { s.status with err := true, errcode := c.code } := rfl
@[simp] theorem State.enterError_pitch (w : Word) (c : ErrCode) (x : Word) : (s.enterError w c x).pitch = s.pitch := rfl
@[simp] theorem State.enterError_sbbase (w : Word) (c : ErrCode) (x : Word) : (s.enterError w c x).sbbase = s.sbbase := rfl
@[simp] theorem State.enterError_cmdcnt (w : Word) (c : ErrCode) (x : Word) : (s.enterError w c x).cmdcnt = s.cmdcnt := rfl
@[simp] theorem State.enterError_errcmd (w : Word) (c : ErrCode) (x : Word) : (s.enterError w c x).errcmd = w := rfl
@[simp] theorem State.enterError_errinfo (w : Word) (c : ErrCode) (x : Word) : (s.enterError w c x).errinfo = x := rfl
@[simp] theorem State.enterError_masks (w : Word) (c : ErrCode) (x : Word) : (s.enterError w c x).masks = s.masks := rfl
@[simp] theorem State.enterError_lut (w : Word) (c : ErrCode) (x : Word) : (s.enterError w c x).lut = s.lut := rfl
@[simp] theorem State.enterError_lvltab (w : Word) (c : ErrCode) (x : Word) : (s.enterError w c x).lvltab = s.lvltab := rfl
@[simp] theorem State.enterError_lvlu (w : Word) (c : ErrCode) (x : Word) : (s.enterError w c x).lvlu = s.lvlu := rfl
@[simp] theorem State.enterError_pix (w : Word) (c : ErrCode) (x : Word) : (s.enterError w c x).pix = s.pix := rfl
@[simp] theorem State.enterError_cfg (w : Word) (c : ErrCode) (x : Word) : (s.enterError w c x).cfg = s.cfg := rfl
@[simp] theorem State.enterError_pending (w : Word) (c : ErrCode) (x : Word) : (s.enterError w c x).pending = s.pending := rfl
@[simp] theorem State.enterError_reply (w : Word) (c : ErrCode) (x : Word) : (s.enterError w c x).reply = s.reply := rfl

/-! ### `clearError` -/

@[simp] theorem State.clearError_regs : (s.clearError).regs = s.regs := rfl
@[simp] theorem State.clearError_cmdq : (s.clearError).cmdq = s.cmdq := rfl
@[simp] theorem State.clearError_ctrl : (s.clearError).ctrl = s.ctrl := rfl
@[simp] theorem State.clearError_status : (s.clearError).status = { s.status with err := false, errcode := 0#8 } := rfl
@[simp] theorem State.clearError_pitch : (s.clearError).pitch = s.pitch := rfl
@[simp] theorem State.clearError_sbbase : (s.clearError).sbbase = s.sbbase := rfl
@[simp] theorem State.clearError_cmdcnt : (s.clearError).cmdcnt = s.cmdcnt := rfl
@[simp] theorem State.clearError_errcmd : (s.clearError).errcmd = s.errcmd := rfl
@[simp] theorem State.clearError_errinfo : (s.clearError).errinfo = s.errinfo := rfl
@[simp] theorem State.clearError_masks : (s.clearError).masks = s.masks := rfl
@[simp] theorem State.clearError_lut : (s.clearError).lut = s.lut := rfl
@[simp] theorem State.clearError_lvltab : (s.clearError).lvltab = s.lvltab := rfl
@[simp] theorem State.clearError_lvlu : (s.clearError).lvlu = s.lvlu := rfl
@[simp] theorem State.clearError_pix : (s.clearError).pix = s.pix := rfl
@[simp] theorem State.clearError_cfg : (s.clearError).cfg = s.cfg := rfl
@[simp] theorem State.clearError_pending : (s.clearError).pending = s.pending := rfl
@[simp] theorem State.clearError_reply : (s.clearError).reply = s.reply := rfl

/-! ### `retire` -/

@[simp] theorem State.retire_regs : (s.retire).regs = s.regs := rfl
@[simp] theorem State.retire_cmdq : (s.retire).cmdq = s.cmdq := rfl
@[simp] theorem State.retire_ctrl : (s.retire).ctrl = s.ctrl := rfl
@[simp] theorem State.retire_status : (s.retire).status = s.status := rfl
@[simp] theorem State.retire_pitch : (s.retire).pitch = s.pitch := rfl
@[simp] theorem State.retire_sbbase : (s.retire).sbbase = s.sbbase := rfl
@[simp] theorem State.retire_cmdcnt : (s.retire).cmdcnt = s.cmdcnt + 1#32 := rfl
@[simp] theorem State.retire_errcmd : (s.retire).errcmd = s.errcmd := rfl
@[simp] theorem State.retire_errinfo : (s.retire).errinfo = s.errinfo := rfl
@[simp] theorem State.retire_masks : (s.retire).masks = s.masks := rfl
@[simp] theorem State.retire_lut : (s.retire).lut = s.lut := rfl
@[simp] theorem State.retire_lvltab : (s.retire).lvltab = s.lvltab := rfl
@[simp] theorem State.retire_lvlu : (s.retire).lvlu = s.lvlu := rfl
@[simp] theorem State.retire_pix : (s.retire).pix = s.pix := rfl
@[simp] theorem State.retire_cfg : (s.retire).cfg = s.cfg := rfl
@[simp] theorem State.retire_pending : (s.retire).pending = s.pending := rfl
@[simp] theorem State.retire_reply : (s.retire).reply = s.reply := rfl

/-! ### `writeCtrl` -/

@[simp] theorem State.writeCtrl_regs (v : Word) : (s.writeCtrl v).regs = s.regs := rfl
@[simp] theorem State.writeCtrl_cmdq (v : Word) : (s.writeCtrl v).cmdq = if v.getLsbD 2 then [] else s.cmdq := rfl
@[simp] theorem State.writeCtrl_ctrl (v : Word) : (s.writeCtrl v).ctrl = ⟨v.getLsbD 0, v.getLsbD 1⟩ := rfl
@[simp] theorem State.writeCtrl_status (v : Word) : (s.writeCtrl v).status = s.status := rfl
@[simp] theorem State.writeCtrl_pitch (v : Word) : (s.writeCtrl v).pitch = s.pitch := rfl
@[simp] theorem State.writeCtrl_sbbase (v : Word) : (s.writeCtrl v).sbbase = s.sbbase := rfl
@[simp] theorem State.writeCtrl_cmdcnt (v : Word) : (s.writeCtrl v).cmdcnt = s.cmdcnt := rfl
@[simp] theorem State.writeCtrl_errcmd (v : Word) : (s.writeCtrl v).errcmd = s.errcmd := rfl
@[simp] theorem State.writeCtrl_errinfo (v : Word) : (s.writeCtrl v).errinfo = s.errinfo := rfl
@[simp] theorem State.writeCtrl_masks (v : Word) : (s.writeCtrl v).masks = s.masks := rfl
@[simp] theorem State.writeCtrl_lut (v : Word) : (s.writeCtrl v).lut = s.lut := rfl
@[simp] theorem State.writeCtrl_lvltab (v : Word) : (s.writeCtrl v).lvltab = s.lvltab := rfl
@[simp] theorem State.writeCtrl_lvlu (v : Word) : (s.writeCtrl v).lvlu = s.lvlu := rfl
@[simp] theorem State.writeCtrl_pix (v : Word) : (s.writeCtrl v).pix = s.pix := rfl
@[simp] theorem State.writeCtrl_cfg (v : Word) : (s.writeCtrl v).cfg = s.cfg := rfl
@[simp] theorem State.writeCtrl_pending (v : Word) : (s.writeCtrl v).pending = s.pending := rfl
@[simp] theorem State.writeCtrl_reply (v : Word) : (s.writeCtrl v).reply = s.reply := rfl

end

/-- A write of `STATUS` writes no other field. -/
theorem State.writeStatus_eq (s : State) (v : Word) :
    s.writeStatus v = { s with status :=
      { done := s.status.done && !v.getLsbD 0
        err := s.status.err && !v.getLsbD 1
        errcode := if v.getLsbD 1 then 0#8 else s.status.errcode } } := by
  obtain ⟨_, _, _, ⟨d, e, c⟩⟩ := s
  unfold State.writeStatus State.clearError
  cases v.getLsbD 0 <;> cases v.getLsbD 1 <;> simp

/-- Equal fields make equal states. -/
theorem State.eq_of_fields {s t : State} (h1 : s.regs = t.regs) (h2 : s.cmdq = t.cmdq) (h3 : s.ctrl = t.ctrl)
    (h4 : s.status = t.status) (h5 : s.pitch = t.pitch) (h6 : s.sbbase = t.sbbase) (h7 : s.cmdcnt = t.cmdcnt)
    (h8 : s.errcmd = t.errcmd) (h9 : s.errinfo = t.errinfo) (h10 : s.masks = t.masks) (h11 : s.lut = t.lut)
    (h12 : s.lvltab = t.lvltab) (h13 : s.lvlu = t.lvlu) (h14 : s.pix = t.pix) (h15 : s.cfg = t.cfg)
    (h16 : s.pending = t.pending) (h17 : s.reply = t.reply) : s = t := by
  cases s; cases t; simp_all

end Sys2Proof.Machine
end

