-- ==== Sys2Proof/Laws/Ops.lean ====
section
/-! SUPPORT. One lemma per shared operation: registers, tables, masks, the range check, error entry and completion. -/

namespace Sys2Proof.Machine

/-! ### Argument registers -/

theorem State.reg_setReg (s : State) (r r' : Reg) (v : Word) : (s.setReg r v).reg r' = if r' = r then v else s.reg r' := by
  unfold State.reg State.setReg
  rw [Vector.getElem_set]
  simp only [BitVec.toNat_inj, eq_comm]

@[simp] theorem State.reg_setReg_self (s : State) (r : Reg) (v : Word) : (s.setReg r v).reg r = v := by
  rw [State.reg_setReg, if_pos rfl]

theorem State.reg_setReg_ne (s : State) {r r' : Reg} (v : Word) (h : r' ≠ r) : (s.setReg r v).reg r' = s.reg r' := by
  rw [State.reg_setReg, if_neg h]

@[simp] theorem State.reg_retire (s : State) (r : Reg) : s.retire.reg r = s.reg r := rfl

/-! ### Tables -/

theorem State.lutAt_setLut (s : State) (l l' : Level) (e : LutEntry) :
    (s.setLut l e).lutAt l' = if l' = l then e else s.lutAt l' := by
  unfold State.lutAt State.setLut
  rw [Vector.getElem_set]
  simp only [BitVec.toNat_inj, eq_comm]

theorem State.lvltabAt_setLvltab (s : State) (l l' v : Level) :
    (s.setLvltab l v).lvltabAt l' = if l' = l then v else s.lvltabAt l' := by
  unfold State.lvltabAt State.setLvltab
  rw [Vector.getElem_set]
  simp only [BitVec.toNat_inj, eq_comm]

/-- `putUnits` writes the four entries of its group and no other. -/
theorem getElem_putUnits (t : Vector Level 64) (q : BitVec 4) (v : Word) (n : Nat) (h : n < 64) :
    (putUnits t q v)[n] = if n / 4 = q.toNat then v.extractLsb' (8 * (n % 4)) 6 else t[n] := by
  simp only [putUnits, List.foldl_cons, List.foldl_nil, Vector.getElem_setIfInBounds]
  have hq := q.isLt
  by_cases hn : n / 4 = q.toNat
  · rw [if_pos hn]
    have hm : n % 4 = 0 ∨ n % 4 = 1 ∨ n % 4 = 2 ∨ n % 4 = 3 := by omega
    rcases hm with hm | hm | hm | hm
    · rw [if_neg (by omega), if_neg (by omega), if_neg (by omega), if_pos (by omega), hm]
    · rw [if_neg (by omega), if_neg (by omega), if_pos (by omega), hm]
    · rw [if_neg (by omega), if_pos (by omega), hm]
    · rw [if_pos (by omega), hm]
  · rw [if_neg hn, if_neg (by omega), if_neg (by omega), if_neg (by omega), if_neg (by omega)]

theorem State.unitLevel_eq (s : State) (n : Nat) (h : n < 64) : s.unitLevel n = s.lvlu[n] := by
  simp [State.unitLevel, h]

/-- The unit levels after `LVUW`: the group's four entries from the word's bytes, the others as before. -/
theorem State.unitLevel_setUnits (s : State) (q : BitVec 4) (v : Word) (n : Nat) (h : n < 64) :
    (s.setUnits q v).unitLevel n = if n / 4 = q.toNat then v.extractLsb' (8 * (n % 4)) 6 else s.unitLevel n := by
  rw [State.unitLevel_eq _ _ h, State.unitLevel_eq _ _ h]
  exact getElem_putUnits s.lvlu q v n h

/-! ### Masks -/

theorem Masks.get_set (m : Masks) (n n' : MaskName) (v : BitVec 64) :
    (m.set n v).get n' = if n' = n then v else m.get n' := by
  cases n <;> cases n' <;> rfl

theorem maskLo_append (a b : Word) : maskLo (a ++ b) = b := by
  refine BitVec.eq_of_getLsbD_eq fun i hi => ?_
  rw [maskLo, BitVec.getLsbD_extractLsb', Nat.zero_add]
  refine (congrArg _ (BitVec.getLsbD_append (x := a) (y := b) (i := i))).trans ?_
  simp [hi]

theorem maskHi_append (a b : Word) : maskHi (a ++ b) = a := by
  refine BitVec.eq_of_getLsbD_eq fun i hi => ?_
  rw [maskHi, BitVec.getLsbD_extractLsb']
  refine (congrArg _ (BitVec.getLsbD_append (x := a) (y := b) (i := 32 + i))).trans ?_
  simp [hi]

/-! ### The range check -/

theorem inPix_iff (c : Config) (a : Int) : inPix c a = true ↔ 0 ≤ a ∧ a < c.pixBytes := by
  simp [inPix]

theorem inRange_iff (c : Config) (fp : List Int) : inRange c fp = true ↔ ∀ a ∈ fp, 0 ≤ a ∧ a < c.pixBytes := by
  simp [inRange, inPix_iff]

theorem mem_footprint {dir : Dir} {pitch : BitVec 16} {a : Int} {lines : List Nat} {window : List Int} {x : Int} :
    x ∈ footprint dir pitch a lines window ↔
      ∃ j ∈ lines, ∃ k ∈ window, x = lineOrigin dir pitch a j + k * sampleStep dir pitch := by
  simp [footprint, eq_comm]

/-! ### Errors and completion -/

/-- The checks all pass exactly when none fails. -/
theorem firstError_eq_none_iff (l : List Check) : firstError l = none ↔ ∀ c ∈ l, c.1 = false := by
  induction l with
  | nil => simp [firstError]
  | cons c l ih =>
    obtain ⟨b, e⟩ := c
    cases b <;> simp [firstError, ih]

/-- The error is that of a failing check which every earlier check passes. -/
theorem firstError_eq_some_iff (l : List Check) (e : ErrCode × Word) :
    firstError l = some e ↔ ∃ pre post, l = pre ++ (true, e) :: post ∧ ∀ c ∈ pre, c.1 = false := by
  induction l with
  | nil => simp [firstError]
  | cons c l ih =>
    obtain ⟨b, e'⟩ := c
    cases b
    · simp only [firstError, Bool.false_eq_true, if_false, ih]
      constructor
      · rintro ⟨pre, post, rfl, h⟩
        exact ⟨(false, e') :: pre, post, rfl, by simpa using h⟩
      · rintro ⟨pre, post, h, hp⟩
        cases pre with
        | nil => simp at h
        | cons d pre =>
          obtain ⟨rfl, rfl⟩ := List.cons.inj h
          exact ⟨pre, post, rfl, fun c hc => hp c (by simp [hc])⟩
    · simp only [firstError, if_true]
      constructor
      · rintro h
        obtain rfl := Option.some.inj h
        exact ⟨[], l, rfl, by simp⟩
      · rintro ⟨pre, post, h, hp⟩
        cases pre with
        | nil => simp at h; rw [h.1]
        | cons d pre =>
          obtain ⟨rfl, rfl⟩ := List.cons.inj h
          exact absurd (hp (true, e') (by simp)) (by simp)

theorem firstError_cons (c : Check) (l : List Check) : firstError (c :: l) = if c.1 then some c.2 else firstError l := rfl

/-- Everything `settle` can do: enter the error of the first failing check, or answer the completed state. -/
theorem settle_cases {i : Instr} {checks : List Check} {before after t : State} (h : settle i checks before after = .next t) :
    (∃ code info, firstError checks = some (code, info) ∧ t = before.enterError (encode i) code info) ∨
      (firstError checks = none ∧ t = after) := by
  unfold settle at h
  split at h
  · exact .inl ⟨_, _, by assumption, by simpa using h.symm⟩
  · exact .inr ⟨by assumption, by simpa using h.symm⟩

theorem settle_error {i : Instr} {checks : List Check} {before after : State} {code : ErrCode} {info : Word}
    (h : firstError checks = some (code, info)) :
    settle i checks before after = .next (before.enterError (encode i) code info) := by
  simp [settle, h]

theorem settle_complete {i : Instr} {checks : List Check} {before after : State} (h : firstError checks = none) :
    settle i checks before after = .next after := by
  simp [settle, h]

@[simp] theorem settle_nil (i : Instr) (before after : State) : settle i [] before after = .next after := rfl

/-- `settle` always answers a next state. -/
theorem settle_next (i : Instr) (checks : List Check) (before after : State) :
    ∃ t, settle i checks before after = .next t := by
  unfold settle
  split <;> exact ⟨_, rfl⟩

/-- No error code is 0 or above 5. -/
theorem ErrCode.code_bounds (c : ErrCode) : 1 ≤ c.code.toNat ∧ c.code.toNat ≤ 5 := by
  cases c <;> decide

end Sys2Proof.Machine
end

