-- ==== Sys2Proof/Laws/Exec.lean ====
section
/-! SUPPORT. Every command is `settle` of its checks and of the state it leaves when they pass; what each completed command
keeps; and what a step can do. -/

namespace Sys2Proof.Machine

/-! ### `exec` in one form -/

/-- The checks of a command, in the order it makes them. -/
def checksOf (i : Instr) (s : State) : List Check :=
  match i with
  | .nop | .done | .pref _ | .li _ _ | .lih _ _ | .lutw _ _ | .lvlw _ _ | .lvlr _ _ | .lvuw _ _ | .lvur _ _ => []
  | .csrr _ csr =>
    match csrAt csr with
    | none => [(true, .csr, csr.setWidth 32)]
    | some _ => []
  | .csrw csr _ =>
    match csrAt csr with
    | none => [(true, .csr, csr.setWidth 32)]
    | some c => [(c.readOnly, .csr, csr.setWidth 32)]
  | .lutr _ idx => [lutCheck s idx]
  | .cls _ ra dir wide lvl =>
    [pitchCheck s, lutCheck s lvl,
      rangeCheck s (s.reg ra) (footprint dir s.pitch (s.reg ra).toNat lineZero (clsWindow wide))]
  | .k4 ra dir _ _ => rawChecks s ra dir window4
  | .k8 ra dir => rawChecks s ra dir window8
  | .k16 ra dir => rawChecks s ra dir window16
  | .lpf4 ra dir lvl => edgeChecks s ra dir lvl .f4
  | .lpf8 ra dir lvl => edgeChecks s ra dir lvl .f8
  | .lpf16 ra dir lvl => edgeChecks s ra dir lvl .f16
  | .dispatch dir plane row => dispatchChecks s dir plane row

/-- The state a command leaves when all its checks pass. -/
def completed (i : Instr) (s : State) : State :=
  match i with
  | .nop | .pref _ => s.retire
  | .done => { s with status := { s.status with done := true } }.retire
  | .li rd imm => (s.setReg rd (imm.setWidth 32)).retire
  | .lih rd imm => (s.setReg rd (imm ++ (s.reg rd).extractLsb' 0 16)).retire
  | .csrr rd csr =>
    match csrAt csr with
    | none => s
    | some c => (s.setReg rd (s.csrValue s.streamStatus c)).retire
  | .csrw csr rs =>
    match csrAt csr with
    | none => s
    | some c => csrwAfter s c (s.reg rs)
  | .lutw idx rs => (s.setLut idx (LutEntry.unpack (s.reg rs))).retire
  | .lutr rd idx => (s.setReg rd (s.lutAt idx).pack).retire
  | .lvlw idx rs => (s.setLvltab idx ((s.reg rs).extractLsb' 0 6)).retire
  | .lvlr rd idx => (s.setReg rd ((s.lvltabAt idx).setWidth 32)).retire
  | .lvuw q rs => (s.setUnits q (s.reg rs)).retire
  | .lvur rd q => (s.setReg rd (s.unitsWord q)).retire
  | .cls rd ra dir wide lvl =>
    (s.setReg rd (clsWord (s.lutAt lvl) wide (readLine s.pix (s.reg ra).toNat (sampleStep dir s.pitch)))).retire
  | .k4 ra dir m h => { s with pix := rawApply s ra dir window4 (filter4Line m h) }.retire
  | .k8 ra dir => { s with pix := rawApply s ra dir writes8 filter8 }.retire
  | .k16 ra dir => { s with pix := rawApply s ra dir writes16 filter16 }.retire
  | .lpf4 ra dir lvl => { s with pix := edgeApply s ra dir lvl .f4 }.retire
  | .lpf8 ra dir lvl => { s with pix := edgeApply s ra dir lvl .f8 }.retire
  | .lpf16 ra dir lvl => { s with pix := edgeApply s ra dir lvl .f16 }.retire
  | .dispatch dir plane row => { s with pix := applyEdges s dir (edgeList s dir plane row.toNat) s.pix }.retire

/-- Every command is `settle` of its checks and its completed state. -/
theorem exec_eq_settle (i : Instr) (s : State) : exec i s = settle i (checksOf i s) s (completed i s) := by
  cases i with
  | csrr rd csr =>
    show execCsrr rd csr s = _
    simp only [execCsrr, checksOf, completed]
    cases csrAt csr <;> rfl
  | csrw csr rs =>
    show execCsrw csr rs s = _
    simp only [execCsrw, checksOf, completed]
    cases csrAt csr <;> rfl
  | _ => rfl

/-- Everything `exec` can answer: a next state, which is an error entry or the completed state. -/
theorem exec_cases {i : Instr} {s t : State} (h : exec i s = .next t) :
    (∃ code info, firstError (checksOf i s) = some (code, info) ∧ t = s.enterError (encode i) code info) ∨
      (firstError (checksOf i s) = none ∧ t = completed i s) :=
  settle_cases (exec_eq_settle i s ▸ h)

theorem exec_error {i : Instr} {s : State} {code : ErrCode} {info : Word} (h : firstError (checksOf i s) = some (code, info)) :
    exec i s = .next (s.enterError (encode i) code info) := by
  rw [exec_eq_settle, settle_error h]

theorem exec_complete {i : Instr} {s : State} (h : firstError (checksOf i s) = none) : exec i s = .next (completed i s) := by
  rw [exec_eq_settle, settle_complete h]

/-- `exec` never stops. -/
theorem exec_next (i : Instr) (s : State) : ∃ t, exec i s = .next t := by
  rw [exec_eq_settle]
  exact settle_next _ _ _ _

/-! ### What a completed command keeps -/

/-- What a write of a CSR keeps. -/
theorem State.writeCsr_keeps (s : State) (c : Csr) (v : Word) :
    (s.writeCsr c v).regs = s.regs ∧ (s.writeCsr c v).lut = s.lut ∧ (s.writeCsr c v).lvltab = s.lvltab ∧
    (s.writeCsr c v).lvlu = s.lvlu ∧ (s.writeCsr c v).pix = s.pix ∧ (s.writeCsr c v).cfg = s.cfg ∧
    (s.writeCsr c v).pending = s.pending ∧ (s.writeCsr c v).reply = s.reply ∧ (s.writeCsr c v).errcmd = s.errcmd ∧
    (s.writeCsr c v).errinfo = s.errinfo := by
  cases c <;> simp [State.writeCsr, State.writeStatus_eq]

/-- What `CSRW` leaves is the written state, its count apart. -/
theorem csrwAfter_eq (s : State) (c : Csr) (v : Word) :
    csrwAfter s c v = { s.writeCsr c v with cmdcnt := if c = .cmdcnt then v else s.cmdcnt + 1#32 } := by
  unfold csrwAfter
  by_cases h : c = .cmdcnt
  · subst h; rfl
  · rw [if_neg h, if_neg h]
    cases c <;> first | rfl | (exact absurd rfl h) | simp [State.writeCsr, State.writeStatus_eq, State.retire]

/-- A write of a CSR leaves the queue as it was or empty. -/
theorem State.writeCsr_cmdq (s : State) (c : Csr) (v : Word) :
    (s.writeCsr c v).cmdq = s.cmdq ∨ (s.writeCsr c v).cmdq = [] := by
  cases c with
  | ctrl =>
    simp only [State.writeCsr, State.writeCtrl]
    split
    · exact .inr rfl
    · exact .inl rfl
  | _ => simp [State.writeCsr, State.writeStatus_eq]

/-- A completed command keeps the parameters and the port. -/
theorem completed_keeps_model (i : Instr) (s : State) :
    (completed i s).cfg = s.cfg ∧ (completed i s).pending = s.pending ∧ (completed i s).reply = s.reply := by
  cases i with
  | csrr rd csr => simp only [completed]; split <;> simp
  | csrw csr rs =>
    simp only [completed]
    split
    · simp
    · rw [csrwAfter_eq]
      have := s.writeCsr_keeps (by assumption) (s.reg rs)
      exact ⟨this.2.2.2.2.2.1, this.2.2.2.2.2.2.1, this.2.2.2.2.2.2.2.1⟩
  | _ => simp [completed]

/-- A completed command keeps the error record and never enters an error. -/
theorem completed_keeps_errors (i : Instr) (s : State) :
    (completed i s).errcmd = s.errcmd ∧ (completed i s).errinfo = s.errinfo ∧
    (s.status.err = false → (completed i s).status.err = false) ∧
    (s.status.errcode = 0#8 → (completed i s).status.errcode = 0#8) := by
  cases i with
  | csrr rd csr => simp only [completed]; split <;> simp
  | csrw csr rs =>
    simp only [completed]
    split
    · simp
    · rename_i c _
      rw [csrwAfter_eq]
      have := s.writeCsr_keeps c (s.reg rs)
      refine ⟨this.2.2.2.2.2.2.2.2.1, this.2.2.2.2.2.2.2.2.2, ?_, ?_⟩ <;> intro h <;>
        cases c <;> simp_all [State.writeCsr, State.writeStatus_eq]
  | _ => simp [completed]

/-- A completed command leaves the queue as it was or, after a flush, empty. -/
theorem completed_cmdq (i : Instr) (s : State) : (completed i s).cmdq = s.cmdq ∨ (completed i s).cmdq = [] := by
  cases i with
  | csrr rd csr => simp only [completed]; split <;> simp
  | csrw csr rs =>
    simp only [completed]
    split
    · simp
    · rw [csrwAfter_eq]
      exact s.writeCsr_cmdq _ _
  | _ => simp [completed]

/-! ### PIXMEM after a completed pixel command -/

section
variable (s : State) (ra : Reg) (dir : Dir) (lvl : Level)

theorem completed_k4_pix (m h : Bool) :
    (completed (.k4 ra dir m h) s).pix = rawApply s ra dir window4 (filter4Line m h) := by simp only [completed, State.retire_pix]
theorem completed_k8_pix : (completed (.k8 ra dir) s).pix = rawApply s ra dir writes8 filter8 := by simp only [completed, State.retire_pix]
theorem completed_k16_pix : (completed (.k16 ra dir) s).pix = rawApply s ra dir writes16 filter16 := by simp only [completed, State.retire_pix]
theorem completed_lpf4_pix : (completed (.lpf4 ra dir lvl) s).pix = edgeApply s ra dir lvl .f4 := by simp only [completed, State.retire_pix]
theorem completed_lpf8_pix : (completed (.lpf8 ra dir lvl) s).pix = edgeApply s ra dir lvl .f8 := by simp only [completed, State.retire_pix]
theorem completed_lpf16_pix : (completed (.lpf16 ra dir lvl) s).pix = edgeApply s ra dir lvl .f16 := by simp only [completed, State.retire_pix]
theorem completed_dispatch_pix (plane : Plane) (row : BitVec 3) :
    (completed (.dispatch dir plane row) s).pix = applyEdges s dir (edgeList s dir plane row.toNat) s.pix := by simp only [completed, State.retire_pix]

end

/-! ### What a step can do -/

/-- A word that is no command enters `E_ILLEGAL`. -/
theorem runWord_reject {w : Word} {why : Reject} (s : State) (h : decode w = .reject why) :
    runWord w s = .next (s.enterError w .illegal ((opcOf w).setWidth 32)) := by
  simp [runWord, h]

theorem runWord_command {w : Word} {i : Instr} (s : State) (h : decode w = .command i) : runWord w s = exec i s := by
  simp [runWord, h]

/-- Executing a word always answers a next state. -/
theorem runWord_next (w : Word) (s : State) : ∃ t, runWord w s = .next t := by
  cases h : decode w with
  | command i => rw [runWord_command s h]; exact exec_next i s
  | reject why => exact ⟨_, runWord_reject s h⟩

/-- Everything the block's turn can do: wait, or execute the head of the queue. -/
theorem blockTurn_cases (s : State) :
    ((s.cmdq = [] ∨ s.status.err = true) ∧ blockTurn s = .next s) ∨
      (∃ w rest, s.status.err = false ∧ s.cmdq = w :: rest ∧ blockTurn s = runWord w { s with cmdq := rest }) := by
  unfold blockTurn
  cases he : s.status.err with
  | true => exact .inl ⟨.inr rfl, by simp⟩
  | false =>
    cases hq : s.cmdq with
    | nil => exact .inl ⟨.inl rfl, by simp⟩
    | cons w rest => exact .inr ⟨w, rest, rfl, rfl, by simp⟩

theorem blockTurn_head {s : State} {w : Word} {rest : List Word} (he : s.status.err = false) (hq : s.cmdq = w :: rest) :
    blockTurn s = runWord w { s with cmdq := rest } := by
  simp [blockTurn, he, hq]

theorem blockTurn_waiting {s : State} (h : s.cmdq = [] ∨ s.status.err = true) : blockTurn s = .next s := by
  rcases blockTurn_cases s with ⟨_, h'⟩ | ⟨w, rest, he, hq, _⟩
  · exact h'
  · rcases h with h | h <;> simp_all

/-- The block's turn always answers a next state. -/
theorem blockTurn_next (s : State) : ∃ t, blockTurn s = .next t := by
  rcases blockTurn_cases s with ⟨_, h⟩ | ⟨w, rest, _, _, h⟩
  · exact ⟨s, h⟩
  · rw [h]; exact runWord_next _ _

/-- A block that is not halted takes a word: its turn leaves a shorter queue, and the parameters and the pending moves as they
were. -/
theorem blockTurn_takes {s : State} (he : s.status.err = false) (hq : s.cmdq ≠ []) :
    ∃ t, blockTurn s = .next t ∧ t.pending = s.pending ∧ t.cfg = s.cfg ∧ t.cmdq.length < s.cmdq.length := by
  obtain ⟨w, rest, hw⟩ := List.exists_cons_of_ne_nil hq
  rw [blockTurn_head he hw, hw]
  cases hd : decode w with
  | reject why => exact ⟨_, runWord_reject _ hd, rfl, rfl, Nat.lt_succ_self _⟩
  | command i =>
    obtain ⟨t, ht⟩ := exec_next i { s with cmdq := rest }
    refine ⟨t, (runWord_command _ hd).trans ht, ?_⟩
    rcases exec_cases ht with ⟨code, info, _, rfl⟩ | ⟨_, rfl⟩
    · exact ⟨rfl, rfl, Nat.lt_succ_self _⟩
    · have keeps := completed_keeps_model i { s with cmdq := rest }
      refine ⟨keeps.2.1, keeps.1, ?_⟩
      rcases completed_cmdq i { s with cmdq := rest } with h | h <;> rw [h] <;> simp

/-- A push with room. -/
theorem pushTurn_room {s : State} (h : s.cmdq.length < s.cfg.cmdqDepth) (w : Word) (rest : List Move) :
    pushTurn w rest s = .next { s with cmdq := s.cmdq ++ [w], pending := rest } := by
  simp [pushTurn, State.canPush, h, State.push]

/-- A push without room gives its turn to the block. -/
theorem pushTurn_full {s : State} (h : s.cfg.cmdqDepth ≤ s.cmdq.length) (w : Word) (rest : List Move) :
    pushTurn w rest s = blockTurn s := by
  simp [pushTurn, State.canPush, Nat.not_lt.2 h]

theorem step_block {s : State} (h : s.pending = []) : step s = blockTurn s := by
  simp [step, takeTurn, h]

/-- A `.block` move is the block's turn, and is gone. -/
theorem step_blockMove {s : State} {rest : List Move} (h : s.pending = .block :: rest) :
    step s = blockTurn { s with pending := rest } := by
  simp [step, takeTurn, h, moveTurn]

theorem step_move {s : State} {m : Move} {rest : List Move} (h : s.pending = m :: rest) : step s = moveTurn m rest s := by
  simp [step, takeTurn, h]

/-! ### Several steps -/

theorem run_zero (s : State) : Host.Core.run core 0 s = .next s := rfl

/-- A run whose first step answers a next state goes on from there. -/
theorem run_succ {s t : State} (h : step s = .next t) (k : Nat) : Host.Core.run core (k + 1) s = Host.Core.run core k t := by
  have h' : core.step s = .next t := h
  simp only [Host.Core.run, h']

/-- A step that changes nothing can be taken any number of times. -/
theorem run_stutter {s : State} (h : step s = .next s) (k : Nat) : Host.Core.run core k s = .next s := by
  induction k with
  | zero => rfl
  | succ k ih => rw [run_succ h, ih]

end Sys2Proof.Machine
end

