-- ==== Sys2Proof/Laws/Lines.lean ====
section
/-! SUPPORT. Windows as ranges, where two samples can share an address, and what storing a line, filtering a line, an edge
operation and a dispatch do to PIXMEM: the bytes they keep, the canonical form, the bounds. -/

namespace Sys2Proof.Machine

/-! ### Windows as ranges -/

theorem mem_window4 (k : Int) : k ∈ window4 ↔ -2 ≤ k ∧ k ≤ 1 := by
  simp only [window4, List.mem_cons, List.not_mem_nil, or_false]; omega

theorem mem_window8 (k : Int) : k ∈ window8 ↔ -4 ≤ k ∧ k ≤ 3 := by
  simp only [window8, List.mem_cons, List.not_mem_nil, or_false]; omega

theorem mem_window16 (k : Int) : k ∈ window16 ↔ -8 ≤ k ∧ k ≤ 7 := by
  simp only [window16, List.mem_cons, List.not_mem_nil, or_false]; omega

theorem mem_writes8 (k : Int) : k ∈ writes8 ↔ -3 ≤ k ∧ k ≤ 2 := by
  simp only [writes8, List.mem_cons, List.not_mem_nil, or_false]; omega

theorem mem_writes16 (k : Int) : k ∈ writes16 ↔ -7 ≤ k ∧ k ≤ 6 := by
  simp only [writes16, List.mem_cons, List.not_mem_nil, or_false]; omega

theorem mem_segmentLines (j : Nat) : j ∈ segmentLines ↔ j < 8 := by
  simp only [segmentLines, List.mem_cons, List.not_mem_nil, or_false]; omega

theorem mem_lineZero (j : Nat) : j ∈ lineZero ↔ j = 0 := by simp [lineZero]

/-- A kernel writes inside the window its cap reads. -/
theorem kernelWrites_subset_capWindow {cap : Kernel} {k : Int} (h : k ∈ kernelWrites cap) : k ∈ capWindow cap := by
  cases cap <;> simp only [kernelWrites, capWindow, mem_window4, mem_writes8, mem_writes16, mem_window8, mem_window16] at * <;>
    omega

/-- A line's kernel writes nothing that the cap's own kernel does not write. -/
theorem lineClass_writes {e : LutEntry} {cap c : Kernel} {s : Line} {k : Int} (h : lineClass e cap s = some c)
    (hk : k ∈ kernelWrites c) : k ∈ kernelWrites cap := by
  unfold lineClass at h
  generalize lineMask e s = m, flat s = f, flat2 s = f2 at h
  cases m <;> cases f <;> cases f2 <;> cases cap <;> simp [kernelClass] at h <;> subst h <;>
    simp only [kernelWrites, mem_window4, mem_writes8, mem_writes16] at * <;> omega

/-! ### Distinct samples have distinct addresses -/

/-- With a pitch of at least 16 the samples of a segment lie at distinct addresses. -/
theorem sample_addr_inj {dir : Dir} {pitch : BitVec 16} (hp : 16 ≤ pitch.toNat) {a : Int} {j j' : Nat} {k k' : Int}
    (hj : j < 8) (hj' : j' < 8) (hk : -8 ≤ k ∧ k ≤ 7) (hk' : -8 ≤ k' ∧ k' ≤ 7)
    (h : lineOrigin dir pitch a j + k * sampleStep dir pitch = lineOrigin dir pitch a j' + k' * sampleStep dir pitch) :
    j = j' ∧ k = k' := by
  have hp' : (16 : Int) ≤ (pitch.toNat : Int) := by exact_mod_cast hp
  generalize hP : (pitch.toNat : Int) = p at hp'
  -- two multiples of p that differ by less than p are equal
  have key : ∀ x y d : Int, x * p - y * p = d → -16 < d → d < 16 → x = y := by
    intro x y d hd h1 h2
    rcases lt_trichotomy x y with hlt | heq | hgt
    · nlinarith
    · exact heq
    · nlinarith
  cases dir with
  | v =>
    simp only [lineOrigin, sampleStep, hP, mul_one] at h
    have := key j j' (k' - k) (by linarith) (by omega) (by omega)
    constructor
    · exact_mod_cast this
    · rw [this] at h; linarith
  | h =>
    simp only [lineOrigin, sampleStep, hP] at h
    have := key k k' (j' - j) (by linarith) (by omega) (by omega)
    refine ⟨?_, this⟩
    rw [this] at h
    have h' : (j : Int) = j' := by linarith
    exact_mod_cast h'

/-! ### Storing a line -/

theorem storeLine_nil (o st : Int) (out : Line) (m : Memory) : storeLine o st [] out m = m := rfl

theorem storeLine_cons (o st : Int) (k : Int) (ks : List Int) (out : Line) (m : Memory) :
    storeLine o st (k :: ks) out m = storeLine o st ks out (m.write (o + k * st).toNat (BitVec.ofInt 8 (out k))) := rfl

theorem storeLine_wf {m : Memory} (h : m.wf) (o st : Int) (ks : List Int) (out : Line) : (storeLine o st ks out m).wf := by
  induction ks generalizing m with
  | nil => exact h
  | cons k ks ih => exact ih (Memory.write_wf h _ _)

/-- A byte at none of the stored addresses is as before. -/
theorem storeLine_read_other {m : Memory} (h : m.wf) {o st : Int} {ks : List Int} (out : Line) {a : Nat}
    (ha : ∀ k ∈ ks, a ≠ (o + k * st).toNat) : (storeLine o st ks out m).read a = m.read a := by
  induction ks generalizing m with
  | nil => rfl
  | cons k ks ih =>
    rw [storeLine_cons, ih (Memory.write_wf h _ _) (fun k' hk' => ha k' (by simp [hk'])), Memory.read_write h,
      if_neg (ha k (by simp))]

/-- The byte at a stored address is the output there, where the stored addresses are distinct. -/
theorem storeLine_read_at {m : Memory} (h : m.wf) {o st : Int} {ks : List Int} (out : Line)
    (hinj : ∀ k ∈ ks, ∀ k' ∈ ks, (o + k * st).toNat = (o + k' * st).toNat → k = k') {k : Int} (hk : k ∈ ks) :
    (storeLine o st ks out m).read (o + k * st).toNat = BitVec.ofInt 8 (out k) := by
  induction ks generalizing m with
  | nil => simp at hk
  | cons k0 ks ih =>
    rw [storeLine_cons]
    by_cases hmem : k ∈ ks
    · exact ih (Memory.write_wf h _ _) (fun a ha b hb => hinj a (by simp [ha]) b (by simp [hb])) hmem
    · have hk0 : k = k0 := by simpa [hmem] using hk
      subst hk0
      rw [storeLine_read_other (Memory.write_wf h _ _) out, Memory.read_write h, if_pos rfl]
      intro k' hk' he
      exact hmem (hinj k hk k' (by simp [hk']) he ▸ hk')

/-- Storing a line inside PIXMEM lists no byte outside it. -/
theorem storeLine_inside {m : Memory} {n : Nat} (h : ∀ c ∈ m, c.1 < n) {o st : Int} {ks : List Int} (out : Line)
    (hk : ∀ k ∈ ks, (o + k * st).toNat < n) : ∀ c ∈ storeLine o st ks out m, c.1 < n := by
  induction ks generalizing m with
  | nil => exact h
  | cons k ks ih =>
    refine ih (fun c hc => ?_) (fun k' hk' => hk k' (by simp [hk']))
    rcases Memory.mem_write hc with rfl | hc
    · exact hk k (by simp)
    · exact h c hc

/-! ### Filtering a line -/

theorem filterLine_wf {m : Memory} (h : m.wf) (e : LutEntry) (cap : Kernel) (o st : Int) : (filterLine e cap o st m).wf := by
  unfold filterLine
  split
  · exact h
  · exact storeLine_wf h _ _ _ _

theorem filterLine_read_other {m : Memory} (h : m.wf) {e : LutEntry} {cap : Kernel} {o st : Int} {a : Nat}
    (ha : ∀ k ∈ kernelWrites cap, a ≠ (o + k * st).toNat) : (filterLine e cap o st m).read a = m.read a := by
  unfold filterLine
  split
  · rfl
  · exact storeLine_read_other h _ fun k hk => ha k (lineClass_writes (by assumption) hk)

theorem filterLine_inside {m : Memory} {n : Nat} (h : ∀ c ∈ m, c.1 < n) {e : LutEntry} {cap : Kernel} {o st : Int}
    (hk : ∀ k ∈ kernelWrites cap, (o + k * st).toNat < n) : ∀ c ∈ filterLine e cap o st m, c.1 < n := by
  unfold filterLine
  split
  · exact h
  · exact storeLine_inside h _ fun k hk' => hk k (lineClass_writes (by assumption) hk')

/-- A line that reads alike in two memories has the same class and the same outputs: what is read is the whole input. -/
theorem readLine_congr {m m' : Memory} {o st : Int} {k : Int} (h : m.read (o + k * st).toNat = m'.read (o + k * st).toNat) :
    readLine m o st k = readLine m' o st k := by
  simp only [readLine, h]

/-! ### Edge operations and dispatches -/

/-- What a property of memories needs to pass through an edge operation: that every line keeps it. -/
theorem edgeOp_induction {P : Memory → Prop} {e : LutEntry} {dir : Dir} {pitch : BitVec 16} {a : Int} {cap : Kernel}
    {m : Memory} (h : P m)
    (step : ∀ m j, j ∈ segmentLines → P m → P (filterLine e cap (lineOrigin dir pitch a j) (sampleStep dir pitch) m)) :
    P (edgeOp e dir pitch a cap m) := by
  unfold edgeOp
  generalize segmentLines = l at step
  induction l generalizing m with
  | nil => exact h
  | cons j l ih => exact ih (step m j (by simp) h) fun m j hj => step m j (by simp [hj])

theorem edgeOp_wf {m : Memory} (h : m.wf) (e : LutEntry) (dir : Dir) (pitch : BitVec 16) (a : Int) (cap : Kernel) :
    (edgeOp e dir pitch a cap m).wf :=
  edgeOp_induction h fun _ _ _ h => filterLine_wf h _ _ _ _

theorem edgeOp_read_other {m : Memory} (h : m.wf) {e : LutEntry} {dir : Dir} {pitch : BitVec 16} {a : Int} {cap : Kernel}
    {x : Nat} (hx : ∀ j ∈ segmentLines, ∀ k ∈ kernelWrites cap, x ≠ (lineOrigin dir pitch a j + k * sampleStep dir pitch).toNat) :
    (edgeOp e dir pitch a cap m).read x = m.read x :=
  (edgeOp_induction (P := fun m' => m'.wf ∧ m'.read x = m.read x) ⟨h, rfl⟩ fun _ j hj h' =>
    ⟨filterLine_wf h'.1 _ _ _ _, (filterLine_read_other h'.1 (hx j hj)).trans h'.2⟩).2

theorem edgeOp_inside {m : Memory} {n : Nat} (h : ∀ c ∈ m, c.1 < n) {e : LutEntry} {dir : Dir} {pitch : BitVec 16} {a : Int}
    {cap : Kernel} (hx : ∀ j ∈ segmentLines, ∀ k ∈ kernelWrites cap,
      (lineOrigin dir pitch a j + k * sampleStep dir pitch).toNat < n) :
    ∀ c ∈ edgeOp e dir pitch a cap m, c.1 < n := by
  refine edgeOp_induction (P := fun m' => ∀ c ∈ m', c.1 < n) h ?_
  intro m' j hj h'
  exact filterLine_inside h' (hx j hj)

/-- What a property of memories needs to pass through a dispatch: that every edge keeps it. -/
theorem applyEdges_induction {P : Memory → Prop} {s : State} {dir : Dir} {l : List Edge} {m : Memory} (h : P m)
    (step : ∀ m, ∀ e ∈ l, P m → P (edgeOp (s.lutAt e.lvl) dir s.pitch e.origin e.cls m)) : P (applyEdges s dir l m) := by
  unfold applyEdges
  induction l generalizing m with
  | nil => exact h
  | cons e l ih =>
    rw [List.foldl_cons]
    exact ih (step m e List.mem_cons_self h) fun m d hd => step m d (List.mem_cons_of_mem e hd)

theorem applyEdges_wf {m : Memory} (h : m.wf) (s : State) (dir : Dir) (l : List Edge) : (applyEdges s dir l m).wf :=
  applyEdges_induction h fun _ _ _ h => edgeOp_wf h _ _ _ _ _

/-- A footprint inside PIXMEM: each of its samples has an address below its size. -/
theorem toNat_lt_of_inRange {c : Config} {dir : Dir} {pitch : BitVec 16} {a : Int} {lines : List Nat} {window : List Int}
    (h : inRange c (footprint dir pitch a lines window) = true) :
    ∀ j ∈ lines, ∀ k ∈ window, (lineOrigin dir pitch a j + k * sampleStep dir pitch).toNat < c.pixBytes := by
  intro j hj k hk
  have := (inRange_iff c _).1 h _ (mem_footprint.2 ⟨j, hj, k, hk, rfl⟩)
  omega

end Sys2Proof.Machine
end

