-- ==== Sys2Proof/Laws/PerInstr.lean ====
section
/-! SUPPORT. One lemma per constructor: the encoded command has an opcode of the map (30_encoding.md R84) and zeros in the
reserved places of its format (R86). -/

namespace Sys2Proof

/-- The word of a command has its row in the opcode map and no reserved bit set. -/
def Laws.EncodeFields.Statement (i : Instr) : Prop :=
  ∃ row, opcodeRow (opcOf (encode i)) = some row ∧ encode i &&& row.reserved = 0#32

/-- From the opcode of a word and the bits its row reserves. -/
theorem encodeFields_of {i : Instr} {opc : BitVec 6} {row : OpcodeRow} (hr : opcodeRow opc = some row)
    (ho : ∀ k < 6, (encode i).getLsbD (26 + k) = opc.getLsbD k)
    (hz : ∀ k < 32, (encode i).getLsbD k = true → row.reserved.getLsbD k = false) : Laws.EncodeFields.Statement i := by
  have hopc : opcOf (encode i) = opc := BitVec.eq_of_getLsbD_eq fun k hk => by
    rw [opcOf, BitVec.getLsbD_extractLsb', ho k hk]; simp [hk]
  refine ⟨row, hopc ▸ hr, word_eq_zero fun k hk => ?_⟩
  rw [BitVec.getLsbD_and]
  cases h : (encode i).getLsbD k
  · rfl
  · simp [hz k hk h]

theorem Laws.EncodeFields.nop : Laws.EncodeFields.Statement (.nop) := by
  refine encodeFields_of (opc := 0x00#6) rfl (fun k hk => ?_) (fun k hk => ?_)
  · simp only [encode, bit_append]
    interval_cases k <;> simp
  · simp only [encode, bit_append]
    interval_cases k <;> simp

theorem Laws.EncodeFields.done : Laws.EncodeFields.Statement (.done) := by
  refine encodeFields_of (opc := 0x01#6) rfl (fun k hk => ?_) (fun k hk => ?_)
  · simp only [encode, bit_append]
    interval_cases k <;> simp
  · simp only [encode, bit_append]
    interval_cases k <;> simp

theorem Laws.EncodeFields.pref (hint : BitVec 26) : Laws.EncodeFields.Statement (.pref hint) := by
  refine encodeFields_of (opc := 0x02#6) rfl (fun k hk => ?_) (fun k hk => ?_)
  · simp only [encode, bit_append]
    interval_cases k <;> simp
  · simp only [encode, bit_append]
    interval_cases k <;> simp

theorem Laws.EncodeFields.li (rd : Reg) (imm : BitVec 16) : Laws.EncodeFields.Statement (.li rd imm) := by
  refine encodeFields_of (opc := 0x03#6) rfl (fun k hk => ?_) (fun k hk => ?_)
  · simp only [encode, bit_append]
    interval_cases k <;> simp
  · simp only [encode, bit_append]
    interval_cases k <;> simp

theorem Laws.EncodeFields.lih (rd : Reg) (imm : BitVec 16) : Laws.EncodeFields.Statement (.lih rd imm) := by
  refine encodeFields_of (opc := 0x04#6) rfl (fun k hk => ?_) (fun k hk => ?_)
  · simp only [encode, bit_append]
    interval_cases k <;> simp
  · simp only [encode, bit_append]
    interval_cases k <;> simp

theorem Laws.EncodeFields.csrr (rd : Reg) (csr : CsrAddr) : Laws.EncodeFields.Statement (.csrr rd csr) := by
  refine encodeFields_of (opc := 0x05#6) rfl (fun k hk => ?_) (fun k hk => ?_)
  · simp only [encode, bit_append]
    interval_cases k <;> simp
  · simp only [encode, bit_append]
    interval_cases k <;> simp

theorem Laws.EncodeFields.csrw (csr : CsrAddr) (rs : Reg) : Laws.EncodeFields.Statement (.csrw csr rs) := by
  refine encodeFields_of (opc := 0x06#6) rfl (fun k hk => ?_) (fun k hk => ?_)
  · simp only [encode, bit_append]
    interval_cases k <;> simp
  · simp only [encode, bit_append]
    interval_cases k <;> simp

theorem Laws.EncodeFields.lutw (idx : Level) (rs : Reg) : Laws.EncodeFields.Statement (.lutw idx rs) := by
  refine encodeFields_of (opc := 0x08#6) rfl (fun k hk => ?_) (fun k hk => ?_)
  · simp only [encode, bit_append]
    interval_cases k <;> simp
  · simp only [encode, bit_append]
    interval_cases k <;> simp

theorem Laws.EncodeFields.lutr (rd : Reg) (idx : Level) : Laws.EncodeFields.Statement (.lutr rd idx) := by
  refine encodeFields_of (opc := 0x09#6) rfl (fun k hk => ?_) (fun k hk => ?_)
  · simp only [encode, bit_append]
    interval_cases k <;> simp
  · simp only [encode, bit_append]
    interval_cases k <;> simp

theorem Laws.EncodeFields.lvlw (idx : Level) (rs : Reg) : Laws.EncodeFields.Statement (.lvlw idx rs) := by
  refine encodeFields_of (opc := 0x0A#6) rfl (fun k hk => ?_) (fun k hk => ?_)
  · simp only [encode, bit_append]
    interval_cases k <;> simp
  · simp only [encode, bit_append]
    interval_cases k <;> simp

theorem Laws.EncodeFields.lvlr (rd : Reg) (idx : Level) : Laws.EncodeFields.Statement (.lvlr rd idx) := by
  refine encodeFields_of (opc := 0x0B#6) rfl (fun k hk => ?_) (fun k hk => ?_)
  · simp only [encode, bit_append]
    interval_cases k <;> simp
  · simp only [encode, bit_append]
    interval_cases k <;> simp

theorem Laws.EncodeFields.lvuw (q : BitVec 4) (rs : Reg) : Laws.EncodeFields.Statement (.lvuw q rs) := by
  refine encodeFields_of (opc := 0x0C#6) rfl (fun k hk => ?_) (fun k hk => ?_)
  · simp only [encode, bit_append]
    interval_cases k <;> simp
  · simp only [encode, bit_append]
    interval_cases k <;> simp

theorem Laws.EncodeFields.lvur (rd : Reg) (q : BitVec 4) : Laws.EncodeFields.Statement (.lvur rd q) := by
  refine encodeFields_of (opc := 0x0D#6) rfl (fun k hk => ?_) (fun k hk => ?_)
  · simp only [encode, bit_append]
    interval_cases k <;> simp
  · simp only [encode, bit_append]
    interval_cases k <;> simp

theorem Laws.EncodeFields.cls (rd : Reg) (ra : Reg) (dir : Dir) (wide : Bool) (lvl : Level) : Laws.EncodeFields.Statement (.cls rd ra dir wide lvl) := by
  refine encodeFields_of (opc := 0x10#6) rfl (fun k hk => ?_) (fun k hk => ?_)
  · simp only [encode, bit_append]
    interval_cases k <;> simp
  · simp only [encode, bit_append]
    interval_cases k <;> simp

theorem Laws.EncodeFields.k4 (ra : Reg) (dir : Dir) (m : Bool) (h : Bool) : Laws.EncodeFields.Statement (.k4 ra dir m h) := by
  refine encodeFields_of (opc := 0x11#6) rfl (fun k hk => ?_) (fun k hk => ?_)
  · simp only [encode, bit_append]
    interval_cases k <;> simp
  · simp only [encode, bit_append]
    interval_cases k <;> simp

theorem Laws.EncodeFields.k8 (ra : Reg) (dir : Dir) : Laws.EncodeFields.Statement (.k8 ra dir) := by
  refine encodeFields_of (opc := 0x12#6) rfl (fun k hk => ?_) (fun k hk => ?_)
  · simp only [encode, bit_append]
    interval_cases k <;> simp
  · simp only [encode, bit_append]
    interval_cases k <;> simp

theorem Laws.EncodeFields.k16 (ra : Reg) (dir : Dir) : Laws.EncodeFields.Statement (.k16 ra dir) := by
  refine encodeFields_of (opc := 0x13#6) rfl (fun k hk => ?_) (fun k hk => ?_)
  · simp only [encode, bit_append]
    interval_cases k <;> simp
  · simp only [encode, bit_append]
    interval_cases k <;> simp

theorem Laws.EncodeFields.lpf4 (ra : Reg) (dir : Dir) (lvl : Level) : Laws.EncodeFields.Statement (.lpf4 ra dir lvl) := by
  refine encodeFields_of (opc := 0x14#6) rfl (fun k hk => ?_) (fun k hk => ?_)
  · simp only [encode, bit_append]
    interval_cases k <;> simp
  · simp only [encode, bit_append]
    interval_cases k <;> simp

theorem Laws.EncodeFields.lpf8 (ra : Reg) (dir : Dir) (lvl : Level) : Laws.EncodeFields.Statement (.lpf8 ra dir lvl) := by
  refine encodeFields_of (opc := 0x15#6) rfl (fun k hk => ?_) (fun k hk => ?_)
  · simp only [encode, bit_append]
    interval_cases k <;> simp
  · simp only [encode, bit_append]
    interval_cases k <;> simp

theorem Laws.EncodeFields.lpf16 (ra : Reg) (dir : Dir) (lvl : Level) : Laws.EncodeFields.Statement (.lpf16 ra dir lvl) := by
  refine encodeFields_of (opc := 0x16#6) rfl (fun k hk => ?_) (fun k hk => ?_)
  · simp only [encode, bit_append]
    interval_cases k <;> simp
  · simp only [encode, bit_append]
    interval_cases k <;> simp

theorem Laws.EncodeFields.dispatch (dir : Dir) (plane : Plane) (row : BitVec 3) : Laws.EncodeFields.Statement (.dispatch dir plane row) := by
  refine encodeFields_of (opc := 0x18#6) rfl (fun k hk => ?_) (fun k hk => ?_)
  · simp only [encode, bit_append]
    interval_cases k <;> simp
  · simp only [encode, bit_append]
    interval_cases k <;> simp

end Sys2Proof
end

