-- ==== Sys2Proof/Tests/Slice0.lean ====
section
/-! SUPPORT. Tests: expected values are those of 95_test_vectors.md, whose vector each docstring names, or are worked out from
the rule it names. Then witnesses: states and operands that meet the hypotheses of each statement together. -/

namespace Sys2Proof.Tests

open Sys2Proof.Machine Sys2Proof.Claims

/-! ### Helpers -/

/-- A PIXMEM that holds these bytes from address `o` on, 0 elsewhere. -/
def pixels (o : Nat) (bytes : List Nat) : Memory :=
  (bytes.zipIdx.filter fun p => p.1 ≠ 0).map fun p => (o + p.2, BitVec.ofNat 8 p.1)

/-- The same bytes in `n` rows of pitch 64. -/
def rows (n o : Nat) (bytes : List Nat) : Memory := (List.range n).flatMap fun j => pixels (o + 64 * j) bytes

/-- A LUT entry (40, 10, 2). -/
def entry : LutEntry := ⟨true, 40#8, 10#8, 2#8⟩

/-- The start state of section 7: `PITCH` = 64, `LUT[5]` = `LUT[32]` = (40, 10, 2), `x[4]` = 0x1234. -/
def base : State :=
  { ((State.reset.setLut 5#6 entry).setLut 32#6 entry).setReg 4#3 0x1234#32 with pitch := 64#16 }

/-- What `get` finds after the step that executes the word `w`. -/
def ran {α : Type} (s : State) (w : Nat) (get : State → α) : Option α :=
  match step (s.withFetchWord 32 w) with
  | .next t => some (get t)
  | .fault _ => none
  | .refused _ => none

/-- n bytes of PIXMEM from `o`, `st` apart. -/
def bytesAt (o n st : Nat) (t : State) : List Nat := (List.range n).map fun i => (t.pix.read (o + i * st)).toNat

/-- What the error vectors report: host `STATUS`, `ERRINFO`, `ERRCMD`, `CMDCNT`. -/
def report (t : State) : Word × Word × Word × Word := (t.hostStatus, t.errinfo, t.errcmd, t.cmdcnt)

/-! ### Well-formedness: the ill-formed terms are refused -/

/-- 30_encoding.md R85: the chroma superblock has no unit rows 4..7, the luma superblock has. -/
theorem test_wf_refuses_chroma_rows_4_to_7 :
    (Instr.dispatch .h .chroma 4#3).wf = false ∧ (Instr.dispatch .v .chroma 7#3).wf = false ∧
    (Instr.dispatch .h .chroma 3#3).wf = true ∧ (Instr.dispatch .v .luma 7#3).wf = true := by decide

/-! ### Decoding: words written out bit by bit from the formats of 30_encoding.md R82 and the opcodes of R84 -/

/-- `opc`(6), then the fields of formats Z, P, I, CR and CW. -/
theorem test_decode_control :
    decode 0b00000000000000000000000000000000#32 = .command .nop ∧
    decode 0b00000100000000000000000000000000#32 = .command .done ∧
    decode 0b00001000001100000000000000000000#32 = .command (.pref 0x300000#26) ∧
    decode 0b00001101000000000000000001000000#32 = .command (.li 2#3 64#16) ∧
    decode 0b00010000100000000000000000000010#32 = .command (.lih 1#3 2#16) ∧
    decode 0b00010110100000000000000000000101#32 = .command (.csrr 5#3 5#8) ∧
    decode 0b00011000001000000000000000000011#32 = .command (.csrw 3#8 2#3) := by decide

/-- Formats TW, TR, UW and UR. -/
theorem test_decode_tables :
    decode 0b00100000000100000000000000100000#32 = .command (.lutw 32#6 1#3) ∧
    decode 0b00100101000000000000000000100000#32 = .command (.lutr 2#3 32#6) ∧
    decode 0b00101000000100000000000000101101#32 = .command (.lvlw 45#6 1#3) ∧
    decode 0b00101101000000000000000000101101#32 = .command (.lvlr 2#3 45#6) ∧
    decode 0b00110000010000000000000000001111#32 = .command (.lvuw 15#4 4#3) ∧
    decode 0b00110101000000000000000000001111#32 = .command (.lvur 2#3 15#4) := by decide

/-- Format C: `dir` is bit 19, `w` is bit 18 (section 2.3: 42340020, 41B80020). -/
theorem test_decode_classifier :
    decode 0b01000010001101000000000000100000#32 = .command (.cls 4#3 3#3 .v true 32#6) ∧
    decode 0b01000001101110000000000000100000#32 = .command (.cls 3#3 3#3 .h false 32#6) := by decide

/-- Formats K4, K and E: `m` is bit 17, `h` is bit 16. -/
theorem test_decode_kernels :
    decode 0b01000100000100100000000000000000#32 = .command (.k4 1#3 .v true false) ∧
    decode 0b01000100000110010000000000000000#32 = .command (.k4 1#3 .h false true) ∧
    decode 0b01001000001110000000000000000000#32 = .command (.k8 3#3 .h) ∧
    decode 0b01001100001100000000000000000000#32 = .command (.k16 3#3 .v) ∧
    decode 0b01010000001100000000000000100000#32 = .command (.lpf4 3#3 .v 32#6) ∧
    decode 0b01010100001110000000000000010100#32 = .command (.lpf8 3#3 .h 20#6) ∧
    decode 0b01011000001100000000000000000101#32 = .command (.lpf16 3#3 .v 5#6) := by decide

/-- Format D: `plane` is bit 18 (section 2.3: 600C0003, 60000007). -/
theorem test_decode_dispatch :
    decode 0b01100000000011000000000000000011#32 = .command (.dispatch .h .chroma 3#3) ∧
    decode 0b01100000000000000000000000000111#32 = .command (.dispatch .v .luma 7#3) := by decide

/-- Section 2.3: illegal words, by the check of R91 that refuses them. -/
theorem test_decode_refuses :
    decode 0x1C000000#32 = .reject .opcode ∧ decode 0xFC000000#32 = .reject .opcode ∧
    decode 0x00000001#32 = .reject .reservedBit ∧ decode 0x0C010000#32 = .reject .reservedBit ∧
    decode 0x18800003#32 = .reject .reservedBit ∧ decode 0x44060000#32 = .reject .reservedBit ∧
    decode 0x58300045#32 = .reject .reservedBit ∧ decode 0x2090003F#32 = .reject .reservedBit ∧
    decode 0x600C0004#32 = .reject .chromaRow := by decide

/-- The host's views of the decoder and of the fetch: bit 0 of the table's numbering is bit 0 of the word (R80). -/
theorem test_decodeTableWord :
    decodeTableWord 32 0x0D000040 = some (.li 2#3 64#16) ∧ decodeTableWord 32 0x1C000000 = none ∧
    (State.reset.withFetchWord 32 0x0D000040).cmdq = [0x0D000040#32] := by decide

/-! ### Control and immediates -/

/-- CT15. -/
theorem test_nop : ran State.reset 0x00000000 report = some (0#32, 0#32, 0#32, 1#32) := by decide

/-- CT9: host `STATUS` afterwards. -/
theorem test_done : ran State.reset 0x04000000 (fun t => t.hostStatus) = some 0x00000001#32 := by decide

/-- CT16: every word with opcode 0x02 is legal. -/
theorem test_pref : ran State.reset 0x0BFFFFFF report = some (0#32, 0#32, 0#32, 1#32) := by decide

/-- CT2: no sign extension. -/
theorem test_li : ran State.reset 0x0D00FFFF (fun t => t.reg 2#3) = some 0x0000FFFF#32 := by decide

/-- CT3: the low half is kept. -/
theorem test_lih : ran (State.reset.setReg 1#3 0x00000A28#32) 0x10800002 (fun t => t.reg 1#3) = some 0x00020A28#32 := by decide

/-! ### CSRs -/

/-- CT5, CT6, CT8: `ID`, `PIXSIZE`, and the stream's view of `STATUS`. -/
theorem test_csrr_constants :
    ran State.reset 0x15000000 (fun t => t.reg 2#3) = some 0x44424631#32 ∧
    ran State.reset 0x15000009 (fun t => t.reg 2#3) = some 0x00010000#32 ∧
    ran State.reset 0x15000002 (fun t => t.reg 2#3) = some 0x00000004#32 := by decide

/-- CT7: the running command is not in the queue. -/
theorem test_csrr_qstat :
    ran { State.reset with cmdq := [0#32, 0#32, 0#32, 0#32] } 0x15000008 (fun t => t.reg 2#3) = some 0x00001003#32 := by decide

/-- CT4, CT14: `PITCH` keeps 16 bits; a write of `ML16_HI` keeps the low half. -/
theorem test_csrw :
    ran (State.reset.setReg 1#3 0x12345678#32) 0x18100003 (fun t => t.pitch) = some 0x5678#16 ∧
    ran { State.reset.setReg 1#3 0x22222222#32 with masks := State.reset.masks.set .ml16 0x11111111#64 } 0x18100011
      (fun t => t.masks.ml16) = some 0x2222222211111111#64 := by decide

/-- CT11, CT12: the flush; `CSRW CMDCNT` does not count. -/
theorem test_csrw_ctrl_cmdcnt :
    ran { State.reset.setReg 1#3 0xFF#32 with cmdq := [0#32, 0x04000000#32, 0#32] } 0x18100001
      (fun t => (t.ctrlWord, t.cmdq, t.cmdcnt)) = some (3#32, [], 1#32) ∧
    ran (State.reset.setReg 1#3 100#32) 0x18100005 (fun t => t.cmdcnt) = some 100#32 := by decide

/-! ### Tables -/

/-- T1. -/
theorem test_lutw : ran (State.reset.setReg 1#3 0x00020A28#32) 0x20100020 (fun t => t.lutAt 32#6) = some entry := by decide

/-- T2, T3. -/
theorem test_lutr :
    ran (State.reset.setLut 63#6 (LutEntry.unpack 0xFFFFFFFF#32)) 0x2500003F (fun t => t.reg 2#3) = some 0x00FFFFFF#32 ∧
    ran State.reset 0x2500003F report = some (0x00000402#32, 0x3F#32, 0x2500003F#32, 0#32) := by decide

/-- T4. -/
theorem test_lvlw : ran (State.reset.setReg 1#3 0x7F#32) 0x2810002D (fun t => t.lvltabAt 45#6) = some 0x3F#6 := by decide

/-- T4, T5. -/
theorem test_lvlr :
    ran (State.reset.setLvltab 45#6 0x3F#6) 0x2D00002D (fun t => t.reg 2#3) = some 0x3F#32 ∧
    ran State.reset 0x2D000000 (fun t => t.reg 2#3) = some 0#32 := by decide

/-- T6. -/
theorem test_lvuw : ran (State.reset.setReg 4#3 0xC0C1C2C3#32) 0x3040000F
    (fun t => [t.unitLevel 59, t.unitLevel 60, t.unitLevel 61, t.unitLevel 62, t.unitLevel 63]) =
      some [0#6, 3#6, 2#6, 1#6, 0#6] := by decide

/-- T6. -/
theorem test_lvur : ran (State.reset.setUnits 15#4 0xC0C1C2C3#32) 0x3500000F (fun t => t.reg 2#3) = some 0x00010203#32 := by decide

/-! ### Classifier -/

/-- CL1, CL5, CL15: narrow window. -/
theorem test_cls_narrow :
    ran { base.setReg 3#3 1000#32 with pix := pixels 996 [100, 100, 100, 100, 110, 110, 110, 110] } 0x42300020
      (fun t => t.reg 4#3) = some 0x25#32 ∧
    ran { base.setReg 3#3 1000#32 with pix := pixels 996 [100, 100, 103, 100, 110, 110, 110, 110] } 0x42300020
      (fun t => t.reg 4#3) = some 0x13#32 ∧
    ran { base.setReg 3#3 1000#32 with pix := pixels 996 [100, 100, 100, 100, 104, 104, 104, 104] } 0x42300020
      (fun t => t.reg 4#3) = some 0x25#32 := by decide

/-- CL8, CL10: wide window; CL16: direction H with `rd` = `ra`. -/
theorem test_cls_wide_and_h :
    ran { base.setReg 3#3 1000#32 with
      pix := pixels 992 [100, 100, 100, 100, 100, 100, 100, 100, 104, 104, 104, 104, 104, 104, 104, 104] } 0x42340020
      (fun t => t.reg 4#3) = some 0x3D#32 ∧
    ran { base.setReg 3#3 1000#32 with
      pix := pixels 992 [100, 100, 100, 100, 100, 100, 102, 100, 100, 100, 100, 100, 100, 100, 100, 100] } 0x42340020
      (fun t => t.reg 4#3) = some 0x19#32 ∧
    ran { base.setReg 3#3 1285#32 with pix := rows 4 1029 [100] ++ rows 4 1285 [110] } 0x41B80020
      (fun t => t.reg 3#3) = some 0x25#32 := by decide

/-! ### Kernels -/

/-- F4-1, F4-3, F4-7. -/
theorem test_k4 :
    ran { base.setReg 1#3 1000#32 with pix := pixels 998 [100, 100, 110, 110] } 0x44120000 (bytesAt 998 4 1) =
      some [102, 104, 106, 108] ∧
    ran { base.setReg 1#3 1000#32 with pix := pixels 998 [0, 0, 255, 255] } 0x44130000 (bytesAt 998 4 1) =
      some [0, 15, 240, 255] ∧
    ran { base.setReg 1#3 1000#32 with pix := pixels 998 [0, 0, 255, 255] } 0x44110000 (bytesAt 998 4 1) =
      some [0, 0, 255, 255] := by decide

/-- F4-6, F4-8: the floor shifts of negative values. -/
theorem test_k4_floor :
    ran { base.setReg 1#3 1000#32 with pix := pixels 998 [255, 255, 0, 0] } 0x44120000 (bytesAt 998 4 1) =
      some [247, 239, 16, 8] ∧
    ran { base.setReg 1#3 1000#32 with pix := pixels 998 [110, 110, 100, 100] } 0x44130000 (bytesAt 998 4 1) =
      some [110, 107, 102, 100] := by decide

/-- F8-1 and program P2: the golden vector, in both directions. -/
theorem test_k8 :
    ran { base.setReg 3#3 1000#32 with pix := pixels 996 [10, 10, 10, 10, 250, 250, 250, 250] } 0x48300000 (bytesAt 996 8 1) =
      some [10, 40, 70, 100, 160, 190, 220, 250] ∧
    ran { base.setReg 3#3 0x103#32 with pix := rows 4 3 [10] ++ rows 4 259 [250] } 0x48380000 (bytesAt 3 8 64) =
      some [10, 40, 70, 100, 160, 190, 220, 250] := by decide

/-- F16-2. -/
theorem test_k16 :
    ran { base.setReg 3#3 1000#32 with pix := pixels 992 [0, 1, 2, 3, 4, 5, 6, 7, 8, 9, 10, 11, 12, 13, 14, 15] } 0x4C300000
      (bytesAt 992 16 1) = some [0, 2, 3, 4, 4, 5, 6, 7, 8, 9, 10, 11, 11, 12, 13, 15] := by decide

/-! ### Edge commands and the dispatcher -/

/-- S1, and the second pass of section 1.5: rows 0 and 7. -/
theorem test_lpf4 :
    ran { base.setReg 3#3 8#32 with pix := rows 8 4 [100, 100, 100, 100, 110, 110, 110, 110] } 0x50300020
      (fun t => (bytesAt 4 8 1 t, bytesAt 452 8 1 t)) =
      some ([100, 100, 102, 104, 106, 108, 110, 110], [100, 100, 102, 104, 106, 108, 110, 110]) ∧
    ran { base.setReg 3#3 8#32 with pix := rows 8 4 [100, 100, 102, 104, 106, 108, 110, 110] } 0x50300020 (bytesAt 4 8 1) =
      some [100, 100, 103, 105, 105, 107, 110, 110] := by decide +kernel

/-- S3. -/
theorem test_lpf8 :
    ran { base.setReg 3#3 8#32 with pix := rows 8 4 [100, 100, 100, 100, 104, 104, 104, 104] } 0x54300020 (bytesAt 4 8 1) =
      some [100, 101, 101, 102, 103, 103, 104, 104] := by decide +kernel

/-- Lines 0, 2, 4 and 5 of section 5.2, as lines 0, 2, 4 and 5 of a segment. -/
def mixedSegment : Memory :=
  pixels 0 [100, 100, 100, 100, 100, 100, 100, 100, 104, 104, 104, 104, 104, 104, 104, 104] ++
  pixels 128 [90, 90, 90, 90, 100, 100, 100, 100, 104, 104, 104, 104, 104, 104, 104, 104] ++
  pixels 256 [10, 10, 10, 10, 10, 10, 10, 10, 250, 250, 250, 250, 250, 250, 250, 250] ++
  pixels 320 [100, 100, 100, 100, 100, 100, 103, 100, 110, 110, 110, 110, 110, 110, 110, 110]

/-- Section 5.2: four kinds in one segment. -/
theorem test_lpf16_mixed :
    ran { base.setReg 3#3 8#32 with pix := mixedSegment } 0x58300020
      (fun t => [bytesAt 0 16 1 t, bytesAt 128 16 1 t, bytesAt 256 16 1 t, bytesAt 320 16 1 t]) =
    some [[100, 100, 101, 101, 101, 101, 102, 102, 102, 103, 103, 103, 103, 104, 104, 104],
      [90, 90, 90, 90, 100, 101, 101, 102, 103, 103, 104, 104, 104, 104, 104, 104],
      [10, 10, 10, 10, 10, 10, 10, 10, 250, 250, 250, 250, 250, 250, 250, 250],
      [100, 100, 100, 100, 100, 100, 103, 103, 107, 110, 110, 110, 110, 110, 110, 110]] := by decide +kernel

/-- Program P3, row 0: a class 8 boundary edge and then the internal edge of the same unit. -/
theorem test_dispatch_p3 :
    ran { (base.setLut 20#6 entry).setUnits 0#4 0x1400#32 with
        sbbase := 0x100#32
        masks := (base.masks.set .ml8 2#64).set .ml4i 2#64
        pix := rows 8 0x100 [60, 60, 60, 60, 60, 60, 60, 60, 64, 64, 64, 64, 72, 72, 72, 72] } 0x60000000 (bytesAt 0x100 16 1) =
    some [60, 60, 60, 60, 60, 61, 61, 62, 63, 63, 66, 67, 69, 70, 72, 72] := by decide +kernel

/-- DP8, DP6: edge origins of a chroma unit and of a horizontal edge. -/
theorem test_edgeList :
    (edgeList { base.setUnits 3#4 0x20000000#32 with sbbase := 0x1000#32, masks := base.masks.set .ml16 (1#64 <<< 15) } .v .chroma
      3).map (fun e => (e.origin, e.cls, e.lvl)) = [(0x1618, .f16, 32#6)] ∧
    (edgeList { base.setUnits 2#4 0x20000000#32 with sbbase := 0x100#32, masks := base.masks.set .ma8 (1#64 <<< 11) } .h .luma
      1).map (fun e => (e.origin, e.cls, e.lvl)) = [(0x318, .f8, 32#6)] := by decide

/-! ### Errors -/

/-- X3, X7, X12, X15, X16 of section 7: one of each code. -/
theorem test_errors :
    ran base 0x600C0004 report = some (0x00000102#32, 0x18#32, 0x600C0004#32, 0#32) ∧
    ran base 0x1400000A report = some (0x00000202#32, 0x0A#32, 0x1400000A#32, 0#32) ∧
    ran { base.setReg 3#3 1000#32 with pitch := 15#16 } 0x50300020 report = some (0x00000502#32, 15#32, 0x50300020#32, 0#32) ∧
    ran { State.reset.setReg 3#3 8#32 with pitch := 64#16 } 0x58300005 report = some (0x00000402#32, 5#32, 0x58300005#32, 0#32) ∧
    ran (base.setReg 0#3 7#32) 0x4C000000 report = some (0x00000302#32, 7#32, 0x4C000000#32, 0#32) := by decide

/-- X21, X22: the last byte of PIXMEM; X26, X27: priority. -/
theorem test_error_boundaries :
    ran (base.setReg 3#3 0xFE3D#32) 0x50300020 report = some (0x00000302#32, 0xFE3D#32, 0x50300020#32, 0#32) ∧
    ran (base.setReg 3#3 0xFE3C#32) 0x50300020 report = some (0#32, 0#32, 0#32, 1#32) ∧
    ran (State.reset.setReg 3#3 4#32) 0x58300005 report = some (0x00000502#32, 0#32, 0x58300005#32, 0#32) ∧
    ran { State.reset.setReg 3#3 4#32 with pitch := 64#16 } 0x58300005 report =
      some (0x00000402#32, 5#32, 0x58300005#32, 0#32) := by decide +kernel

/-! ### Witnesses: for each statement with hypotheses, a state and operands that meet them -/

/-- With a pitch of 64 and the default PIXMEM, every window of a segment at 512..65000 lies in PIXMEM. -/
theorem fits_of_bounds {s : State} (hp : (s.pitch.toNat : Int) = 64) (hc : (s.cfg.pixBytes : Int) = 65536) {dir : Dir}
    {a n lo hi : Int} (hn : n ≤ 8) (hlo : -8 ≤ lo) (hhi : hi ≤ 7) (ha : 512 ≤ a) (ha' : a ≤ 65000) : fits s dir a n lo hi := by
  intro j k hj hj' hk hk'
  cases dir <;> simp only [addr, hp, hc] <;> omega

theorem witness_DecodeOfEncode :
    (Instr.dispatch .h .chroma 3#3).wf = true ∧ (Instr.csrr 7#3 0xFF#8).wf = true ∧ (Instr.pref 0x3FFFFFF#26).wf = true := by decide

theorem witness_EncodeOfDecode : decode 0x600C0003#32 = .command (.dispatch .h .chroma 3#3) := by decide

/-- The three clauses of `illegalWord`: an opcode off the map, a reserved bit, a chroma row; and a legal word. -/
theorem witness_illegalWord :
    illegalWord 0xFC000000#32 ∧ illegalWord 0x00000001#32 ∧ illegalWord 0x600C0004#32 ∧ ¬ illegalWord 0x600C0003#32 := by
  unfold illegalWord; decide

/-- `s` with the block's turn given by a `.block` move, before a host read. -/
def atBlockMove (s : State) : State := { s with pending := [.block, .csrRead 0x00#8] }

/-- The two ways in which the next turn is the block's: no move is pending, or a `.block` move is next. -/
theorem witness_blockIsNext :
    blockIsNext base [] ∧ blockIsNext (atBlockMove base) [.csrRead 0x00#8] := ⟨.inl ⟨rfl, rfl⟩, .inr rfl⟩

theorem witness_IllegalWordRaises :
    let s : State := State.reset.withFetchWord 32 0x1C000000
    (blockIsNext s [] ∧ headIs s 0x1C000000#32 []) ∧
    (blockIsNext (atBlockMove s) [.csrRead 0x00#8] ∧ headIs (atBlockMove s) 0x1C000000#32 []) ∧ illegalWord 0x1C000000#32 := by
  unfold blockIsNext headIs illegalWord; decide

theorem witness_StepRunsDecodedCommand :
    let s : State := { State.reset with cmdq := [0x0D000040#32, 0#32] }
    (blockIsNext s [] ∧ headIs s 0x0D000040#32 [0#32]) ∧
    (blockIsNext (atBlockMove s) [.csrRead 0x00#8] ∧ headIs (atBlockMove s) 0x0D000040#32 [0#32]) ∧
    decode 0x0D000040#32 = .command (.li 2#3 64#16) := by
  unfold blockIsNext headIs; decide

/-- The three clauses: idle, for both ways in which the turn is the block's; a push to an idle block; the clearing of an
error. -/
theorem witness_WaitingBlockKeepsState :
    (blockIsNext State.reset [] ∧ blockIsNext (atBlockMove State.reset) [.csrRead 0x00#8] ∧
      State.reset.cmdq = [] ∧ (atBlockMove State.reset).cmdq = []) ∧
    (let s : State := { State.reset with pending := [.push 5#32] }
     s.cmdq = [] ∧ s.status.err = false ∧ 1 ≤ s.cfg.cmdqDepth ∧ s.pending = [.push 5#32]) ∧
    (let s : State := { State.reset with
      cmdq := [5#32], status := ⟨false, true, 1#8⟩, pending := [.csrWrite 0x02#8 0x00000002#32] }
     s.cmdq = [5#32] ∧ s.status.err = true ∧ s.pending = [.csrWrite 0x02#8 0x00000002#32]) := by
  unfold blockIsNext; decide

/-- A block about to execute a word, with the queue behind it full. -/
theorem witness_StepKeepsInvariant :
    ({ base with cmdq := List.replicate 16 0#32 } : State).Inv ∧
    ∃ t, step { base with cmdq := List.replicate 16 0#32 } = .next t :=
  ⟨⟨by decide, by decide, by decide, by decide, by decide, by decide⟩, _, rfl⟩

/-- The bounds of R5. -/
theorem witness_ResetMeetsInvariant :
    Config.Legal ⟨1, 1⟩ ∧ Config.Legal ⟨2 ^ 31, 255⟩ ∧ ¬ Config.Legal ⟨0, 1⟩ ∧ ¬ Config.Legal ⟨1, 256⟩ := by decide

theorem witness_ResetMoveLeavesResetValues :
    (let s : State := { base with cmdq := [1#32], pending := [.reset [(3, 7#8)]] }
     s.cfg.Legal ∧ s.pending = .reset [(3, 7#8)] :: []) ∧
    (let s : State := { base with cmdq := [1#32], pending := [.reset [(3, 7#8)], .block] }
     s.cfg.Legal ∧ s.pending = .reset [(3, 7#8)] :: [.block] ∧ ∃ t, step s = .next t ∧ blockIsNext t []) ∧
    (Memory.wf [(3, 7#8), (5, 1#8)] ∧ ∀ c ∈ ([(3, 7#8), (5, 1#8)] : Memory), c.1 < 6) :=
  ⟨by decide, ⟨by decide, rfl, _, rfl, .inr rfl⟩, by decide⟩

theorem witness_ResetStateHasResetValues : Config.Legal {} := by decide

/-- Both outcomes occur. -/
theorem witness_OnlyBusyPixelAccessIsRefused :
    (∃ t, step { State.reset with pending := [.pixRead 0] } = .next t) ∧
    step { State.reset with cmdq := [0#32], pending := [.pixWrite 0 1#8] } = .refused .hostPixWhileBusy := ⟨⟨_, rfl⟩, rfl⟩

theorem witness_ErrorsArePrecise :
    State.reset.pending = [] ∧ headIs { State.reset with cmdq := [0x2500003F#32, 0#32] } 0x2500003F#32 [0#32] ∧
    ∃ t, step { State.reset with cmdq := [0x2500003F#32, 0#32] } = .next t ∧ t.status.err = true := by
  unfold headIs; exact ⟨rfl, by decide, _, rfl, rfl⟩

/-- The three outcomes of a command: an error, a counted completion, a write of `CMDCNT`. -/
theorem witness_CommandCounts :
    base.status.err = false ∧ (∃ t, exec (.lutr 0#3 63#6) base = .next t ∧ t.status.err = true) ∧
    (∃ t, exec .nop base = .next t ∧ t.status.err = false) ∧ (∃ t, exec (.csrw 0x05#8 4#3) base = .next t ∧ t.cmdcnt = 0x1234#32) :=
  ⟨rfl, ⟨_, rfl, rfl⟩, ⟨_, rfl, rfl⟩, _, rfl, rfl⟩

/-- `DONE` set by `DONE`, and cleared by `CSRW STATUS`. -/
theorem witness_WhoWritesWhat :
    (∃ t, exec .done base = .next t ∧ base.status.done = false ∧ t.status.done = true) ∧
    (∃ t, exec (.csrw 0x02#8 0#3) { base.setReg 0#3 1#32 with status := ⟨true, false, 0#8⟩ } = .next t ∧
      t.status.done = false) := ⟨⟨_, rfl, rfl, rfl⟩, _, rfl, rfl⟩

theorem witness_QueueDrains : ({ base with cmdq := [0#32, 0x04000000#32] } : State).pending = [] := rfl

theorem witness_CanonicalMemory :
    Memory.wf [(3, 7#8), (5, 1#8)] ∧ ∀ a, Memory.read [(3, 7#8), (5, 1#8)] a = Memory.read [(3, 7#8), (5, 1#8)] a :=
  ⟨by decide, fun _ => rfl⟩

/-- The boundary of `MIN_PITCH`. -/
theorem witness_PitchBelow16Raises :
    isPixel (.dispatch .v .chroma 3#3) = true ∧ (Instr.dispatch .v .chroma 3#3).wf = true ∧
    ({ base with pitch := 15#16 } : State).pitch.toNat < 16 ∧ ¬ ({ base with pitch := 16#16 } : State).pitch.toNat < 16 := by decide

/-- A superblock of two edges at level 32 and then 7, whose entry is not valid. -/
def twoEdges : State :=
  { base.setUnits 0#4 0x0720#32 with sbbase := 0x400#32, masks := base.masks.set .ml8 3#64 }

theorem witness_InvalidLevelRaises :
    (base.lutAt 63#6).valid = false ∧ 16 ≤ base.pitch.toNat ∧ 16 ≤ twoEdges.pitch.toNat ∧
    edgeList twoEdges .v .luma 0 = [⟨0x400, .f8, 32#6⟩] ++ ⟨0x408, .f8, 7#6⟩ :: [] ∧
    (twoEdges.lutAt 32#6).valid = true ∧ (twoEdges.lutAt 7#6).valid = false ∧ base.status.errcode = 0#8 ∧
    ∃ t, exec (.k8 4#3 .v) base = .next t := ⟨rfl, by decide, by decide, by decide, rfl, rfl, rfl, exec_next _ _⟩

/-- Each clause, at the last address outside: the first sample one byte below 0, or the last one at 65536. -/
theorem witness_FootprintOutsideRaises :
    16 ≤ base.pitch.toNat ∧ (base.lutAt 32#6).valid = true ∧
    ¬ fits (base.setReg 0#3 3#32) .v ((base.setReg 0#3 3#32).reg 0#3).toNat 1 (-4) 3 ∧
    ¬ fits (base.setReg 0#3 65535#32) .v ((base.setReg 0#3 65535#32).reg 0#3).toNat 1 (-2) 1 ∧
    ¬ fits (base.setReg 0#3 0xFE3D#32) .v ((base.setReg 0#3 0xFE3D#32).reg 0#3).toNat 8 (-(capReach .f4 + 1)) (capReach .f4) ∧
    edgeList { twoEdges with sbbase := 0#32, masks := base.masks.set .ml8 1#64 } .v .luma 0 = [⟨0, .f8, 32#6⟩] ∧
    ¬ fits { twoEdges with sbbase := 0#32, masks := base.masks.set .ml8 1#64 } .v 0 8 (-(capReach .f8 + 1)) (capReach .f8) := by
  refine ⟨by decide, rfl, fun h => ?_, fun h => ?_, fun h => ?_, by decide, fun h => ?_⟩
  · exact absurd (h 0 (-4) (by decide) (by decide) (by decide) (by decide)) (by decide)
  · exact absurd (h 0 1 (by decide) (by decide) (by decide) (by decide)) (by decide)
  · exact absurd (h 7 3 (by decide) (by decide) (by decide) (by decide)) (by decide)
  · exact absurd (h 0 (-4) (by decide) (by decide) (by decide) (by decide)) (by decide)

/-- The ends of the two ranges of addresses that name no CSR, and their neighbours. -/
theorem witness_CsrErrors :
    noCsr 0x0A#8 ∧ noCsr 0x0F#8 ∧ noCsr 0x20#8 ∧ noCsr 0xFF#8 ∧ ¬ noCsr 0x09#8 ∧ ¬ noCsr 0x10#8 ∧ ¬ noCsr 0x1F#8 ∧
    0x00#8 ∈ readOnlyAddrs ∧ 0x09#8 ∈ readOnlyAddrs := by
  unfold noCsr; decide

/-- The first and the last row of the map, and a full queue. -/
theorem witness_CsrrReadsTheMap :
    base.cfg.Legal ∧ (List.replicate 16 0#32).length ≤ base.cfg.cmdqDepth ∧ (0x00#8, 0x44424631) ∈ csrReads base ∧
    (0x1F#8, 0) ∈ csrReads base ∧ (0x08#8, 4112) ∈ csrReads { base with cmdq := List.replicate 16 0#32 } := by decide

theorem witness_LutrReadsEntry : (base.lutAt 63#6).valid = false ∧ (base.lutAt 32#6).valid = true := by decide

/-- A command that is not `LVLW`, and `LVLW` of the last entry. -/
theorem witness_LevelTableIsStorageOnly :
    (∃ t, exec .nop base = .next t) ∧ ∃ t, exec (.lvlw 63#6 4#3) base = .next t := ⟨⟨_, rfl⟩, _, rfl⟩

/-- Two LUTs that differ in an entry that is not valid. -/
theorem witness_UnwrittenThresholds :
    lutAgree base.lut (base.setLut 63#6 ⟨false, 1#8, 2#8, 3#8⟩).lut ∧ ∃ t, exec (.lutw 63#6 4#3) base = .next t := by
  refine ⟨?_, _, rfl⟩
  unfold lutAgree
  decide +kernel

/-- A line in the middle of PIXMEM, for both windows and both directions. -/
theorem witness_ClsReportsTheClass :
    16 ≤ base.pitch.toNat ∧ (base.lutAt 32#6).valid = true ∧ (∀ dir, fits base dir (base.reg 4#3).toNat 1 (-8) 7) ∧
    ∀ dir, fits base dir (base.reg 4#3).toNat 1 (-4) 3 := by
  have ha : ((base.reg 4#3).toNat : Int) = 0x1234 := rfl
  refine ⟨by decide, rfl, fun dir => ?_, fun dir => ?_⟩ <;> rw [ha] <;>
    exact fits_of_bounds rfl rfl (by decide) (by decide) (by decide) (by decide) (by decide)

/-- The step line of the golden vectors. -/
theorem witness_FilterTaps : ∃ x : Line, ∀ k, x k = if k < 0 then 10 else 250 := ⟨fun k => if k < 0 then 10 else 250, fun _ => rfl⟩

/-- A line at both ends of the sample range, and a constant line. -/
theorem witness_FlatKernelRanges :
    (∃ x : Line, (∀ k, 0 ≤ x k ∧ x k ≤ 255) ∧ x 0 = 255 ∧ x 1 = 0) ∧ ∃ x : Line, ∀ k, x k = 7 :=
  ⟨⟨fun k => if k = 0 then 255 else 0, fun k => by dsimp only; split <;> decide, rfl, rfl⟩, fun _ => 7, fun _ => rfl⟩

/-- Samples at both ends of their range. -/
theorem witness_Filter4 : ((0 : Int) ≤ 0 ∧ (0 : Int) ≤ 255) ∧ ((0 : Int) ≤ 255 ∧ (255 : Int) ≤ 255) := by decide

theorem base_wf : base.pix.wf := by decide

/-- The three raw kernels at an address in the middle of PIXMEM. -/
theorem witness_RawKernelCommands :
    base.pix.wf ∧ 16 ≤ base.pitch.toNat ∧ fits base .h (base.reg 4#3).toNat 1 (-2) 1 ∧
    fits base .h (base.reg 4#3).toNat 1 (-4) 3 ∧ fits base .v (base.reg 4#3).toNat 1 (-8) 7 := by
  have ha : ((base.reg 4#3).toNat : Int) = 0x1234 := rfl
  refine ⟨base_wf, by decide, ?_, ?_, ?_⟩ <;> rw [ha] <;>
    exact fits_of_bounds rfl rfl (by decide) (by decide) (by decide) (by decide) (by decide)

/-- Every cap, both directions. -/
theorem witness_EdgeCommands :
    base.pix.wf ∧ 16 ≤ base.pitch.toNat ∧ (base.lutAt 32#6).valid = true ∧
    ∀ dir cap, fits base dir (base.reg 4#3).toNat 8 (-(capReach cap + 1)) (capReach cap) := by
  have ha : ((base.reg 4#3).toNat : Int) = 0x1234 := rfl
  refine ⟨base_wf, by decide, rfl, fun dir cap => ?_⟩
  rw [ha]
  cases cap <;> exact fits_of_bounds rfl rfl (by decide) (by decide) (by decide) (by decide) (by decide)

/-- A superblock with one edge of level 32 in its list. -/
def oneEdge : State := { base.setUnits 0#4 0x20#32 with sbbase := 0x1000#32, masks := base.masks.set .ml8 1#64 }

theorem oneEdge_list : edgeList oneEdge .v .luma 0 = [⟨0x1000, .f8, 32#6⟩] := by decide

theorem witness_DispatchIsItsEdgeCommands :
    oneEdge.Inv ∧ oneEdge.status.err = false ∧ 16 ≤ oneEdge.pitch.toNat ∧ (Instr.dispatch .v .luma 0#3).wf = true ∧
    edgesReady oneEdge .v (edgeList oneEdge .v .luma (0#3).toNat) := by
  refine ⟨⟨by decide, by decide, by decide, by decide, by decide, by decide⟩, rfl, by decide, rfl, ?_⟩
  intro e he
  rw [show (0#3 : BitVec 3).toNat = 0 from rfl, oneEdge_list, List.mem_singleton] at he
  subst he
  exact ⟨rfl, fits_of_bounds rfl rfl (by decide) (by decide) (by decide) (by decide) (by decide)⟩

theorem witness_DispatchFrame : oneEdge.pix.wf ∧ ∃ t, exec (.dispatch .v .luma 0#3) oneEdge = .next t := by
  refine ⟨by decide, ?_⟩
  exact exec_next _ _

/-- No mask bit is set after reset; both pitches. -/
theorem witness_DispatchOfEmptyRow :
    (Instr.dispatch .h .chroma 3#3).wf = true ∧ 16 ≤ base.pitch.toNat ∧ State.reset.pitch.toNat < 16 ∧
    ∀ c, c < cols .chroma →
      unitBit base .h .ml16 .ma16 ((3#3 : BitVec 3).toNat * cols .chroma + c) = false ∧
      unitBit base .h .ml8 .ma8 ((3#3 : BitVec 3).toNat * cols .chroma + c) = false ∧
      unitBit base .h .ml4 .ma4 ((3#3 : BitVec 3).toNat * cols .chroma + c) = false ∧
      unitBit base .h .ml4i .ma4i ((3#3 : BitVec 3).toNat * cols .chroma + c) = false := by decide

/-- Masks and levels that differ from those of the state only from bit 16 and from entry 16 on. -/
theorem witness_ChromaIgnoresUpperBits :
    (3#3 : BitVec 3).toNat < 4 ∧
    (∀ (m : MaskName) (b : Nat), b < 16 → ((base.masks.set .ml8 (1#64 <<< 16)).get m).getLsbD b = (base.masks.get m).getLsbD b) ∧
    (∀ n, (h : n < 16) → (base.setUnits 4#4 5#32).lvlu[n] = base.lvlu[n]) ∧
    ∃ t, exec (.dispatch .v .chroma 3#3) base = .next t := by
  refine ⟨by decide, fun m b h => ?_, by decide, ?_⟩
  · interval_cases b <;> cases m <;> decide
  · exact exec_next _ _

theorem witness_HostCsrNeverFaults :
    noCsr 0x0A#8 ∧ 0x08#8 ∈ readOnlyAddrs ∧ base.cfg.Legal ∧ base.cmdq.length ≤ base.cfg.cmdqDepth ∧
    (0x03#8, 64) ∈ csrReads base ∧ base.status.err = false ∧
    ({ base with pending := [.csrRead 0x03#8] } : State).pending = .csrRead 0x03#8 :: [] := by
  unfold noCsr; decide

theorem witness_PortsReachTheSameCsrs :
    ¬ noCsr 0x1F#8 ∧ 0x1F#8 ∉ readOnlyAddrs ∧ base.reg 4#3 = 0x1234#32 ∧ ¬ noCsr 0x09#8 ∧ (0x09#8 : CsrAddr) ≠ 0x02#8 := by
  unfold noCsr; decide

/-- Halted with a word queued, and running with one. -/
theorem witness_HostStatusWord :
    ({ base with pending := [.csrRead 0x02#8, .block] } : State).pending = .csrRead 0x02#8 :: [.block] ∧
    hostStatusNumber { base with status := ⟨true, true, 3#8⟩, cmdq := [0#32] } = 771 ∧
    hostStatusNumber { base with cmdq := [0#32] } = 4 := by decide

/-- `s` with this host move pending. -/
def withMove (s : State) (m : Move) : State := { s with pending := [m] }

/-- A read and a write pending, busy and not busy; the last address inside and the first outside. -/
theorem witness_HostPixelAccess :
    let idle := base
    let busy : State := { base with cmdq := [0#32] }
    (∀ m, (withMove idle m).pix.wf ∧ (withMove idle m).busy = false ∧ (withMove idle m).pending = [m]) ∧
    (∀ m, (withMove busy m).pix.wf ∧ (withMove busy m).busy = true ∧ (withMove busy m).pending = [m]) ∧
    (withMove idle (.pixRead 65535)).pending = .pixRead 65535 :: [] ∧
    (withMove idle (.pixWrite 65536 1#8)).pending = .pixWrite 65536 1#8 :: [] ∧
    (withMove busy (.pixRead 0)).pending = .pixRead 0 :: [] ∧ (withMove busy (.pixWrite 0 1#8)).pending = .pixWrite 0 1#8 :: [] ∧
    65535 < idle.cfg.pixBytes ∧ ¬ 65536 < idle.cfg.pixBytes :=
  ⟨fun _ => ⟨base_wf, rfl, rfl⟩, fun _ => ⟨base_wf, rfl, rfl⟩, rfl, rfl, rfl, rfl, by decide, by decide⟩

/-- The block halted by `E_ILLEGAL`, with a `DONE` still queued (P4). -/
def haltedBlock : State := { base with status := ⟨false, true, 1#8⟩, cmdq := [0x04000000#32] }

theorem witness_ReturnFromError :
    haltedBlock.status.err = true ∧ (0x00000002#32).getLsbD 1 = true ∧ (0x00000001#32).getLsbD 1 = false ∧
    haltedBlock.cmdq = 0x04000000#32 :: [] ∧ decode 0x04000000#32 = .command .done := by decide

theorem witness_FlushDuringHalt :
    haltedBlock.status.err = true ∧ (0x00000004#32).getLsbD 2 = true ∧ (0x00000002#32).getLsbD 1 = true := by decide

/-- A queue of n words, and this push pending. -/
def pushing (s : State) (n : Nat) (m : Move) : State := { s with cmdq := List.replicate n 0#32, pending := [m] }

/-- For a push of a word and of four bytes: room for one word; a full queue, halted and running. -/
theorem witness_PushWaitsForRoom (m : Move) :
    (pushing base 15 m).pending = m :: [] ∧ (pushing base 15 m).cmdq.length < (pushing base 15 m).cfg.cmdqDepth ∧
    ((pushing base 16 m).pending = m :: [] ∧ (pushing base 16 m).cmdq.length = (pushing base 16 m).cfg.cmdqDepth ∧
      1 ≤ (pushing base 16 m).cfg.cmdqDepth ∧ (pushing base 16 m).status.err = false) ∧
    ((pushing haltedBlock 16 m).pending = m :: [] ∧
      (pushing haltedBlock 16 m).cmdq.length = (pushing haltedBlock 16 m).cfg.cmdqDepth ∧
      (pushing haltedBlock 16 m).status.err = true) :=
  ⟨rfl, (by decide : 15 < 16), ⟨rfl, rfl, (by decide : 1 ≤ 16), rfl⟩, rfl, rfl, rfl⟩

/-- The same states with four bytes pending, and the word those bytes carry. -/
theorem witness_BusBytes :
    (∀ n, (pushing base n (.pushBytes 0x40#8 0x00#8 0x00#8 0x0D#8)).pending = .pushBytes 0x40#8 0x00#8 0x00#8 0x0D#8 :: []) ∧
    wordOfBusBytes 0x40#8 0x00#8 0x00#8 0x0D#8 = 0x0D000040#32 :=
  ⟨fun _ => rfl, by decide⟩

/-- E3: an error with `IE_ERR` set. -/
theorem witness_InterruptOutput :
    (∃ t, exec .done { base with ctrl := ⟨true, false⟩ } = .next t ∧ t.irq = true) ∧
    (∃ t, exec (.lutr 0#3 63#6) { base with ctrl := ⟨false, true⟩ } = .next t ∧ t.status.err = true ∧ t.irq = true) :=
  ⟨⟨_, rfl, rfl⟩, _, rfl, rfl, rfl⟩

end Sys2Proof.Tests
end

/-! ## O8: every step keeps the invariant

`State.Inv` speaks of the parameters, the queue, PIXMEM, and `ERR` with `ERRCODE`. Every move of the host, of the platform and
of the block is shown to keep them. The part that needs an argument is PIXMEM: what a pixel command stores lies in the footprint
its checks have passed. -/

namespace Sys2Proof.Machine

/-! ### PIXMEM in canonical form and inside its bounds -/

/-- The two parts of `State.Inv` about PIXMEM: canonical form, and no byte outside 0..n-1. -/
def Memory.Fits (n : Nat) (m : Memory) : Prop := m.wf ∧ ∀ c ∈ m, c.1 < n

theorem Memory.Fits.write {n : Nat} {m : Memory} (h : m.Fits n) {a : Nat} (ha : a < n) (v : Byte) : (m.write a v).Fits n := by
  refine ⟨Memory.write_wf h.1 a v, fun c hc => ?_⟩
  rcases Memory.mem_write hc with rfl | hc
  · exact ha
  · exact h.2 c hc

theorem Memory.Fits.edgeOp {c : Config} {m : Memory} (h : m.Fits c.pixBytes) (e : LutEntry) {dir : Dir} {pitch : BitVec 16}
    {a : Int} {cap : Kernel} (hr : inRange c (footprint dir pitch a segmentLines (capWindow cap)) = true) :
    (edgeOp e dir pitch a cap m).Fits c.pixBytes :=
  ⟨edgeOp_wf h.1 _ _ _ _ _,
    edgeOp_inside h.2 fun j hj k hk => toNat_lt_of_inRange hr j hj k (kernelWrites_subset_capWindow hk)⟩

/-- A raw kernel that writes only samples of its checked window. -/
theorem Memory.Fits.rawApply {s : State} (h : s.pix.Fits s.cfg.pixBytes) {ra : Reg} {dir : Dir} {window ks : List Int}
    (hr : inRange s.cfg (footprint dir s.pitch (s.reg ra).toNat lineZero window) = true) (hks : ∀ k ∈ ks, k ∈ window)
    (kernel : Line → Line) : (rawApply s ra dir ks kernel).Fits s.cfg.pixBytes := by
  refine ⟨storeLine_wf h.1 _ _ _ _, storeLine_inside h.2 _ fun k hk => ?_⟩
  have hlt := toNat_lt_of_inRange hr 0 (by simp [lineZero]) k (hks k hk)
  have horigin : lineOrigin dir s.pitch (s.reg ra).toNat 0 = (s.reg ra).toNat := by cases dir <;> simp [lineOrigin]
  rwa [horigin] at hlt

/-! ### What passed checks say of the footprint -/

theorem inRange_of_rangeCheck {s : State} {l : List Check} {base : Word} {fp : List Int} (h : firstError l = none)
    (hmem : rangeCheck s base fp ∈ l) : inRange s.cfg fp = true := by
  simpa [rangeCheck] using (firstError_eq_none_iff l).1 h _ hmem

theorem inRange_of_rawChecks {s : State} {ra : Reg} {dir : Dir} {window : List Int}
    (h : firstError (rawChecks s ra dir window) = none) :
    inRange s.cfg (footprint dir s.pitch (s.reg ra).toNat lineZero window) = true :=
  inRange_of_rangeCheck (base := s.reg ra) h (by simp [rawChecks])

theorem Memory.Fits.edgeApply {s : State} (h : s.pix.Fits s.cfg.pixBytes) {ra : Reg} {dir : Dir} {lvl : Level} {cap : Kernel}
    (hc : firstError (edgeChecks s ra dir lvl cap) = none) : (edgeApply s ra dir lvl cap).Fits s.cfg.pixBytes :=
  h.edgeOp _ (inRange_of_rangeCheck (base := s.reg ra) hc (by simp [edgeChecks]))

theorem Memory.Fits.applyEdges {s : State} (h : s.pix.Fits s.cfg.pixBytes) {dir : Dir} {plane : Plane} {row : BitVec 3}
    (hc : firstError (dispatchChecks s dir plane row) = none) :
    (applyEdges s dir (edgeList s dir plane row.toNat) s.pix).Fits s.cfg.pixBytes := by
  refine applyEdges_induction h fun m e he hm => hm.edgeOp _ ?_
  refine inRange_of_rangeCheck (base := s.sbbase) hc ?_
  have hmem : rangeCheck s s.sbbase (e.footprint dir s.pitch) ∈
      (edgeList s dir plane row.toNat).map fun e => rangeCheck s s.sbbase (e.footprint dir s.pitch) :=
    List.mem_map_of_mem he
  exact List.mem_append_right _ hmem

/-- A command that completes leaves PIXMEM canonical and inside its bounds: it stores inside its checked footprint. -/
theorem completed_pix_fits {i : Instr} {s : State} (h : s.pix.Fits s.cfg.pixBytes) (hc : firstError (checksOf i s) = none) :
    (completed i s).pix.Fits s.cfg.pixBytes := by
  cases i with
  | k4 ra dir m h4 =>
    rw [completed_k4_pix]
    exact h.rawApply (inRange_of_rawChecks hc) (fun _ hk => hk) _
  | k8 ra dir =>
    rw [completed_k8_pix]
    exact h.rawApply (inRange_of_rawChecks hc) (fun _ hk => kernelWrites_subset_capWindow (cap := .f8) hk) _
  | k16 ra dir =>
    rw [completed_k16_pix]
    exact h.rawApply (inRange_of_rawChecks hc) (fun _ hk => kernelWrites_subset_capWindow (cap := .f16) hk) _
  | lpf4 ra dir lvl =>
    rw [completed_lpf4_pix]
    exact h.edgeApply hc
  | lpf8 ra dir lvl =>
    rw [completed_lpf8_pix]
    exact h.edgeApply hc
  | lpf16 ra dir lvl =>
    rw [completed_lpf16_pix]
    exact h.edgeApply hc
  | dispatch dir plane row =>
    rw [completed_dispatch_pix]
    exact h.applyEdges hc
  | csrr rd csr =>
    simp only [completed]
    split
    · exact h
    · exact h
  | csrw csr rs =>
    simp only [completed]
    split
    · exact h
    · next c _ =>
      obtain ⟨-, -, -, -, hpix, -⟩ := s.writeCsr_keeps c (s.reg rs)
      rw [csrwAfter_eq]
      exact hpix ▸ h
  | _ => simpa [completed] using h

/-! ### The updates of a turn -/

theorem State.Inv.pix_fits {s : State} (h : s.Inv) : s.pix.Fits s.cfg.pixBytes := ⟨h.canonical, h.inside⟩

/-- The invariant does not speak of the port. -/
theorem State.Inv.setPort {s : State} (h : s.Inv) (moves : List Move) (reply : Option Word) :
    ({ s with pending := moves, reply := reply } : State).Inv :=
  ⟨h.legal, h.queue, h.canonical, h.inside, h.errcode, h.codes⟩

theorem State.Inv.setPending {s : State} (h : s.Inv) (moves : List Move) : ({ s with pending := moves } : State).Inv :=
  h.setPort moves s.reply

theorem State.Inv.setCmdq {s : State} (h : s.Inv) {q : List Word} (hq : q.length ≤ s.cfg.cmdqDepth) :
    ({ s with cmdq := q } : State).Inv :=
  ⟨h.legal, hq, h.canonical, h.inside, h.errcode, h.codes⟩

/-- A queue that is kept or flushed has room for all its words. -/
theorem State.Inv.length_le_of_kept_or_empty {s : State} (h : s.Inv) {q : List Word} (hq : q = s.cmdq ∨ q = []) :
    q.length ≤ s.cfg.cmdqDepth := by
  rcases hq with rfl | rfl
  · exact h.queue
  · exact Nat.zero_le _

theorem State.Inv.enterError {s : State} (h : s.Inv) (word : Word) (code : ErrCode) (info : Word) :
    (s.enterError word code info).Inv where
  legal := h.legal
  queue := h.queue
  canonical := h.canonical
  inside := h.inside
  errcode := by cases code <;> simp [ErrCode.code]
  codes := code.code_bounds.2

/-- A write of a CSR keeps `ERR` and `ERRCODE`, or clears both. -/
theorem State.writeCsr_errors (s : State) (c : Csr) (v : Word) :
    ((s.writeCsr c v).status.err = s.status.err ∧ (s.writeCsr c v).status.errcode = s.status.errcode) ∨
      ((s.writeCsr c v).status.err = false ∧ (s.writeCsr c v).status.errcode = 0#8) := by
  cases c with
  | status =>
    simp only [State.writeCsr, State.writeStatus_eq]
    cases v.getLsbD 1 with
    | false => exact .inl (by simp)
    | true => exact .inr (by simp)
  | _ => exact .inl ⟨rfl, rfl⟩

theorem State.Inv.writeCsr {s : State} (h : s.Inv) (c : Csr) (v : Word) : (s.writeCsr c v).Inv := by
  obtain ⟨-, -, -, -, hpix, hcfg, -⟩ := s.writeCsr_keeps c v
  have hqueue := h.length_le_of_kept_or_empty (s.writeCsr_cmdq c v)
  have herrors : ((s.writeCsr c v).status.err = false ↔ (s.writeCsr c v).status.errcode = 0#8) ∧
      (s.writeCsr c v).status.errcode.toNat ≤ 5 := by
    rcases s.writeCsr_errors c v with ⟨he, hcode⟩ | ⟨he, hcode⟩
    · rw [he, hcode]
      exact ⟨h.errcode, h.codes⟩
    · simp [he, hcode]
  exact ⟨hcfg ▸ h.legal, hcfg ▸ hqueue, hpix ▸ h.canonical, hpix ▸ hcfg ▸ h.inside, herrors.1, herrors.2⟩

/-! ### The turns -/

/-- A command of a running block that completes. -/
theorem completed_keeps_inv {i : Instr} {s : State} (h : s.Inv) (he : s.status.err = false)
    (hc : firstError (checksOf i s) = none) : (completed i s).Inv := by
  obtain ⟨hcfg, -⟩ := completed_keeps_model i s
  obtain ⟨-, -, herr, hcode⟩ := completed_keeps_errors i s
  have hpix := completed_pix_fits h.pix_fits hc
  have hcode0 := hcode (h.errcode.1 he)
  have hqueue := h.length_le_of_kept_or_empty (completed_cmdq i s)
  exact ⟨hcfg ▸ h.legal, hcfg ▸ hqueue, hpix.1, hcfg ▸ hpix.2, by simp [herr he, hcode0], by simp [hcode0]⟩

theorem runWord_keeps_inv {w : Word} {s t : State} (h : s.Inv) (he : s.status.err = false) (ht : runWord w s = .next t) :
    t.Inv := by
  cases hd : decode w with
  | reject why =>
    rw [runWord_reject s hd] at ht
    cases ht
    exact h.enterError _ _ _
  | command i =>
    rw [runWord_command s hd] at ht
    rcases exec_cases ht with ⟨code, info, -, rfl⟩ | ⟨hc, rfl⟩
    · exact h.enterError _ _ _
    · exact completed_keeps_inv h he hc

theorem blockTurn_keeps_inv {s t : State} (h : s.Inv) (ht : blockTurn s = .next t) : t.Inv := by
  rcases blockTurn_cases s with ⟨-, hwait⟩ | ⟨w, rest, he, hq, hrun⟩
  · cases hwait.symm.trans ht
    exact h
  · have hlen : rest.length ≤ s.cfg.cmdqDepth := by
      have := h.queue
      rw [hq, List.length_cons] at this
      omega
    exact runWord_keeps_inv (h.setCmdq hlen) he (hrun.symm.trans ht)

theorem pushTurn_keeps_inv {w : Word} {rest : List Move} {s t : State} (h : s.Inv) (ht : pushTurn w rest s = .next t) :
    t.Inv := by
  rcases Nat.lt_or_ge s.cmdq.length s.cfg.cmdqDepth with hroom | hfull
  · cases (pushTurn_room hroom w rest).symm.trans ht
    exact (h.setCmdq (q := s.cmdq ++ [w]) (by simpa using hroom)).setPending rest
  · exact blockTurn_keeps_inv h ((pushTurn_full hfull w rest).symm.trans ht)

theorem State.Inv.hostCsrWrite {s : State} (h : s.Inv) (a : CsrAddr) (v : Word) : (s.hostCsrWrite a v).Inv := by
  unfold State.hostCsrWrite
  split
  · exact h.writeCsr _ v
  · exact h

theorem State.Inv.hostPixWrite {s : State} (h : s.Inv) (a : Nat) (v : Byte) : (s.hostPixWrite a v).Inv := by
  unfold State.hostPixWrite
  split
  · next ha =>
    have hpix := h.pix_fits.write ha v
    exact ⟨h.legal, h.queue, hpix.1, hpix.2, h.errcode, h.codes⟩
  · exact h

theorem State.Inv.resetBy {s : State} (h : s.Inv) (content : List Host.Cell) : (s.resetBy content).Inv where
  legal := h.legal
  queue := Nat.zero_le _
  canonical := (Memory.ofCells_wf s.cfg.pixBytes content).1
  inside := (Memory.ofCells_wf s.cfg.pixBytes content).2
  errcode := by simp [State.resetBy, State.resetWith]
  codes := by simp [State.resetBy, State.resetWith]

/-- An access of the host to PIXMEM that is not refused. -/
theorem eq_of_pixAccess {s after t : State} (h : pixAccess s after = .next t) : t = after := by
  unfold pixAccess at h
  split at h
  · cases h
  · cases h; rfl

theorem moveTurn_keeps_inv {m : Move} {rest : List Move} {s t : State} (h : s.Inv) (ht : moveTurn m rest s = .next t) :
    t.Inv := by
  cases m with
  | block => exact blockTurn_keeps_inv (h.setPending rest) ht
  | push w => exact pushTurn_keeps_inv h ht
  | pushBytes b0 b1 b2 b3 => exact pushTurn_keeps_inv h ht
  | csrRead a => cases ht; exact h.setPort rest _
  | csrWrite a v => cases ht; exact (h.hostCsrWrite a v).setPending rest
  | pixRead a => cases eq_of_pixAccess ht; exact h.setPort rest _
  | pixWrite a v => cases eq_of_pixAccess ht; exact (h.hostPixWrite a v).setPending rest
  | reset content => cases ht; exact (h.resetBy content).setPending rest

end Sys2Proof.Machine

namespace Sys2Proof.Claims

open Sys2Proof.Machine

/-- Settles O8, by the two kinds of turn: the block's when no move is pending, else that of the next pending move. -/
theorem stepKeepsInvariant : Obligations.StepKeepsInvariant := by
  intro s t h ht
  cases hp : s.pending with
  | nil => exact blockTurn_keeps_inv h ((step_block hp).symm.trans ht)
  | cons m rest => exact moveTurn_keeps_inv h ((step_move hp).symm.trans ht)

end Sys2Proof.Claims

/-! ## The state and its ports: O17, O49, O50, O6, O51

Two canonical memories with equal reads are equal. The CSR map is described by the address of each CSR, and each turn that
reaches a CSR by one equation. -/

namespace Sys2Proof.Machine

/-! ### PIXMEM by its reads -/

/-- The first listed address is not listed again, nor is any address below it. -/
theorem Memory.read_tail_of_le_head {c : Host.Cell} {m : Memory} (h : Memory.wf (c :: m)) {x : Nat} (hx : x ≤ c.1) :
    m.read x = Memory.unlisted :=
  Memory.read_of_not_listed fun d hd => by have := Memory.wf_lt h d hd; omega

theorem Memory.read_head (c : Host.Cell) (m : Memory) : Memory.read (c :: m) c.1 = c.2 := by
  rw [Memory.read_cons, if_pos rfl]

/-- The first address `c.1` that a canonical PIXMEM lists is also listed in a canonical one that reads alike, whose first
address is thus not above it. -/
theorem Memory.head_le_of_read_eq {c d : Host.Cell} {m m' : Memory} (h : Memory.wf (c :: m)) (h' : Memory.wf (d :: m'))
    (hread : ∀ a, Memory.read (c :: m) a = Memory.read (d :: m') a) : d.1 ≤ c.1 := by
  by_contra hlt
  have hd : Memory.read (d :: m') c.1 = Memory.unlisted := by
    rw [Memory.read_cons, if_neg (by omega), Memory.read_tail_of_le_head h' (by omega)]
  exact h.2 c (by simp) (by rw [← Memory.read_head c m, hread, hd])

/-- Reads determine a canonical PIXMEM: the heads of two of them have one address, the first one listed, so they hold one
byte, and the tails read alike. -/
theorem Memory.eq_of_read_eq {m m' : Memory} (h : m.wf) (h' : m'.wf) (hread : ∀ a, m.read a = m'.read a) : m = m' := by
  induction m generalizing m' with
  | nil =>
    cases m' with
    | nil => rfl
    | cons d m' => exact absurd (by rw [← Memory.read_head d m', ← hread]; rfl) (h'.2 d (by simp))
  | cons c m ih =>
    cases m' with
    | nil => exact absurd (by rw [← Memory.read_head c m, hread]; rfl) (h.2 c (by simp))
    | cons d m' =>
      have haddr : c.1 = d.1 :=
        le_antisymm (Memory.head_le_of_read_eq h' h fun a => (hread a).symm) (Memory.head_le_of_read_eq h h' hread)
      have hbyte : c.2 = d.2 := by rw [← Memory.read_head c m, ← Memory.read_head d m', hread, haddr]
      have htail : m = m' := ih (Memory.wf_tail h) (Memory.wf_tail h') fun a => by
        by_cases ha : a = c.1
        · rw [Memory.read_tail_of_le_head h ha.le, Memory.read_tail_of_le_head h' (ha.trans haddr).le]
        · have := hread a
          rwa [Memory.read_cons, Memory.read_cons, if_neg ha, if_neg (haddr ▸ ha)] at this
      rw [Prod.ext haddr hbyte, htail]

/-! ### The CSR words as numbers -/

theorem toNat_maskLo (v : BitVec 64) : (maskLo v).toNat = v.toNat % 2 ^ 32 := by simp [maskLo]

theorem toNat_maskHi (v : BitVec 64) : (maskHi v).toNat = v.toNat / 2 ^ 32 := by
  rw [maskHi, toNat_field, Nat.mod_eq_of_lt (by omega)]

theorem toNat_ctrlWord (s : State) : s.ctrlWord.toNat = s.ctrl.ieDone.toNat + 2 * s.ctrl.ieErr.toNat := by
  simp only [State.ctrlWord, toNat_fields, BitVec.toNat_ofNat, BitVec.toNat_ofBool]
  omega

theorem toNat_statusBits (code : BitVec 8) (busy err done : Bool) :
    (statusBits code busy err done).toNat = done.toNat + 2 * err.toNat + 4 * busy.toNat + 256 * code.toNat := by
  simp only [statusBits, toNat_fields, BitVec.toNat_ofNat, BitVec.toNat_ofBool]
  omega

theorem toNat_qstatWord {s : State} (hlegal : s.cfg.Legal) (hroom : s.cmdq.length ≤ s.cfg.cmdqDepth) :
    s.qstatWord.toNat = s.cmdq.length + 256 * s.cfg.cmdqDepth := by
  obtain ⟨-, -, hdepth⟩ := hlegal
  simp only [State.qstatWord, toNat_fields, BitVec.toNat_ofNat]
  omega

/-! ### What a write of a CSR reads and counts -/

/-- Only the view of `STATUS` differs between the readers of a CSR. -/
theorem State.csrValue_view (s : State) (view view' : Word) {c : Csr} (hc : c ≠ .status) :
    s.csrValue view c = s.csrValue view' c := by
  cases c with
  | status => exact absurd rfl hc
  | _ => rfl

theorem State.writeCsr_readOnly (s : State) {c : Csr} (hc : c.readOnly = true) (v : Word) : s.writeCsr c v = s := by
  cases c with
  | id | errcmd | errinfo | qstat | pixsize => rfl
  | _ => cases hc

theorem State.writeCsr_cmdcnt (s : State) (c : Csr) (v : Word) :
    (s.writeCsr c v).cmdcnt = if c = .cmdcnt then v else s.cmdcnt := by
  cases c <;> simp [State.writeCsr, State.writeStatus_eq]

/-- A write of a CSR does not look at the pending moves. -/
theorem State.writeCsr_of_pending (s : State) (c : Csr) (v : Word) (moves : List Move) :
    { s with pending := moves }.writeCsr c v = { s.writeCsr c v with pending := moves } := by
  cases c with
  | status => simp [State.writeCsr, State.writeStatus_eq]
  | _ => rfl

end Sys2Proof.Machine

namespace Sys2Proof.Claims

open Sys2Proof.Machine

/-! ### The CSR map by its addresses -/

/-- The address of a CSR, 10_state.md R25 and R36; `csrAt_eq_some_iff` ties it to the map. -/
def csrAddress : Csr → CsrAddr
  | .id => 0x00#8
  | .ctrl => 0x01#8
  | .status => 0x02#8
  | .pitch => 0x03#8
  | .sbbase => 0x04#8
  | .cmdcnt => 0x05#8
  | .errcmd => 0x06#8
  | .errinfo => 0x07#8
  | .qstat => 0x08#8
  | .pixsize => 0x09#8
  | .maskLo m => BitVec.ofNat 8 (maskAddr m)
  | .maskHi m => BitVec.ofNat 8 (maskAddr m + 1)

theorem csrAt_csrAddress (c : Csr) : csrAt (csrAddress c) = some c := by
  cases c with
  | maskLo m => cases m <;> rfl
  | maskHi m => cases m <;> rfl
  | _ => rfl

theorem csrAt_eq_some_iff {a : CsrAddr} {c : Csr} : csrAt a = some c ↔ a = csrAddress c := by
  constructor
  · intro h
    unfold csrAt at h
    split at h <;> cases h <;> exact BitVec.eq_of_toNat_eq (by assumption)
  · rintro rfl
    exact csrAt_csrAddress c

theorem not_noCsr_csrAddress (c : Csr) : ¬ noCsr (csrAddress c) := by
  unfold noCsr
  cases c with
  | maskLo m => cases m <;> decide
  | maskHi m => cases m <;> decide
  | _ => decide

theorem csrAt_eq_none_iff {a : CsrAddr} : csrAt a = none ↔ noCsr a := by
  constructor
  · intro h
    unfold csrAt at h
    unfold noCsr
    split at h
    case h_27 => simp only [imp_false] at *; omega -- no row of the map has this address
    all_goals cases h
  · intro h
    cases hc : csrAt a with
    | none => rfl
    | some c => exact absurd (csrAt_eq_some_iff.1 hc ▸ h) (not_noCsr_csrAddress c)

/-- An address that is not outside the map is that of a CSR. -/
theorem exists_csrAddress {a : CsrAddr} (h : ¬ noCsr a) : ∃ c, a = csrAddress c := by
  cases hc : csrAt a with
  | none => exact absurd (csrAt_eq_none_iff.1 hc) h
  | some c => exact ⟨c, csrAt_eq_some_iff.1 hc⟩

theorem csrAddress_inj {c c' : Csr} : csrAddress c = csrAddress c' ↔ c = c' := by
  rw [← csrAt_eq_some_iff, csrAt_csrAddress, Option.some_inj]

theorem csrAddress_mem_readOnlyAddrs (c : Csr) : csrAddress c ∈ readOnlyAddrs ↔ c.readOnly = true := by
  cases c with
  | maskLo m => cases m <;> decide
  | maskHi m => cases m <;> decide
  | _ => decide

/-! ### The host port by CSR -/

@[simp] theorem hostCsrRead_csrAddress (s : State) (c : Csr) : s.hostCsrRead (csrAddress c) = s.csrValue s.hostStatus c := by
  simp [State.hostCsrRead, csrAt_csrAddress]

@[simp] theorem hostCsrWrite_csrAddress (s : State) (c : Csr) (v : Word) :
    s.hostCsrWrite (csrAddress c) v = s.writeCsr c v := by
  simp [State.hostCsrWrite, csrAt_csrAddress]

theorem hostCsrRead_of_noCsr (s : State) {a : CsrAddr} (h : noCsr a) : s.hostCsrRead a = 0#32 := by
  simp [State.hostCsrRead, csrAt_eq_none_iff.2 h]

theorem hostCsrWrite_of_noCsr (s : State) {a : CsrAddr} (h : noCsr a) (v : Word) : s.hostCsrWrite a v = s := by
  simp [State.hostCsrWrite, csrAt_eq_none_iff.2 h]

/-- A host write of an address outside the map or of a read-only CSR. -/
theorem hostCsrWrite_ignored (s : State) {a : CsrAddr} (h : noCsr a ∨ a ∈ readOnlyAddrs) (v : Word) :
    s.hostCsrWrite a v = s := by
  by_cases hno : noCsr a
  · exact hostCsrWrite_of_noCsr s hno v
  · obtain ⟨c, rfl⟩ := exists_csrAddress hno
    have hro := (csrAddress_mem_readOnlyAddrs c).1 (h.resolve_left hno)
    rw [hostCsrWrite_csrAddress, s.writeCsr_readOnly hro]

/-- What a host write of any address keeps. -/
theorem hostCsrWrite_keeps (s : State) (a : CsrAddr) (v : Word) :
    (s.hostCsrWrite a v).errcmd = s.errcmd ∧ (s.hostCsrWrite a v).errinfo = s.errinfo ∧
    (s.status.err = false → (s.hostCsrWrite a v).status.err = false) ∧ (s.hostCsrWrite a v).pix = s.pix ∧
    (s.hostCsrWrite a v).regs = s.regs ∧ (s.hostCsrWrite a v).lut = s.lut := by
  by_cases hno : noCsr a
  · simp [hostCsrWrite_of_noCsr s hno]
  · obtain ⟨c, rfl⟩ := exists_csrAddress hno
    obtain ⟨hregs, hlut, -, -, hpix, -, -, -, herrcmd, herrinfo⟩ := s.writeCsr_keeps c v
    rw [hostCsrWrite_csrAddress]
    refine ⟨herrcmd, herrinfo, fun he => ?_, hpix, hregs, hlut⟩
    rcases s.writeCsr_errors c v with ⟨hkept, -⟩ | ⟨hcleared, -⟩
    · rw [hkept, he]
    · exact hcleared

theorem toNat_hostStatus (s : State) : s.hostStatus.toNat = hostStatusNumber s := by
  rw [State.hostStatus, toNat_statusBits]
  unfold hostStatusNumber State.busy
  cases s.cmdq <;> cases s.status.err <;> rfl

/-- The host reads the numbers that `csrReads` lists for the command stream, but for `STATUS`. -/
theorem toNat_hostCsrRead {s : State} (hlegal : s.cfg.Legal) (hroom : s.cmdq.length ≤ s.cfg.cmdqDepth) :
    ∀ p ∈ csrReads s, p.1 ≠ 0x02#8 → (s.hostCsrRead p.1).toNat = p.2 := by
  have hlo (m : MaskName) := toNat_maskLo (s.masks.get m)
  have hhi (m : MaskName) := toNat_maskHi (s.masks.get m)
  have hpitch : (s.pitch.setWidth 32).toNat = s.pitch.toNat := BitVec.toNat_setWidth_of_le (by decide)
  have hpix : (BitVec.ofNat 32 s.cfg.pixBytes).toNat = s.cfg.pixBytes := by
    obtain ⟨⟨-, hsize⟩, -⟩ := hlegal
    exact Nat.mod_eq_of_lt (by omega)
  simp only [csrReads, List.forall_mem_append, List.forall_mem_cons]
  refine ⟨⟨⟨fun _ => rfl, fun _ => toNat_ctrlWord s, fun h => absurd rfl h, fun _ => hpitch, fun _ => rfl, fun _ => rfl,
    fun _ => rfl, fun _ => rfl, fun _ => toNat_qstatWord hlegal hroom, fun _ => hpix, List.forall_mem_nil _⟩, ?_⟩, ?_⟩
  · exact ⟨fun _ => hlo .ml16, fun _ => hhi .ml16, fun _ => hlo .ml8, fun _ => hhi .ml8, fun _ => hlo .ml4,
      fun _ => hhi .ml4, fun _ => hlo .ml4i, fun _ => hhi .ml4i, List.forall_mem_nil _⟩
  · exact ⟨fun _ => hlo .ma16, fun _ => hhi .ma16, fun _ => hlo .ma8, fun _ => hhi .ma8, fun _ => hlo .ma4,
      fun _ => hhi .ma4, fun _ => hlo .ma4i, fun _ => hhi .ma4i, List.forall_mem_nil _⟩

/-! ### The commands `CSRR` and `CSRW` on a mapped address -/

theorem exec_csrr_csrAddress (s : State) (rd : Reg) (c : Csr) :
    exec (.csrr rd (csrAddress c)) s = .next (s.setReg rd (s.csrValue s.streamStatus c)).retire := by
  rw [exec_complete (by simp [checksOf, csrAt_csrAddress, firstError])]
  simp [completed, csrAt_csrAddress]

theorem exec_csrw_csrAddress (s : State) {c : Csr} (hc : c.readOnly = false) (rs : Reg) :
    exec (.csrw (csrAddress c) rs) s =
      .next { s.writeCsr c (s.reg rs) with cmdcnt := if c = .cmdcnt then s.reg rs else s.cmdcnt + 1#32 } := by
  rw [exec_complete (by simp [checksOf, csrAt_csrAddress, firstError, hc])]
  simp [completed, csrAt_csrAddress, csrwAfter_eq]

/-! ### The turns -/

/-- The block's turn, with the move that gave it gone. -/
theorem step_of_blockIsNext {s : State} {moves : List Move} (h : blockIsNext s moves) :
    step s = blockTurn { s with pending := moves } := by
  rcases h with ⟨hnone, rfl⟩ | hmove
  · rw [step_block hnone, ← hnone]
  · exact step_blockMove hmove

theorem step_csrRead {s : State} {a : CsrAddr} {rest : List Move} (h : s.pending = .csrRead a :: rest) :
    step s = .next { s with pending := rest, reply := some (s.hostCsrRead a) } :=
  step_move h

theorem step_csrWrite {s : State} {a : CsrAddr} {v : Word} {rest : List Move} (h : s.pending = .csrWrite a v :: rest) :
    step s = .next { s.hostCsrWrite a v with pending := rest } :=
  step_move h

/-- A host write of a CSR, as a write on the state whose move is gone. -/
theorem step_csrWrite_csrAddress {s : State} {c : Csr} {v : Word} {rest : List Move}
    (h : s.pending = .csrWrite (csrAddress c) v :: rest) : step s = .next ({ s with pending := rest }.writeCsr c v) := by
  rw [step_csrWrite h, hostCsrWrite_csrAddress, State.writeCsr_of_pending s c v rest]

/-! ### The statements -/

/-- Settles O17, by induction on the two lists of cells. -/
theorem canonicalMemoryIsDeterminedByReads : Obligations.CanonicalMemoryIsDeterminedByReads :=
  fun _ _ h h' hread => Memory.eq_of_read_eq h h' hread

/-- Settles O49: a move at an address outside the map, a write that is ignored, a read, and a write. -/
theorem hostCsrNeverFaults : Obligations.HostCsrNeverFaults := by
  intro s a v rest
  refine ⟨fun hp ha => ?_, fun hp ha => ?_, fun hp => ?_, fun hp => ?_⟩
  · rw [step_csrRead hp, hostCsrRead_of_noCsr s ha]
  · rw [step_csrWrite hp, hostCsrWrite_ignored s ha]
  · exact ⟨_, _, step_csrRead hp, rfl, fun n hmem ha hlegal hroom => toNat_hostCsrRead hlegal hroom _ hmem ha⟩
  · exact ⟨_, step_csrWrite hp, hostCsrWrite_keeps s a v⟩

/-- Settles O50: at the address of a CSR both ports write by `writeCsr` and read by `csrValue`; only the count and the view of
`STATUS` differ. -/
theorem portsReachTheSameCsrs : Obligations.PortsReachTheSameCsrs := by
  constructor
  · rintro s a _ r ha hwritable rfl hp
    obtain ⟨c, rfl⟩ := exists_csrAddress ha
    have hc : c.readOnly = false := by simpa [csrAddress_mem_readOnlyAddrs] using hwritable
    refine ⟨_, _, step_csrWrite_csrAddress hp, exec_csrw_csrAddress _ hc r, rfl, fun hne => ?_, fun heq => ?_⟩
    · have hcnt : c ≠ .cmdcnt := fun h => hne (congrArg csrAddress h)
      simp [State.writeCsr_cmdcnt, hcnt]
    · have hcnt : c = .cmdcnt := csrAddress_inj.1 heq
      simp [State.writeCsr_cmdcnt, hcnt, State.reg]
  · intro s a r ha hstatus hp
    obtain ⟨c, rfl⟩ := exists_csrAddress ha
    have hc : c ≠ .status := fun h => hstatus (congrArg csrAddress h)
    have hread : s.hostCsrRead (csrAddress c) = { s with pending := [] }.csrValue s.streamStatus c := by
      rw [hostCsrRead_csrAddress, s.csrValue_view _ s.streamStatus hc]
      rfl
    refine ⟨_, _, step_csrRead hp, exec_csrr_csrAddress _ r c, ?_, rfl⟩
    rw [State.reg_retire, State.reg_setReg_self, hread]
    rfl

/-- Settles O6: the block's turn takes the head of the queue, and running it is `exec` of the command it decodes to. -/
theorem stepRunsDecodedCommand : Obligations.StepRunsDecodedCommand := by
  rintro s moves w rest i hturn ⟨he, hq⟩ hd
  rw [step_of_blockIsNext hturn, blockTurn_head (s := { s with pending := moves }) he hq, runWord_command _ hd]

/-- Settles O51: the fields of the host's `STATUS` word as a number, and the turn of a host read. -/
theorem hostStatusWord : Obligations.HostStatusWord :=
  ⟨toNat_hostStatus, fun s _ hp => ⟨s.hostStatus, toNat_hostStatus s, step_csrRead hp⟩⟩

end Sys2Proof.Claims

/-! ## What commands write and what they do not read: O15, O34, O48, O57

`completed` says what a command leaves. Each field has one lemma that names the commands that write it. For what is not read,
the checks and the completed state are shown not to change with it. -/

namespace Sys2Proof.Machine

/-! ### What a completed command leaves -/

/-- What a completed `CSRR` leaves, whatever the address. -/
theorem completed_csrr_cases (rd : Reg) (csr : CsrAddr) (s : State) :
    completed (.csrr rd csr) s = s ∨ ∃ v, completed (.csrr rd csr) s = (s.setReg rd v).retire := by
  simp only [completed]
  split
  · exact .inl rfl
  · exact .inr ⟨_, rfl⟩

/-- What a completed `CSRW` leaves, whatever the address. -/
theorem completed_csrw_cases (csr : CsrAddr) (rs : Reg) (s : State) :
    completed (.csrw csr rs) s = s ∨ ∃ c n, csrAt csr = some c ∧
      completed (.csrw csr rs) s = { s.writeCsr c (s.reg rs) with cmdcnt := n } := by
  simp only [completed]
  split
  · exact .inl rfl
  · next c hc => exact .inr ⟨c, _, hc, csrwAfter_eq s c (s.reg rs)⟩

/-- `CSRR` writes no table, no CSR but the count, and no byte of PIXMEM. -/
theorem completed_csrr_keeps (rd : Reg) (csr : CsrAddr) (s : State) :
    ∃ regs n, completed (.csrr rd csr) s = { s with regs := regs, cmdcnt := n } := by
  rcases completed_csrr_cases rd csr s with h | ⟨v, h⟩
  · exact ⟨s.regs, s.cmdcnt, h⟩
  · exact ⟨_, _, h⟩

/-- `CSRW` writes no register, no table and no byte of PIXMEM. -/
theorem completed_csrw_keeps (csr : CsrAddr) (rs : Reg) (s : State) :
    (completed (.csrw csr rs) s).regs = s.regs ∧ (completed (.csrw csr rs) s).lut = s.lut ∧
    (completed (.csrw csr rs) s).lvltab = s.lvltab ∧ (completed (.csrw csr rs) s).lvlu = s.lvlu ∧
    (completed (.csrw csr rs) s).pix = s.pix := by
  rcases completed_csrw_cases csr rs s with h | ⟨c, n, -, h⟩
  · simp [h]
  · obtain ⟨hregs, hlut, hlvltab, hlvlu, hpix, -⟩ := s.writeCsr_keeps c (s.reg rs)
    rw [h]
    exact ⟨hregs, hlut, hlvltab, hlvlu, hpix⟩

/-- `CTRL`, `PITCH`, `SBBASE`, the masks and the queue change by `CSRW` only. -/
theorem completed_keeps_csrs {i : Instr} (h : ∀ csr rs, i ≠ .csrw csr rs) (s : State) :
    (completed i s).ctrl = s.ctrl ∧ (completed i s).pitch = s.pitch ∧ (completed i s).sbbase = s.sbbase ∧
    (completed i s).masks = s.masks ∧ (completed i s).cmdq = s.cmdq := by
  cases i with
  | csrw csr rs => exact absurd rfl (h csr rs)
  | csrr rd csr => obtain ⟨_, _, hc⟩ := completed_csrr_keeps rd csr s; simp [hc]
  | _ => simp [completed]

theorem completed_lut {i : Instr} (h : ∀ l rs, i ≠ .lutw l rs) (s : State) : (completed i s).lut = s.lut := by
  cases i with
  | lutw l rs => exact absurd rfl (h l rs)
  | csrr rd csr => obtain ⟨_, _, hc⟩ := completed_csrr_keeps rd csr s; simp [hc]
  | csrw csr rs => obtain ⟨-, hkept, -⟩ := completed_csrw_keeps csr rs s; exact hkept
  | _ => simp [completed]

theorem completed_lvltab {i : Instr} (h : ∀ l rs, i ≠ .lvlw l rs) (s : State) : (completed i s).lvltab = s.lvltab := by
  cases i with
  | lvlw l rs => exact absurd rfl (h l rs)
  | csrr rd csr => obtain ⟨_, _, hc⟩ := completed_csrr_keeps rd csr s; simp [hc]
  | csrw csr rs => obtain ⟨-, -, hkept, -⟩ := completed_csrw_keeps csr rs s; exact hkept
  | _ => simp [completed]

theorem completed_lvlu {i : Instr} (h : ∀ q rs, i ≠ .lvuw q rs) (s : State) : (completed i s).lvlu = s.lvlu := by
  cases i with
  | lvuw q rs => exact absurd rfl (h q rs)
  | csrr rd csr => obtain ⟨_, _, hc⟩ := completed_csrr_keeps rd csr s; simp [hc]
  | csrw csr rs => obtain ⟨-, -, -, hkept, -⟩ := completed_csrw_keeps csr rs s; exact hkept
  | _ => simp [completed]

/-- `DONE` and `CSRW` apart, a completed command keeps `STATUS`. -/
theorem completed_status {i : Instr} (hdone : i ≠ .done) (hcsrw : ∀ csr rs, i ≠ .csrw csr rs) (s : State) :
    (completed i s).status = s.status := by
  cases i with
  | done => exact absurd rfl hdone
  | csrw csr rs => exact absurd rfl (hcsrw csr rs)
  | csrr rd csr => obtain ⟨_, _, hc⟩ := completed_csrr_keeps rd csr s; simp [hc]
  | _ => simp [completed]

/-- `DONE` after a write of a CSR: cleared by a 1 in bit 0 of a write of `STATUS`. -/
theorem State.writeCsr_done (s : State) (c : Csr) (v : Word) :
    (s.writeCsr c v).status.done = (s.status.done && !(decide (c = .status) && v.getLsbD 0)) := by
  cases c <;> simp [State.writeCsr, State.writeStatus_eq]

/-! ### What a command with other thresholds leaves -/

/-- A write of a CSR does not look at the LUT. -/
theorem State.writeCsr_of_lut (s : State) (c : Csr) (v : Word) (l : Vector LutEntry 64) :
    { s with lut := l }.writeCsr c v = { s.writeCsr c v with lut := l } := by
  cases c with
  | status => simp [State.writeCsr, State.writeStatus_eq]
  | _ => rfl

/-- A raw kernel reads no LUT entry. -/
theorem rawApply_of_lut (s : State) (l : Vector LutEntry 64) (ra : Reg) (dir : Dir) (ks : List Int) (kernel : Line → Line) :
    rawApply { s with lut := l } ra dir ks kernel = rawApply s ra dir ks kernel := rfl

theorem applyEdges_congr {s s' : State} {dir : Dir} {es : List Edge} (hpitch : s'.pitch = s.pitch)
    (hlut : ∀ e ∈ es, s'.lutAt e.lvl = s.lutAt e.lvl) (m : Memory) : applyEdges s' dir es m = applyEdges s dir es m := by
  unfold applyEdges
  exact List.foldl_ext _ _ m fun m e he => by rw [hlut e he, hpitch]

/-! ### The unit edges of a dispatch read the unit's bits and level -/

theorem dirMask_congr {m m' : Masks} {b : Nat} (h : ∀ n, (m'.get n).getLsbD b = (m.get n).getLsbD b) (dir : Dir) :
    (dirMask16 m' dir).getLsbD b = (dirMask16 m dir).getLsbD b ∧ (dirMask8 m' dir).getLsbD b = (dirMask8 m dir).getLsbD b ∧
    (dirMask4 m' dir).getLsbD b = (dirMask4 m dir).getLsbD b ∧
    (dirMask4i m' dir).getLsbD b = (dirMask4i m dir).getLsbD b := by
  cases dir with
  | v => exact ⟨h .ml16, h .ml8, h .ml4, h .ml4i⟩
  | h => exact ⟨h .ma16, h .ma8, h .ma4, h .ma4i⟩

theorem boundaryClass_congr {m m' : Masks} {b : Nat} (h : ∀ n, (m'.get n).getLsbD b = (m.get n).getLsbD b) (dir : Dir) :
    boundaryClass m' dir b = boundaryClass m dir b := by
  obtain ⟨h16, h8, h4, -⟩ := dirMask_congr h dir
  simp only [boundaryClass, h16, h8, h4]

/-- A unit's edges, with other masks and unit levels that agree at the unit. -/
theorem unitEdges_congr (s : State) {masks : Masks} {lvlu : Vector Level 64} {plane : Plane} {row c : Nat}
    (hmask : ∀ n, (masks.get n).getLsbD (row * planeCols plane + c) = (s.masks.get n).getLsbD (row * planeCols plane + c))
    (hlevel : lvlu[row * planeCols plane + c]? = s.lvlu[row * planeCols plane + c]?) (dir : Dir) :
    unitEdges { s with masks := masks, lvlu := lvlu } dir plane row c = unitEdges s dir plane row c := by
  have hlvl : { s with masks := masks, lvlu := lvlu }.unitLevel (row * planeCols plane + c) =
      s.unitLevel (row * planeCols plane + c) := by simp only [State.unitLevel, hlevel]
  obtain ⟨-, -, -, h4i⟩ := dirMask_congr hmask dir
  simp only [unitEdges, hlvl, boundaryClass_congr hmask dir, h4i]
  rfl

/-- The units of a chroma row are units 0..15: other masks and unit levels that agree there make the same edges. -/
theorem edgeList_chroma_congr (s : State) {masks : Masks} {lvlu : Vector Level 64}
    (hmask : ∀ (m : MaskName) (b : Nat), b < 16 → (masks.get m).getLsbD b = (s.masks.get m).getLsbD b)
    (hlevel : ∀ n, (h : n < 16) → lvlu[n] = s.lvlu[n]) (dir : Dir) {row : Nat} (hrow : row < 4) :
    edgeList { s with masks := masks, lvlu := lvlu } dir .chroma row = edgeList s dir .chroma row := by
  unfold edgeList
  refine List.flatMap_congr fun c hc => ?_
  have hunit : row * planeCols .chroma + c < 16 := by
    have : c < 4 := List.mem_range.1 hc
    show row * 4 + c < 16
    omega
  refine unitEdges_congr s (fun n => hmask n _ hunit) ?_ dir
  rw [Vector.getElem?_eq_getElem (by omega), Vector.getElem?_eq_getElem (by omega), hlevel _ hunit]

section
variable {s : State} {masks : Masks} {lvlu : Vector Level 64} {dir : Dir} {plane : Plane} {row : BitVec 3}

theorem checksOf_dispatch_congr
    (h : edgeList { s with masks := masks, lvlu := lvlu } dir plane row.toNat = edgeList s dir plane row.toNat) :
    checksOf (.dispatch dir plane row) { s with masks := masks, lvlu := lvlu } = checksOf (.dispatch dir plane row) s := by
  simp only [checksOf, dispatchChecks, h]
  rfl

theorem completed_dispatch_congr
    (h : edgeList { s with masks := masks, lvlu := lvlu } dir plane row.toNat = edgeList s dir plane row.toNat) :
    completed (.dispatch dir plane row) { s with masks := masks, lvlu := lvlu } =
      { completed (.dispatch dir plane row) s with masks := masks, lvlu := lvlu } := by
  have hpix := applyEdges_congr (s := s) (s' := { s with masks := masks, lvlu := lvlu }) (dir := dir)
    (es := edgeList s dir plane row.toNat) rfl (fun _ _ => rfl) s.pix
  simp only [completed, State.retire, h, hpix]

end

end Sys2Proof.Machine

namespace Sys2Proof.Claims

open Sys2Proof.Machine

/-! ### Who writes what -/

theorem completed_reg {i : Instr} {r : Reg} (h : destination i ≠ some r) (s : State) : (completed i s).reg r = s.reg r := by
  cases i with
  | csrw csr rs =>
    obtain ⟨hregs, -⟩ := completed_csrw_keeps csr rs s
    simp [State.reg, hregs]
  | csrr rd csr =>
    rcases completed_csrr_cases rd csr s with hc | ⟨v, hc⟩
    · rw [hc]
    · rw [hc, State.reg_retire, s.reg_setReg_ne v fun he => h (congrArg some he.symm)]
  | li rd | lih rd | lutr rd | lvlr rd | lvur rd | cls rd =>
    simp only [completed, State.reg_retire]
    exact s.reg_setReg_ne _ fun he => h (congrArg some he.symm)
  | _ => simp [completed, State.reg]

theorem completed_pix {i : Instr} (h : isPixel i = false ∨ ∃ rd ra dir wide lvl, i = .cls rd ra dir wide lvl) (s : State) :
    (completed i s).pix = s.pix := by
  cases i with
  | csrr rd csr => obtain ⟨_, _, hc⟩ := completed_csrr_keeps rd csr s; simp [hc]
  | csrw csr rs => obtain ⟨-, -, -, -, hkept⟩ := completed_csrw_keeps csr rs s; exact hkept
  | k4 | k8 | k16 | lpf4 | lpf8 | lpf16 | dispatch => simp [isPixel] at h
  | _ => simp [completed]

/-- `DONE` is cleared by a write of `STATUS` only. -/
theorem csrw_of_completed_done_false {i : Instr} {s : State} (h : s.status.done = true)
    (h' : (completed i s).status.done = false) : ∃ rs, i = .csrw 0x02#8 rs ∧ (s.reg rs).getLsbD 0 = true := by
  cases i with
  | csrw csr rs =>
    rcases completed_csrw_cases csr rs s with hc | ⟨c, n, hcsr, hc⟩
    · simp [hc, h] at h'
    · obtain ⟨rfl, hbit⟩ : c = .status ∧ (s.reg rs).getLsbD 0 = true := by
        simpa [hc, State.writeCsr_done, h] using h'
      exact ⟨rs, by rw [csrAt_eq_some_iff.1 hcsr]; rfl, hbit⟩
  | done => simp [completed] at h'
  | _ => rw [completed_status (by simp) (by simp), h] at h'; cases h'

theorem eq_done_of_completed_done {i : Instr} {s : State} (h : s.status.done = false)
    (h' : (completed i s).status.done = true) : i = .done := by
  cases i with
  | csrw csr rs =>
    rcases completed_csrw_cases csr rs s with hc | ⟨c, n, -, hc⟩ <;> simp [hc, State.writeCsr_done, h] at h'
  | done => rfl
  | _ => rw [completed_status (by simp) (by simp), h] at h'; cases h'

/-- Settles O15: an error entry writes none of these, and a completed command what its lemmas say. -/
theorem whoWritesWhat : Obligations.WhoWritesWhat := by
  intro i s t ht
  rcases exec_cases ht with ⟨code, info, -, rfl⟩ | ⟨-, rfl⟩
  · exact ⟨fun _ _ => rfl, fun _ => ⟨rfl, rfl, rfl, rfl, rfl⟩, fun _ => rfl, fun _ => rfl, fun _ => rfl, fun _ => rfl,
      fun h h' => by simp [h] at h', fun h h' => by simp [h] at h', rfl, rfl, rfl⟩
  · exact ⟨fun _ h => completed_reg h s, fun h => completed_keeps_csrs h s, fun h => completed_lut h s,
      fun h => completed_lvltab h s, fun h => completed_lvlu h s, fun h => completed_pix h s,
      csrw_of_completed_done_false, eq_done_of_completed_done, completed_keeps_model i s⟩

/-! ### Thresholds of invalid entries -/

theorem lutAgree.lutAt_valid {s : State} {l : Vector LutEntry 64} (h : lutAgree s.lut l) (idx : Level) :
    ({ s with lut := l }.lutAt idx).valid = (s.lutAt idx).valid :=
  (h idx.toNat idx.isLt).1.symm

theorem lutAgree.lutAt_eq {s : State} {l : Vector LutEntry 64} (h : lutAgree s.lut l) {idx : Level}
    (hv : (s.lutAt idx).valid = true) : { s with lut := l }.lutAt idx = s.lutAt idx :=
  ((h idx.toNat idx.isLt).2 hv).symm

theorem lutAgree.set {l l' : Vector LutEntry 64} (h : lutAgree l l') (idx : Level) (e : LutEntry) :
    lutAgree (l.set idx.toNat e idx.isLt) (l'.set idx.toNat e idx.isLt) := by
  intro n hn
  simp only [Vector.getElem_set]
  split
  · exact ⟨rfl, fun _ => rfl⟩
  · exact h n hn

theorem lutAgree.lutCheck_eq {s : State} {l : Vector LutEntry 64} (h : lutAgree s.lut l) (idx : Level) :
    lutCheck { s with lut := l } idx = lutCheck s idx := by
  simp only [lutCheck, h.lutAt_valid]

/-- The checks of a command read the `VALID` bits only. -/
theorem lutAgree.checksOf_eq {s : State} {l : Vector LutEntry 64} (h : lutAgree s.lut l) (i : Instr) :
    checksOf i { s with lut := l } = checksOf i s := by
  have hcheck := h.lutCheck_eq
  cases i with
  | lutr rd idx => simp only [checksOf, hcheck]
  | cls rd ra dir wide lvl => simp only [checksOf, hcheck]; rfl
  | lpf4 ra dir lvl | lpf8 ra dir lvl | lpf16 ra dir lvl => simp only [checksOf, edgeChecks, hcheck]; rfl
  | dispatch dir plane row => simp only [checksOf, dispatchChecks, hcheck]; rfl
  | _ => rfl

/-- A level whose check passed is valid. -/
theorem valid_of_lutCheck {s : State} {checks : List Check} {idx : Level} (h : firstError checks = none)
    (hmem : lutCheck s idx ∈ checks) : (s.lutAt idx).valid = true := by
  simpa [lutCheck] using (firstError_eq_none_iff checks).1 h _ hmem

theorem lutAgree.edgeApply_eq {s : State} {l : Vector LutEntry 64} (h : lutAgree s.lut l) {ra : Reg} {dir : Dir}
    {lvl : Level} {cap : Kernel} (hc : firstError (edgeChecks s ra dir lvl cap) = none) :
    edgeApply { s with lut := l } ra dir lvl cap = edgeApply s ra dir lvl cap := by
  have hv := valid_of_lutCheck (s := s) (idx := lvl) hc (by simp [edgeChecks])
  simp only [edgeApply, h.lutAt_eq hv]
  rfl

theorem lutAgree.applyEdges_eq {s : State} {l : Vector LutEntry 64} (h : lutAgree s.lut l) {dir : Dir} {plane : Plane}
    {row : BitVec 3} (hc : firstError (dispatchChecks s dir plane row) = none) :
    applyEdges { s with lut := l } dir (edgeList s dir plane row.toNat) s.pix =
      applyEdges s dir (edgeList s dir plane row.toNat) s.pix := by
  have hlut : ∀ e ∈ edgeList s dir plane row.toNat, { s with lut := l }.lutAt e.lvl = s.lutAt e.lvl := by
    intro e he
    have hmem : lutCheck s e.lvl ∈ (edgeList s dir plane row.toNat).map fun e => lutCheck s e.lvl := List.mem_map_of_mem he
    exact h.lutAt_eq (valid_of_lutCheck hc (List.mem_append_left _ (List.mem_cons_of_mem _ (List.mem_cons_of_mem _ hmem))))
  exact applyEdges_congr (s := s) (s' := { s with lut := l }) (dir := dir) rfl hlut s.pix

/-- A command that completes reads the thresholds of valid entries only: the one its passed checks name. -/
theorem lutAgree.completed_eq {i : Instr} {s : State} {l : Vector LutEntry 64} (h : lutAgree s.lut l)
    (hi : ∀ idx rs, i ≠ .lutw idx rs) (hc : firstError (checksOf i s) = none) :
    completed i { s with lut := l } = { completed i s with lut := l } := by
  cases i with
  | lutw idx rs => exact absurd rfl (hi idx rs)
  | lutr rd idx | cls rd ra dir wide idx =>
    have hv := valid_of_lutCheck (s := s) (idx := idx) hc (by simp [checksOf])
    simp only [completed, h.lutAt_eq hv]
    rfl
  | k4 | k8 | k16 => simp only [completed, State.retire, rawApply_of_lut]
  | lpf4 ra dir lvl =>
    have hpix := h.edgeApply_eq (ra := ra) (dir := dir) (lvl := lvl) (cap := .f4) hc
    simp only [completed, State.retire, hpix]
  | lpf8 ra dir lvl =>
    have hpix := h.edgeApply_eq (ra := ra) (dir := dir) (lvl := lvl) (cap := .f8) hc
    simp only [completed, State.retire, hpix]
  | lpf16 ra dir lvl =>
    have hpix := h.edgeApply_eq (ra := ra) (dir := dir) (lvl := lvl) (cap := .f16) hc
    simp only [completed, State.retire, hpix]
  | dispatch dir plane row =>
    have hpix := h.applyEdges_eq (dir := dir) (plane := plane) (row := row) hc
    have hlist : edgeList { s with lut := l } dir plane row.toNat = edgeList s dir plane row.toNat := rfl
    simp only [completed, State.retire, hlist, hpix]
  | csrr rd csr =>
    simp only [completed]
    cases csrAt csr <;> rfl
  | csrw csr rs =>
    simp only [completed]
    cases csrAt csr with
    | none => rfl
    | some c => simp only [csrwAfter_eq, State.writeCsr_of_lut]; rfl
  | _ => rfl

/-- `LUTW` writes one entry to both LUTs, and every other command keeps them: they stay in agreement. -/
theorem lutAgree.completed_agree {i : Instr} {s : State} {l : Vector LutEntry 64} (h : lutAgree s.lut l)
    (hc : firstError (checksOf i s) = none) :
    ∃ l', completed i { s with lut := l } = { completed i s with lut := l' } ∧ lutAgree (completed i s).lut l' := by
  by_cases hi : ∃ idx rs, i = .lutw idx rs
  · obtain ⟨idx, rs, rfl⟩ := hi
    exact ⟨_, rfl, h.set idx _⟩
  · have hi' : ∀ idx rs, i ≠ .lutw idx rs := fun idx rs he => hi ⟨idx, rs, he⟩
    refine ⟨l, h.completed_eq hi' hc, ?_⟩
    rwa [completed_lut hi']

/-- Settles O34: with other thresholds the checks are the same, and so is the completed state but for the LUT. -/
theorem unwrittenThresholdsAreNeverObserved : Obligations.UnwrittenThresholdsAreNeverObserved := by
  intro i s t l h ht
  rcases exec_cases ht with ⟨code, info, hc, rfl⟩ | ⟨hc, rfl⟩
  · exact ⟨_, exec_error (h.checksOf_eq i ▸ hc), rfl, h⟩
  · obtain ⟨l', hcompleted, hagree⟩ := h.completed_agree hc
    exact ⟨_, exec_complete (h.checksOf_eq i ▸ hc), by rw [hcompleted], by rwa [hcompleted]⟩

/-! ### Chroma dispatches -/

/-- Settles O48: the edge list is all that a dispatch takes from the masks and the unit levels. -/
theorem chromaIgnoresUpperBits : Obligations.ChromaIgnoresUpperBits := by
  intro s t dir row masks lvlu hrow hmask hlevel ht
  have hlist := edgeList_chroma_congr s hmask hlevel dir hrow
  have hchecks := checksOf_dispatch_congr hlist
  rcases exec_cases ht with ⟨code, info, hc, rfl⟩ | ⟨hc, rfl⟩
  · exact exec_error (hchecks ▸ hc)
  · rw [exec_complete (hchecks ▸ hc), completed_dispatch_congr hlist]

/-! ### The interrupt output -/

/-- Settles O57: `DONE` sets its bit, and a running command that leaves `ERR` set has entered an error. -/
theorem interruptOutput : Obligations.InterruptOutput := by
  refine ⟨fun s t ht => ?_, fun i s t he ht herr => ?_, rfl, fun s => by simp [State.irq]⟩
  · cases (exec_complete (i := .done) (s := s) rfl).symm.trans ht
    simp [completed, State.irq]
  · rcases exec_cases ht with ⟨code, info, -, rfl⟩ | ⟨-, rfl⟩
    · simp [State.irq, Bool.or_comm]
    · obtain ⟨-, -, hkept, -⟩ := completed_keeps_errors i s
      rw [hkept he] at herr
      cases herr

end Sys2Proof.Claims

/-! ## The host's access to PIXMEM and to the queue: O52, O56

Each access to PIXMEM is one equation, and `BUSY` alone decides whether it is refused. A push to the queue is
described for every move whose turn is `pushTurn`: the word it carries may come in one piece or as four bytes. -/

namespace Sys2Proof.Machine

/-! ### A byte of PIXMEM -/

theorem pixAccess_busy {s : State} (h : s.busy = true) (after : State) : pixAccess s after = .refused .hostPixWhileBusy := by
  rw [pixAccess, if_pos h]

theorem pixAccess_notBusy {s : State} (h : s.busy = false) (after : State) : pixAccess s after = .next after := by
  simp [pixAccess, h]

/-- A host write of a byte changes PIXMEM at most. -/
theorem State.hostPixWrite_keeps (s : State) (a : Nat) (v : Byte) :
    s.hostPixWrite a v = { s with pix := (s.hostPixWrite a v).pix } := by
  unfold State.hostPixWrite
  split <;> rfl

/-- A read after a host write: the byte written if its address is in PIXMEM, the old byte elsewhere. -/
theorem State.read_hostPixWrite {s : State} (h : s.pix.wf) (a : Nat) (v : Byte) (b : Nat) :
    (s.hostPixWrite a v).pix.read b = if b = a ∧ a < s.cfg.pixBytes then v else s.pix.read b := by
  by_cases ha : a < s.cfg.pixBytes
  · simp [State.hostPixWrite, ha, Memory.read_write h]
  · simp [State.hostPixWrite, ha]

theorem step_pixRead {s : State} {a : Nat} {rest : List Move} (h : s.pending = .pixRead a :: rest) :
    step s = pixAccess s { s with pending := rest, reply := some ((s.hostPixRead a).setWidth 32) } :=
  step_move h

theorem step_pixWrite {s : State} {a : Nat} {v : Byte} {rest : List Move} (h : s.pending = .pixWrite a v :: rest) :
    step s = pixAccess s { s.hostPixWrite a v with pending := rest } :=
  step_move h

/-! ### A push -/

/-- The word of four bus bytes as a number, 20_memory.md R63. -/
theorem toNat_wordOfBusBytes (b0 b1 b2 b3 : Byte) :
    (wordOfBusBytes b0 b1 b2 b3).toNat = b0.toNat + 2 ^ 8 * b1.toNat + 2 ^ 16 * b2.toNat + 2 ^ 24 * b3.toNat := by
  simp only [wordOfBusBytes, toNat_fields]
  omega

section
variable {m : Move} {w : Word} {rest : List Move} {s : State}

theorem step_push_room (hm : ∀ u, moveTurn m rest u = pushTurn w rest u) (hp : s.pending = m :: rest)
    (hroom : s.cmdq.length < s.cfg.cmdqDepth) : step s = .next { s with cmdq := s.cmdq ++ [w], pending := rest } :=
  (step_move hp).trans ((hm s).trans (pushTurn_room hroom w rest))

/-- A full queue gives the turn of a push to the block. -/
theorem step_push_full (hm : ∀ u, moveTurn m rest u = pushTurn w rest u) (hp : s.pending = m :: rest)
    (hfull : s.cmdq.length = s.cfg.cmdqDepth) : step s = blockTurn s :=
  (step_move hp).trans ((hm s).trans (pushTurn_full hfull.ge w rest))

theorem step_push_halted (hm : ∀ u, moveTurn m rest u = pushTurn w rest u) (hp : s.pending = m :: rest)
    (hfull : s.cmdq.length = s.cfg.cmdqDepth) (he : s.status.err = true) : step s = .next s :=
  (step_push_full hm hp hfull).trans (blockTurn_waiting (.inr he))

/-- A push to the full queue of a running block: the block takes a word and leaves the push pending, and the word is added in
the turn after that. -/
theorem step_push_running (hm : ∀ u, moveTurn m rest u = pushTurn w rest u) (hp : s.pending = m :: rest)
    (hfull : s.cmdq.length = s.cfg.cmdqDepth) (hdepth : 1 ≤ s.cfg.cmdqDepth) (he : s.status.err = false) :
    ∃ t, step s = .next t ∧ t.pending = m :: rest ∧ t.cmdq.length < t.cfg.cmdqDepth ∧
      step t = .next { t with cmdq := t.cmdq ++ [w], pending := rest } := by
  have hq : s.cmdq ≠ [] := List.ne_nil_of_length_pos (by omega)
  obtain ⟨t, ht, hpending, hcfg, hshorter⟩ := blockTurn_takes he hq
  have hpt : t.pending = m :: rest := hpending.trans hp
  have hroom : t.cmdq.length < t.cfg.cmdqDepth := by rw [hcfg]; omega
  exact ⟨t, (step_push_full hm hp hfull).trans ht, hpt, hroom, step_push_room hm hpt hroom⟩

end

end Sys2Proof.Machine

namespace Sys2Proof.Claims

open Sys2Proof.Machine

/-- Settles O52: a busy block refuses both accesses; else a read answers `hostPixRead` and a write leaves `hostPixWrite`. -/
theorem hostPixelAccess : Obligations.HostPixelAccess := by
  refine fun s a v rest hwf => ⟨fun hbusy hp => ?_, fun hfree hp => ?_, fun hfree hp => ?_⟩
  · rcases hp with hp | hp
    · rw [step_pixRead hp, pixAccess_busy hbusy]
    · rw [step_pixWrite hp, pixAccess_busy hbusy]
  · rw [step_pixRead hp, pixAccess_notBusy hfree, State.hostPixRead]
  · refine ⟨_, (step_pixWrite hp).trans (pixAccess_notBusy hfree _), ?_, State.read_hostPixWrite hwf a v⟩
    rw [s.hostPixWrite_keeps a v]

/-- Settles O56: the turn of four bus bytes is the push of `wordOfBusBytes`, whose number is the little-endian one. -/
theorem busBytesAreLittleEndian : Obligations.BusBytesAreLittleEndian := by
  intro s b0 b1 b2 b3 rest hp
  have hm : ∀ u, moveTurn (.pushBytes b0 b1 b2 b3) rest u = pushTurn (wordOfBusBytes b0 b1 b2 b3) rest u := fun _ => rfl
  exact ⟨wordOfBusBytes b0 b1 b2 b3, toNat_wordOfBusBytes b0 b1 b2 b3, step_push_room hm hp, step_push_halted hm hp,
    step_push_running hm hp⟩

end Sys2Proof.Claims

/-! ## Encoding and decoding: O2, O3, O4, O1, O24

`encode` lays the fields of a command side by side, so a field read back from the word is the field put in. Conversely, a
word whose reserved fields are 0 is its own fields side by side, one equation for each format of 30_encoding.md R82. -/

namespace Sys2Proof

/-! ### Fields of one bit -/

theorem ofBool_getLsbD (w : Word) (k : Nat) : BitVec.ofBool (w.getLsbD k) = w.extractLsb' k 1 := by
  refine BitVec.eq_of_getLsbD_eq fun j hj => ?_
  obtain rfl : j = 0 := by omega
  simp

theorem bit_dirOf (w : Word) : (dirOf w).bit = w.extractLsb' 19 1 := by
  rw [← ofBool_getLsbD, dirOf]
  cases w.getLsbD 19 <;> rfl

theorem bit_planeOf (w : Word) : (planeOf w).bit = w.extractLsb' 18 1 := by
  rw [← ofBool_getLsbD, planeOf]
  cases w.getLsbD 18 <;> rfl

theorem Dir.bit_inj {d d' : Dir} : d.bit = d'.bit ↔ d = d' := by
  cases d <;> cases d' <;> decide

theorem Plane.bit_inj {p p' : Plane} : p.bit = p'.bit ↔ p = p' := by
  cases p <;> cases p' <;> decide

theorem dirOf_eq_iff {w : Word} {d : Dir} : dirOf w = d ↔ w.extractLsb' 19 1 = d.bit := by
  rw [← bit_dirOf, Dir.bit_inj]

theorem planeOf_eq_iff {w : Word} {p : Plane} : planeOf w = p ↔ w.extractLsb' 18 1 = p.bit := by
  rw [← bit_planeOf, Plane.bit_inj]

theorem getLsbD_eq_iff {w : Word} {k : Nat} {b : Bool} : w.getLsbD k = b ↔ w.extractLsb' k 1 = BitVec.ofBool b := by
  rw [← ofBool_getLsbD, BitVec.ofBool_eq_iff_eq]

theorem wideOf_eq_iff {w : Word} {b : Bool} : wideOf w = b ↔ w.extractLsb' 18 1 = BitVec.ofBool b := getLsbD_eq_iff

theorem mOf_eq_iff {w : Word} {b : Bool} : mOf w = b ↔ w.extractLsb' 17 1 = BitVec.ofBool b := getLsbD_eq_iff

theorem hOf_eq_iff {w : Word} {b : Bool} : hOf w = b ↔ w.extractLsb' 16 1 = BitVec.ofBool b := getLsbD_eq_iff

/-! ### The fields of an encoded command -/

/-- The opcode of a command, 30_encoding.md R84. -/
def opcodeOf : Instr → BitVec 6
  | .nop => 0x00#6
  | .done => 0x01#6
  | .pref _ => 0x02#6
  | .li _ _ => 0x03#6
  | .lih _ _ => 0x04#6
  | .csrr _ _ => 0x05#6
  | .csrw _ _ => 0x06#6
  | .lutw _ _ => 0x08#6
  | .lutr _ _ => 0x09#6
  | .lvlw _ _ => 0x0A#6
  | .lvlr _ _ => 0x0B#6
  | .lvuw _ _ => 0x0C#6
  | .lvur _ _ => 0x0D#6
  | .cls _ _ _ _ _ => 0x10#6
  | .k4 _ _ _ _ => 0x11#6
  | .k8 _ _ => 0x12#6
  | .k16 _ _ => 0x13#6
  | .lpf4 _ _ _ => 0x14#6
  | .lpf8 _ _ _ => 0x15#6
  | .lpf16 _ _ _ => 0x16#6
  | .dispatch _ _ _ => 0x18#6

theorem opcOf_encode (i : Instr) : opcOf (encode i) = opcodeOf i := by
  cases i <;> simp (disch := decide) only [encode, opcodeOf, opcOf, BitVec.extractLsb'_append_eq_of_le] <;>
    exact BitVec.extractLsb'_eq_self

/-- The row of a command's opcode makes the command from its word: every field of the row is one that `encode` laid down. -/
theorem command_encode (i : Instr) : (opcodeRow (opcodeOf i)).map (fun row => row.command (encode i)) = some i := by
  cases i <;>
    simp (disch := decide) [opcodeOf, opcodeRow, encode, BitVec.extractLsb'_append_eq_of_le,
      BitVec.extractLsb'_append_eq_of_add_le, -Nat.reduceAdd, hintOf, rdOf, rsOf, dirOf_eq_iff, wideOf_eq_iff,
      planeOf_eq_iff, mOf_eq_iff, hOf_eq_iff, immOf, csrOf, lvlOf, qOf, rowOf]

/-- Every encoded command has its row in the opcode map and no reserved bit set. -/
theorem encodeFields : (i : Instr) → Laws.EncodeFields.Statement i
  | .nop => Laws.EncodeFields.nop
  | .done => Laws.EncodeFields.done
  | .pref hint => Laws.EncodeFields.pref hint
  | .li rd imm => Laws.EncodeFields.li rd imm
  | .lih rd imm => Laws.EncodeFields.lih rd imm
  | .csrr rd csr => Laws.EncodeFields.csrr rd csr
  | .csrw csr rs => Laws.EncodeFields.csrw csr rs
  | .lutw idx rs => Laws.EncodeFields.lutw idx rs
  | .lutr rd idx => Laws.EncodeFields.lutr rd idx
  | .lvlw idx rs => Laws.EncodeFields.lvlw idx rs
  | .lvlr rd idx => Laws.EncodeFields.lvlr rd idx
  | .lvuw q rs => Laws.EncodeFields.lvuw q rs
  | .lvur rd q => Laws.EncodeFields.lvur rd q
  | .cls rd ra dir wide lvl => Laws.EncodeFields.cls rd ra dir wide lvl
  | .k4 ra dir m h => Laws.EncodeFields.k4 ra dir m h
  | .k8 ra dir => Laws.EncodeFields.k8 ra dir
  | .k16 ra dir => Laws.EncodeFields.k16 ra dir
  | .lpf4 ra dir lvl => Laws.EncodeFields.lpf4 ra dir lvl
  | .lpf8 ra dir lvl => Laws.EncodeFields.lpf8 ra dir lvl
  | .lpf16 ra dir lvl => Laws.EncodeFields.lpf16 ra dir lvl
  | .dispatch dir plane row => Laws.EncodeFields.dispatch dir plane row

/-- A well-formed command is what its word decodes to. -/
theorem decode_encode {i : Instr} (h : i.wf = true) : decode (encode i) = .command i := by
  obtain ⟨row, hrow, hreserved⟩ := encodeFields i
  have hcommand : row.command (encode i) = i := by
    simpa [← opcOf_encode, hrow] using command_encode i
  exact (decode_eq_command_iff _ _).2 ⟨row, hrow, hreserved, hcommand, h⟩

/-! ### A word by its fields -/

/-- A field that a mask selects whole is 0 where the masked word is 0. -/
theorem field_eq_zero {w r : Word} (h : w &&& r = 0#32) (lo n : Nat) (hr : r.extractLsb' lo n = BitVec.allOnes n) :
    w.extractLsb' lo n = 0#n := by
  simpa [BitVec.extractLsb'_and, hr] using congrArg (·.extractLsb' lo n) h

/-! The formats of 30_encoding.md R82, by their names: the fields of the format, 0 in the places it reserves, are the word. -/

section
open BitVec (extractLsb'_append_extractLsb'_eq_extractLsb' extractLsb'_eq_self)
variable {w : Word} {k : Nat} (ho : (opcOf w).toNat = k)
include ho

theorem ofNat_opcode : BitVec.ofNat 6 k = w.extractLsb' 26 6 := by
  rw [← ho, BitVec.ofNat_toNat, BitVec.setWidth_eq, opcOf]

theorem word_of_formatN (hr : w &&& 0x03FFFFFF#32 = 0#32) : BitVec.ofNat 6 k ++ 0#26 = w := by
  rw [ofNat_opcode ho, ← field_eq_zero hr 0 26 rfl]
  simp (disch := decide) only [extractLsb'_append_extractLsb'_eq_extractLsb', extractLsb'_eq_self]

theorem word_of_formatX : BitVec.ofNat 6 k ++ hintOf w = w := by
  rw [ofNat_opcode ho]
  simp (disch := decide) only [hintOf, extractLsb'_append_extractLsb'_eq_extractLsb', extractLsb'_eq_self]

theorem word_of_formatI (hr : w &&& 0x007F0000#32 = 0#32) : BitVec.ofNat 6 k ++ rdOf w ++ 0#7 ++ immOf w = w := by
  rw [ofNat_opcode ho, ← field_eq_zero hr 16 7 rfl]
  simp (disch := decide) only [rdOf, immOf, extractLsb'_append_extractLsb'_eq_extractLsb', extractLsb'_eq_self]

theorem word_of_formatCR (hr : w &&& 0x007FFF00#32 = 0#32) : BitVec.ofNat 6 k ++ rdOf w ++ 0#15 ++ csrOf w = w := by
  rw [ofNat_opcode ho, ← field_eq_zero hr 8 15 rfl]
  simp (disch := decide) only [rdOf, csrOf, extractLsb'_append_extractLsb'_eq_extractLsb', extractLsb'_eq_self]

theorem word_of_formatCW (hr : w &&& 0x038FFF00#32 = 0#32) : BitVec.ofNat 6 k ++ 0#3 ++ rsOf w ++ 0#12 ++ csrOf w = w := by
  rw [ofNat_opcode ho, ← field_eq_zero hr 23 3 rfl, ← field_eq_zero hr 8 12 rfl]
  simp (disch := decide) only [rsOf, csrOf, extractLsb'_append_extractLsb'_eq_extractLsb', extractLsb'_eq_self]

theorem word_of_formatTR (hr : w &&& 0x007FFFC0#32 = 0#32) : BitVec.ofNat 6 k ++ rdOf w ++ 0#17 ++ lvlOf w = w := by
  rw [ofNat_opcode ho, ← field_eq_zero hr 6 17 rfl]
  simp (disch := decide) only [rdOf, lvlOf, extractLsb'_append_extractLsb'_eq_extractLsb', extractLsb'_eq_self]

theorem word_of_formatTW (hr : w &&& 0x038FFFC0#32 = 0#32) : BitVec.ofNat 6 k ++ 0#3 ++ rsOf w ++ 0#14 ++ lvlOf w = w := by
  rw [ofNat_opcode ho, ← field_eq_zero hr 23 3 rfl, ← field_eq_zero hr 6 14 rfl]
  simp (disch := decide) only [rsOf, lvlOf, extractLsb'_append_extractLsb'_eq_extractLsb', extractLsb'_eq_self]

theorem word_of_formatUR (hr : w &&& 0x007FFFF0#32 = 0#32) : BitVec.ofNat 6 k ++ rdOf w ++ 0#19 ++ qOf w = w := by
  rw [ofNat_opcode ho, ← field_eq_zero hr 4 19 rfl]
  simp (disch := decide) only [rdOf, qOf, extractLsb'_append_extractLsb'_eq_extractLsb', extractLsb'_eq_self]

theorem word_of_formatUW (hr : w &&& 0x038FFFF0#32 = 0#32) : BitVec.ofNat 6 k ++ 0#3 ++ rsOf w ++ 0#16 ++ qOf w = w := by
  rw [ofNat_opcode ho, ← field_eq_zero hr 23 3 rfl, ← field_eq_zero hr 4 16 rfl]
  simp (disch := decide) only [rsOf, qOf, extractLsb'_append_extractLsb'_eq_extractLsb', extractLsb'_eq_self]

theorem word_of_formatC (hr : w &&& 0x0003FFC0#32 = 0#32) :
    BitVec.ofNat 6 k ++ rdOf w ++ rsOf w ++ (dirOf w).bit ++ BitVec.ofBool (wideOf w) ++ 0#12 ++ lvlOf w = w := by
  rw [ofNat_opcode ho, ← field_eq_zero hr 6 12 rfl]
  simp (disch := decide) only [rdOf, rsOf, bit_dirOf, wideOf, ofBool_getLsbD, lvlOf,
    extractLsb'_append_extractLsb'_eq_extractLsb', extractLsb'_eq_self]

theorem word_of_formatK4 (hr : w &&& 0x0384FFFF#32 = 0#32) :
    BitVec.ofNat 6 k ++ 0#3 ++ rsOf w ++ (dirOf w).bit ++ 0#1 ++ BitVec.ofBool (mOf w) ++ BitVec.ofBool (hOf w) ++ 0#16 = w := by
  rw [ofNat_opcode ho, ← field_eq_zero hr 23 3 rfl, ← field_eq_zero hr 18 1 rfl, ← field_eq_zero hr 0 16 rfl]
  simp (disch := decide) only [rsOf, bit_dirOf, mOf, hOf, ofBool_getLsbD,
    extractLsb'_append_extractLsb'_eq_extractLsb', extractLsb'_eq_self]

theorem word_of_formatKN (hr : w &&& 0x0387FFFF#32 = 0#32) :
    BitVec.ofNat 6 k ++ 0#3 ++ rsOf w ++ (dirOf w).bit ++ 0#19 = w := by
  rw [ofNat_opcode ho, ← field_eq_zero hr 23 3 rfl, ← field_eq_zero hr 0 19 rfl]
  simp (disch := decide) only [rsOf, bit_dirOf, extractLsb'_append_extractLsb'_eq_extractLsb', extractLsb'_eq_self]

theorem word_of_formatL (hr : w &&& 0x0387FFC0#32 = 0#32) :
    BitVec.ofNat 6 k ++ 0#3 ++ rsOf w ++ (dirOf w).bit ++ 0#13 ++ lvlOf w = w := by
  rw [ofNat_opcode ho, ← field_eq_zero hr 23 3 rfl, ← field_eq_zero hr 6 13 rfl]
  simp (disch := decide) only [rsOf, bit_dirOf, lvlOf, extractLsb'_append_extractLsb'_eq_extractLsb', extractLsb'_eq_self]

theorem word_of_formatD (hr : w &&& 0x03F3FFF8#32 = 0#32) :
    BitVec.ofNat 6 k ++ 0#6 ++ (dirOf w).bit ++ (planeOf w).bit ++ 0#15 ++ rowOf w = w := by
  rw [ofNat_opcode ho, ← field_eq_zero hr 20 6 rfl, ← field_eq_zero hr 3 15 rfl]
  simp (disch := decide) only [bit_dirOf, bit_planeOf, rowOf,
    extractLsb'_append_extractLsb'_eq_extractLsb', extractLsb'_eq_self]

end

/-- A word whose reserved bits are 0 is the word of the command its row makes. -/
theorem encode_command {w : Word} {row : OpcodeRow} (hrow : opcodeRow (opcOf w) = some row)
    (hr : w &&& row.reserved = 0#32) : encode (row.command w) = w := by
  unfold opcodeRow at hrow
  split at hrow <;> rename_i ho <;> cases hrow -- the rows of the map, in its order
  · exact word_of_formatN ho hr
  · exact word_of_formatN ho hr
  · exact word_of_formatX ho
  · exact word_of_formatI ho hr
  · exact word_of_formatI ho hr
  · exact word_of_formatCR ho hr
  · exact word_of_formatCW ho hr
  · exact word_of_formatTW ho hr
  · exact word_of_formatTR ho hr
  · exact word_of_formatTW ho hr
  · exact word_of_formatTR ho hr
  · exact word_of_formatUW ho hr
  · exact word_of_formatUR ho hr
  · exact word_of_formatC ho hr
  · exact word_of_formatK4 ho hr
  · exact word_of_formatKN ho hr
  · exact word_of_formatKN ho hr
  · exact word_of_formatL ho hr
  · exact word_of_formatL ho hr
  · exact word_of_formatL ho hr
  · exact word_of_formatD ho hr

/-- The command a row makes has the opcode of the row. -/
theorem opcodeOf_command {w : Word} {row : OpcodeRow} (hrow : opcodeRow (opcOf w) = some row) :
    opcodeOf (row.command w) = opcOf w := by
  unfold opcodeRow at hrow
  split at hrow <;> cases hrow <;> exact (BitVec.eq_of_toNat_eq (by assumption)).symm

/-! ### The words decoding refuses -/

/-- The only ill-formed commands are the chroma dispatches of rows 4..7 (R85). -/
theorem Instr.wf_eq_false_iff {i : Instr} : i.wf = false ↔ ∃ dir row, i = .dispatch dir .chroma row ∧ 4 ≤ row.toNat := by
  cases i with
  | dispatch dir plane row => cases plane <;> simp [Instr.wf]
  | _ => simp [Instr.wf]

theorem exists_decode_eq_reject_iff (w : Word) :
    (∃ why, decode w = .reject why) ↔
      opcodeRow (opcOf w) = none ∨ (∃ row, opcodeRow (opcOf w) = some row ∧ w &&& row.reserved ≠ 0#32) ∨
        ∃ row, opcodeRow (opcOf w) = some row ∧ (row.command w).wf = false := by
  cases hrow : opcodeRow (opcOf w) with
  | none => simp [decode, hrow]
  | some row =>
    rw [decode_of_row hrow]
    by_cases hr : w &&& row.reserved = 0#32 <;> by_cases hw : (row.command w).wf = true <;> simp [hr, hw]

theorem command_of_opcOf_dispatch {w : Word} {row : OpcodeRow} (hrow : opcodeRow (opcOf w) = some row)
    (hopc : opcOf w = 0x18#6) : row.command w = .dispatch (dirOf w) (planeOf w) (rowOf w) := by
  rw [hopc] at hrow
  cases hrow
  rfl

/-- The row of a chroma `DISPATCH` of rows 4..7 is the only one whose command is ill formed. -/
theorem exists_row_not_wf_iff (w : Word) :
    (∃ row, opcodeRow (opcOf w) = some row ∧ (row.command w).wf = false) ↔
      opcOf w = 0x18#6 ∧ planeOf w = .chroma ∧ 4 ≤ (rowOf w).toNat := by
  constructor
  · rintro ⟨row, hrow, hwf⟩
    obtain ⟨dir, r, hi, hr⟩ := Instr.wf_eq_false_iff.1 hwf
    have hopc : opcOf w = 0x18#6 := by rw [← opcodeOf_command hrow, hi]; rfl
    rw [command_of_opcOf_dispatch hrow hopc] at hi
    injection hi with _ hplane hrowOf
    exact ⟨hopc, hplane, hrowOf ▸ hr⟩
  · rintro ⟨hopc, hplane, hr⟩
    obtain ⟨row, hrow⟩ : ∃ row, opcodeRow (opcOf w) = some row := Option.isSome_iff_exists.1 (by rw [hopc]; rfl)
    exact ⟨row, hrow, Instr.wf_eq_false_iff.2 ⟨_, _, hplane ▸ command_of_opcOf_dispatch hrow hopc, hr⟩⟩

end Sys2Proof

namespace Sys2Proof.Claims

open Sys2Proof.Machine

/-! ### The opcode map as the statements write it -/

theorem toNat_opcOf (w : Word) : (opcOf w).toNat = opcode w := by
  rw [opcOf, toNat_field, opcode]
  omega

/-- The rows of the statements' map with an opcode are the model's row of it, where there is one. -/
theorem filter_opcodeMap (opc : BitVec 6) :
    opcodeMap.filter (fun r => r.1 = opc.toNat) = ((opcodeRow opc).map fun row => (opc.toNat, row.reserved)).toList := by
  revert opc
  decide

theorem mem_opcodeMap_iff (w : Word) (r : Nat × Word) :
    r ∈ opcodeMap ∧ r.1 = opcode w ↔ ∃ row, opcodeRow (opcOf w) = some row ∧ (opcode w, row.reserved) = r := by
  have h := congrArg (r ∈ ·) (filter_opcodeMap (opcOf w))
  simpa [toNat_opcOf] using h

/-- The first clause of `illegalWord`, R85. -/
theorem opcodeRow_eq_none_iff (w : Word) : opcodeRow (opcOf w) = none ↔ ∀ r ∈ opcodeMap, r.1 ≠ opcode w := by
  constructor
  · intro hnone r hr hopc
    obtain ⟨row, hrow, -⟩ := (mem_opcodeMap_iff w r).1 ⟨hr, hopc⟩
    exact Option.some_ne_none _ (hrow.symm.trans hnone)
  · intro h
    cases hrow : opcodeRow (opcOf w) with
    | none => rfl
    | some row =>
      obtain ⟨hmem, hopc⟩ := (mem_opcodeMap_iff w _).2 ⟨row, hrow, rfl⟩
      exact absurd hopc (h _ hmem)

/-- The second clause of `illegalWord`, R86. -/
theorem exists_row_reserved_iff (w : Word) :
    (∃ row, opcodeRow (opcOf w) = some row ∧ w &&& row.reserved ≠ 0#32) ↔
      ∃ r ∈ opcodeMap, r.1 = opcode w ∧ w &&& r.2 ≠ 0#32 := by
  constructor
  · rintro ⟨row, hrow, hr⟩
    obtain ⟨hmem, hopc⟩ := (mem_opcodeMap_iff w _).2 ⟨row, hrow, rfl⟩
    exact ⟨_, hmem, hopc, hr⟩
  · rintro ⟨r, hmem, hopc, hr⟩
    obtain ⟨row, hrow, rfl⟩ := (mem_opcodeMap_iff w r).1 ⟨hmem, hopc⟩
    exact ⟨row, hrow, hr⟩

/-- The third clause of `illegalWord` by the fields of the word, R85. -/
theorem chromaDispatch_iff (w : Word) :
    opcOf w = 0x18#6 ∧ planeOf w = .chroma ∧ 4 ≤ (rowOf w).toNat ↔
      opcode w = 0x18 ∧ w.getLsbD 18 = true ∧ 4 ≤ w.toNat % 8 := by
  have hopc : opcOf w = 0x18#6 ↔ opcode w = 0x18 := by
    rw [← toNat_opcOf, BitVec.toNat_eq]
    rfl
  have hplane : planeOf w = .chroma ↔ w.getLsbD 18 = true := planeOf_eq_iff.trans (getLsbD_eq_iff (b := true)).symm
  have hrow : (rowOf w).toNat = w.toNat % 8 := by
    simp [rowOf]
  rw [hopc, hplane, hrow]

/-! ### `LI` then `LIH` -/

/-- The halves of a word put side by side. -/
theorem append_halves (v : Word) :
    BitVec.ofNat 16 (v.toNat / 2 ^ 16) ++ (BitVec.setWidth 32 (BitVec.ofNat 16 (v.toNat % 2 ^ 16))).extractLsb' 0 16 = v := by
  refine BitVec.eq_of_toNat_eq ?_
  simp only [toNat_fields, toNat_field, BitVec.toNat_setWidth, BitVec.toNat_ofNat]
  omega

/-! ### The statements -/

/-- Settles O2: the word of a command has the row of its opcode, and each field reads back what `encode` put there. -/
theorem decodeOfEncode : Obligations.DecodeOfEncode := fun _ hwf => decode_encode hwf

/-- Settles O3: a word without reserved bits is its own fields side by side, so encoding what they make gives it back. -/
theorem encodeOfDecode : Obligations.EncodeOfDecode := by
  intro w i h
  obtain ⟨row, hrow, hreserved, rfl, hwf⟩ := (decode_eq_command_iff w i).1 h
  exact ⟨encode_command hrow hreserved, hwf⟩

/-- Settles O4: each of the three ways to refuse a word is one clause of `illegalWord`. -/
theorem decodeRefusesExactlyTheIllegalWords : Obligations.DecodeRefusesExactlyTheIllegalWords := by
  intro w
  rw [exists_decode_eq_reject_iff, opcodeRow_eq_none_iff, exists_row_reserved_iff, exists_row_not_wf_iff, chromaDispatch_iff,
    illegalWord]

/-- Settles O1: the decoder runs on the 21 words. -/
theorem exampleWordsDecode : Obligations.ExampleWordsDecode := by
  unfold Obligations.ExampleWordsDecode
  decide

/-- Settles O24: `LI` leaves the lower half of `v` in `x[rd]`, and `LIH` puts the upper half above it. -/
theorem liThenLihLoadsAnyWord : Obligations.LiThenLihLoadsAnyWord := by
  intro s rd v
  refine ⟨_, _, exec_complete rfl, exec_complete rfl, ?_, fun r hr => ?_, ?_⟩
  · simp only [completed, State.reg_retire, State.reg_setReg_self]
    exact append_halves v
  · simp only [completed, State.reg_retire, State.reg_setReg_ne _ _ hr]
  · simp [completed, State.retire, State.setReg, BitVec.add_assoc]

end Sys2Proof.Claims

/-! ## The tables: O32, O33, O27, O28, O29, O30, O31

An entry written is described by number: the field of the word it comes from. The three commands that read a table into
`x[rd]` share one lemma. `LVLTAB` is shown to reach neither the checks nor the completed state of a command other than
`LVLW` and `LVLR`. -/

namespace Sys2Proof.Machine

/-! ### The tables after retirement and after a write -/

@[simp] theorem State.lutAt_retire (s : State) (l : Level) : s.retire.lutAt l = s.lutAt l := rfl
@[simp] theorem State.lvltabAt_retire (s : State) (l : Level) : s.retire.lvltabAt l = s.lvltabAt l := rfl
@[simp] theorem State.unitLevel_retire (s : State) (n : Nat) : s.retire.unitLevel n = s.unitLevel n := rfl
@[simp] theorem State.unitsWord_retire (s : State) (q : BitVec 4) : s.retire.unitsWord q = s.unitsWord q := rfl

@[simp] theorem State.lutAt_setLut_self (s : State) (l : Level) (e : LutEntry) : (s.setLut l e).lutAt l = e := by
  rw [State.lutAt_setLut, if_pos rfl]

theorem State.lutAt_setLut_ne (s : State) {l l' : Level} (e : LutEntry) (h : l' ≠ l) :
    (s.setLut l e).lutAt l' = s.lutAt l' := by
  rw [State.lutAt_setLut, if_neg h]

@[simp] theorem State.lvltabAt_setLvltab_self (s : State) (l v : Level) : (s.setLvltab l v).lvltabAt l = v := by
  rw [State.lvltabAt_setLvltab, if_pos rfl]

theorem State.lvltabAt_setLvltab_ne (s : State) {l l' : Level} (v : Level) (h : l' ≠ l) :
    (s.setLvltab l v).lvltabAt l' = s.lvltabAt l' := by
  rw [State.lvltabAt_setLvltab, if_neg h]

theorem State.unitLevel_setUnits_self (s : State) (q : BitVec 4) (v : Word) {i : Nat} (hi : i < 4) :
    (s.setUnits q v).unitLevel (4 * q.toNat + i) = v.extractLsb' (8 * i) 6 := by
  have hgroup : (4 * q.toNat + i) / 4 = q.toNat := by omega
  have hplace : (4 * q.toNat + i) % 4 = i := by omega
  rw [State.unitLevel_setUnits _ _ _ _ (by omega), if_pos hgroup, hplace]

theorem State.unitLevel_setUnits_ne (s : State) {q : BitVec 4} (v : Word) {n : Nat} (hn : n < 64) (h : n / 4 ≠ q.toNat) :
    (s.setUnits q v).unitLevel n = s.unitLevel n := by
  rw [State.unitLevel_setUnits _ _ _ _ hn, if_neg h]

/-! ### Packed words as numbers -/

/-- The fields of the entry that a packed word stands for, 10_state.md R41. -/
theorem LutEntry.toNat_unpack (v : Word) :
    (unpack v).blimit.toNat = v.toNat % 256 ∧ (unpack v).limit.toNat = v.toNat / 256 % 256 ∧
    (unpack v).hevthr.toNat = v.toNat / 65536 % 256 := by
  simp [unpack, Nat.shiftRight_eq_div_pow]

theorem LutEntry.toNat_pack (e : LutEntry) :
    e.pack.toNat = e.hevthr.toNat * 65536 + e.limit.toNat * 256 + e.blimit.toNat := by
  simp only [LutEntry.pack, toNat_fields, BitVec.toNat_ofNat]
  omega

theorem State.toNat_unitsWord (s : State) (q : BitVec 4) :
    (s.unitsWord q).toNat = (s.unitLevel (4 * q.toNat)).toNat + (s.unitLevel (4 * q.toNat + 1)).toNat * 2 ^ 8 +
      (s.unitLevel (4 * q.toNat + 2)).toNat * 2 ^ 16 + (s.unitLevel (4 * q.toNat + 3)).toNat * 2 ^ 24 := by
  have hbyte (l : Level) : (l.setWidth 8).toNat = l.toNat := BitVec.toNat_setWidth_of_le (by decide)
  simp only [State.unitsWord, toNat_fields, hbyte]
  omega

/-- The low six bits of each byte of a word, side by side as bytes. -/
theorem append_levels (v : Word) :
    (v.extractLsb' 24 6).setWidth 8 ++ (v.extractLsb' 16 6).setWidth 8 ++ (v.extractLsb' 8 6).setWidth 8 ++
      (v.extractLsb' 0 6).setWidth 8 = v &&& 0x3F3F3F3F#32 := by
  refine BitVec.eq_of_getLsbD_eq fun k hk => ?_
  simp only [bit_append, BitVec.getLsbD_setWidth, BitVec.getLsbD_extractLsb', BitVec.getLsbD_and]
  interval_cases k <;> simp

/-- The group that `LVUW` wrote, packed as `LVUR` packs it. -/
theorem State.unitsWord_setUnits (s : State) (q : BitVec 4) (v : Word) :
    (s.setUnits q v).unitsWord q = v &&& 0x3F3F3F3F#32 := by
  have hfirst := s.unitLevel_setUnits_self q v (i := 0) (by omega)
  rw [Nat.add_zero] at hfirst
  rw [State.unitsWord, hfirst, State.unitLevel_setUnits_self _ _ _ (by omega), State.unitLevel_setUnits_self _ _ _ (by omega),
    State.unitLevel_setUnits_self _ _ _ (by omega)]
  exact append_levels v

/-! ### What `LVLW` and the commands that read a table leave -/

/-- `LVLTAB` after `LVLW`: bits 5:0 of `x[rs]` in its entry, the other entries as before. -/
theorem completed_lvlw_lvltabAt (idx : Level) (rs : Reg) (s : State) :
    ((completed (.lvlw idx rs) s).lvltabAt idx).toNat = (s.reg rs).toNat % 64 ∧
      ∀ l, l ≠ idx → (completed (.lvlw idx rs) s).lvltabAt l = s.lvltabAt l := by
  simp only [completed, State.lvltabAt_retire]
  exact ⟨by simp, fun l hl => s.lvltabAt_setLvltab_ne _ hl⟩

/-- A command that completes by writing `v` to `x[rd]`: the number there, the other registers, and the frame. -/
theorem exec_writes_reg {i : Instr} {s : State} {rd : Reg} {v : Word} {n : Nat}
    (h : exec i s = .next (s.setReg rd v).retire) (hv : v.toNat = n) :
    ∃ t, exec i s = .next t ∧ (t.reg rd).toNat = n ∧ (∀ r, r ≠ rd → t.reg r = s.reg r) ∧
      t = { s with regs := t.regs, cmdcnt := s.cmdcnt + 1#32 } := by
  refine ⟨_, h, ?_, fun r hr => ?_, rfl⟩
  · rw [State.reg_retire, State.reg_setReg_self, hv]
  · rw [State.reg_retire, s.reg_setReg_ne v hr]

/-! ### A command with another `LVLTAB` -/

/-- No check reads `LVLTAB`. -/
theorem checksOf_of_lvltab (i : Instr) (s : State) (tab : Vector Level 64) :
    checksOf i { s with lvltab := tab } = checksOf i s := by
  cases i <;> rfl

/-- A write of a CSR does not look at `LVLTAB`. -/
theorem State.writeCsr_of_lvltab (s : State) (c : Csr) (v : Word) (tab : Vector Level 64) :
    { s with lvltab := tab }.writeCsr c v = { s.writeCsr c v with lvltab := tab } := by
  cases c with
  | status => simp [State.writeCsr, State.writeStatus_eq]
  | _ => rfl

/-- No kernel reads `LVLTAB`. -/
theorem rawApply_of_lvltab (s : State) (tab : Vector Level 64) (ra : Reg) (dir : Dir) (ks : List Int) (kernel : Line → Line) :
    rawApply { s with lvltab := tab } ra dir ks kernel = rawApply s ra dir ks kernel := rfl

theorem edgeApply_of_lvltab (s : State) (tab : Vector Level 64) (ra : Reg) (dir : Dir) (lvl : Level) (cap : Kernel) :
    edgeApply { s with lvltab := tab } ra dir lvl cap = edgeApply s ra dir lvl cap := rfl

/-- A dispatch takes its levels from `LVLU` and its thresholds from the LUT. -/
theorem applyEdges_of_lvltab (s : State) (tab : Vector Level 64) (dir : Dir) (plane : Plane) (row : Nat) :
    applyEdges { s with lvltab := tab } dir (edgeList { s with lvltab := tab } dir plane row) s.pix =
      applyEdges s dir (edgeList s dir plane row) s.pix :=
  applyEdges_congr (s := s) (s' := { s with lvltab := tab }) rfl (fun _ _ => rfl) s.pix

/-- `LVLW` and `LVLR` apart, a completed command does not look at `LVLTAB`. -/
theorem completed_of_lvltab {i : Instr} (hr : ∀ rd idx, i ≠ .lvlr rd idx) (hw : ∀ idx rs, i ≠ .lvlw idx rs) (s : State)
    (tab : Vector Level 64) : completed i { s with lvltab := tab } = { completed i s with lvltab := tab } := by
  cases i with
  | lvlr rd idx => exact absurd rfl (hr rd idx)
  | lvlw idx rs => exact absurd rfl (hw idx rs)
  | csrr rd csr =>
    simp only [completed]
    cases csrAt csr <;> rfl
  | csrw csr rs =>
    simp only [completed]
    cases csrAt csr with
    | none => rfl
    | some c => simp only [csrwAfter_eq, State.writeCsr_of_lvltab]; rfl
  | k4 | k8 | k16 => simp only [completed, State.retire, rawApply_of_lvltab]
  | lpf4 | lpf8 | lpf16 => simp only [completed, State.retire, edgeApply_of_lvltab]
  | dispatch dir plane row =>
    have hpix := applyEdges_of_lvltab s tab dir plane row.toNat
    simp only [completed, State.retire, hpix]
  | _ => rfl

/-- Only `LVLW` and `LVLR` do other than carry `LVLTAB` along: with other contents of it a command answers the same state, but
for those contents. -/
theorem exec_of_lvltab {i : Instr} (hr : ∀ rd idx, i ≠ .lvlr rd idx) (hw : ∀ idx rs, i ≠ .lvlw idx rs) {s t : State}
    (h : exec i s = .next t) (tab : Vector Level 64) :
    exec i { s with lvltab := tab } = .next { t with lvltab := tab } := by
  rcases exec_cases h with ⟨code, info, hc, rfl⟩ | ⟨hc, rfl⟩
  · exact exec_error (checksOf_of_lvltab i s tab ▸ hc)
  · rw [exec_complete (checksOf_of_lvltab i s tab ▸ hc), completed_of_lvltab hr hw]

end Sys2Proof.Machine

namespace Sys2Proof.Claims

open Sys2Proof.Machine

/-- Settles O32: `LVUR` packs the group that `LVUW` wrote from the low six bits of each byte. -/
theorem levelsWrittenAreLevelsRead : Obligations.LevelsWrittenAreLevelsRead := by
  intro s q rd rs
  refine ⟨_, _, exec_complete rfl, exec_complete rfl, ?_⟩
  simp only [completed, State.reg_retire, State.reg_setReg_self, State.unitsWord_retire]
  exact s.unitsWord_setUnits q (s.reg rs)

/-- Settles O33: `LVLW` writes its entry whatever the contents were, and every other command carries them along. -/
theorem levelTableIsStorageOnly : Obligations.LevelTableIsStorageOnly := by
  intro i s t tab hr ht
  by_cases hlvlw : ∃ idx rs, i = .lvlw idx rs
  · obtain ⟨idx, rs, rfl⟩ := hlvlw
    cases (exec_complete (i := .lvlw idx rs) (s := s) rfl).symm.trans ht
    refine ⟨_, exec_complete rfl, rfl, fun hw => absurd rfl (hw idx rs), fun idx' rs' he => ?_⟩
    cases he
    exact completed_lvlw_lvltabAt idx rs { s with lvltab := tab }
  · have hw : ∀ idx rs, i ≠ .lvlw idx rs := fun idx rs he => hlvlw ⟨idx, rs, he⟩
    exact ⟨_, exec_of_lvltab hr hw ht tab, rfl, fun _ => rfl, fun idx rs he => absurd he (hw idx rs)⟩

/-- Settles O27: the entry written is the unpacked word, each field one of its bytes. -/
theorem lutwWritesEntry : Obligations.LutwWritesEntry := by
  intro s idx rs
  refine ⟨_, exec_complete rfl, ?_⟩
  obtain ⟨hblimit, hlimit, hhevthr⟩ := LutEntry.toNat_unpack (s.reg rs)
  simp only [completed, State.lutAt_retire, State.lutAt_setLut_self]
  exact ⟨rfl, hblimit, hlimit, hhevthr, fun l hl => s.lutAt_setLut_ne _ hl, rfl⟩

/-- Settles O28: `VALID` decides the one check of `LUTR`. -/
theorem lutrReadsEntry : Obligations.LutrReadsEntry := by
  intro s rd idx
  have hcheck : firstError (checksOf (.lutr rd idx) s) =
      if (s.lutAt idx).valid = false then some (.lut, idx.setWidth 32) else none := by
    simp [checksOf, lutCheck, firstError]
  refine ⟨fun hv => ?_, fun hv => ?_⟩
  · exact exec_error (code := .lut) (info := idx.setWidth 32) (by simp [hcheck, hv])
  · exact exec_writes_reg (exec_complete (by simp [hcheck, hv])) (s.lutAt idx).toNat_pack

/-- Settles O29: `LVLW` by what it leaves in `LVLTAB`, `LVLR` by the number of a zero-extended entry. -/
theorem levelTableAccess : Obligations.LevelTableAccess := by
  refine ⟨fun s idx rs => ?_, fun s rd idx => ?_⟩
  · obtain ⟨hentry, hothers⟩ := completed_lvlw_lvltabAt idx rs s
    exact ⟨_, exec_complete rfl, hentry, hothers, rfl⟩
  · exact exec_writes_reg (exec_complete rfl) (BitVec.toNat_setWidth_of_le (by decide))

/-- Settles O30: the entries of the group are fields of the word, and the others stay. -/
theorem lvuwWritesFourLevels : Obligations.LvuwWritesFourLevels := by
  intro s q rs
  refine ⟨_, exec_complete rfl, ?_⟩
  simp only [completed, State.unitLevel_retire]
  refine ⟨fun i hi => ?_, fun n hn hgroup => s.unitLevel_setUnits_ne _ hn hgroup, rfl⟩
  rw [s.unitLevel_setUnits_self _ _ hi, toNat_field]
  rfl

/-- Settles O31: the packed group as a number is the sum of R107. -/
theorem lvurReadsFourLevels : Obligations.LvurReadsFourLevels := fun s _ q =>
  exec_writes_reg (exec_complete rfl) (s.toNat_unitsWord q)

end Sys2Proof.Claims

/-! ## The edge classifier: O36, O35

Each mask is the conjunction or disjunction of inequalities that its rule gives, and the kernel class is the table of R125.
For `CLS`, the model's samples, footprint and result word are tied to the addresses, the `fits` and the numbers of the
statements. -/

namespace Sys2Proof.Machine

/-! ### The masks as inequalities -/

theorem delta_eq_abs (a b : Int) : delta a b = |a - b| := Int.natCast_natAbs _

theorem filterMask_iff (limit blimit p3 p2 p1 p0 q0 q1 q2 q3 : Int) :
    filterMask limit blimit p3 p2 p1 p0 q0 q1 q2 q3 = true ↔
      |p3 - p2| ≤ limit ∧ |p2 - p1| ≤ limit ∧ |p1 - p0| ≤ limit ∧ |q1 - q0| ≤ limit ∧ |q2 - q1| ≤ limit ∧
      |q3 - q2| ≤ limit ∧ 2 * |p0 - q0| + |p1 - q1| / 2 ≤ blimit := by
  simp only [filterMask, delta_eq_abs, Bool.and_eq_true, decide_eq_true_eq, and_assoc]

theorem hevMask_iff (thresh p1 p0 q0 q1 : Int) :
    hevMask thresh p1 p0 q0 q1 = true ↔ |p1 - p0| > thresh ∨ |q1 - q0| > thresh := by
  simp only [hevMask, delta_eq_abs, Bool.or_eq_true, decide_eq_true_eq]

theorem flatMask4_iff (t p3 p2 p1 p0 q0 q1 q2 q3 : Int) :
    flatMask4 t p3 p2 p1 p0 q0 q1 q2 q3 = true ↔
      |p1 - p0| ≤ t ∧ |q1 - q0| ≤ t ∧ |p2 - p0| ≤ t ∧ |q2 - q0| ≤ t ∧ |p3 - p0| ≤ t ∧ |q3 - q0| ≤ t := by
  simp only [flatMask4, delta_eq_abs, Bool.and_eq_true, decide_eq_true_eq, and_assoc]

theorem flatMask5_iff (t a4 a3 a2 a1 a0 b0 b1 b2 b3 b4 : Int) :
    flatMask5 t a4 a3 a2 a1 a0 b0 b1 b2 b3 b4 = true ↔
      flatMask4 t a3 a2 a1 a0 b0 b1 b2 b3 = true ∧ |a4 - a0| ≤ t ∧ |b4 - b0| ≤ t := by
  simp only [flatMask5, delta_eq_abs, Bool.and_eq_true, decide_eq_true_eq, and_assoc]

/-- The inner samples of both sides, R124. -/
theorem flat_iff (x : Line) :
    flat x = true ↔ ∀ i : Int, 1 ≤ i → i ≤ 3 → |x (-1 - i) - x (-1)| ≤ 1 ∧ |x i - x 0| ≤ 1 := by
  rw [flat, flatMask4_iff, flatThresh]
  constructor
  · rintro ⟨p1, q1, p2, q2, p3, q3⟩ i hlo hhi
    interval_cases i
    · exact ⟨p1, q1⟩
    · exact ⟨p2, q2⟩
    · exact ⟨p3, q3⟩
  · intro h
    obtain ⟨p1, q1⟩ := h 1 (by decide) (by decide)
    obtain ⟨p2, q2⟩ := h 2 (by decide) (by decide)
    obtain ⟨p3, q3⟩ := h 3 (by decide) (by decide)
    exact ⟨p1, q1, p2, q2, p3, q3⟩

/-- The outer samples of both sides, R124. -/
theorem flat2_iff (x : Line) :
    flat2 x = true ↔ ∀ i : Int, 4 ≤ i → i ≤ 7 → |x (-1 - i) - x (-1)| ≤ 1 ∧ |x i - x 0| ≤ 1 := by
  rw [flat2, flatMask5_iff, flatMask4_iff, flatThresh]
  constructor
  · rintro ⟨⟨p4, q4, p5, q5, p6, q6⟩, p7, q7⟩ i hlo hhi
    interval_cases i
    · exact ⟨p4, q4⟩
    · exact ⟨p5, q5⟩
    · exact ⟨p6, q6⟩
    · exact ⟨p7, q7⟩
  · intro h
    obtain ⟨p4, q4⟩ := h 4 (by decide) (by decide)
    obtain ⟨p5, q5⟩ := h 5 (by decide) (by decide)
    obtain ⟨p6, q6⟩ := h 6 (by decide) (by decide)
    obtain ⟨p7, q7⟩ := h 7 (by decide) (by decide)
    exact ⟨⟨p4, q4, p5, q5, p6, q6⟩, p7, q7⟩

/-! ### The kernel class -/

/-- The table of R125, first row that applies. -/
theorem kernelClass_eq (m f f2 : Bool) (cap : Kernel) :
    kernelClass m f f2 cap =
      if m = false then none
      else if cap = .f16 ∧ f2 = true ∧ f = true then some .f16
      else if (cap = .f8 ∨ cap = .f16) ∧ f = true then some .f8
      else some .f4 := by
  cases m with
  | false => rfl
  | true => cases cap <;> simp [kernelClass]

/-- The number of a kernel class in the field `KSEL`, R127. -/
def kselNumber : Option Kernel → Nat
  | none => 0
  | some .f4 => 1
  | some .f8 => 2
  | some .f16 => 3

/-- `KSEL` is the class with the cap of the form of `CLS`; the narrow form has no `flat2`. -/
theorem toNat_kselBits (m f f2 wide : Bool) :
    (kselBits m f (wide && f2) wide).toNat = kselNumber (kernelClass m f f2 (if wide then .f16 else .f8)) := by
  revert m f f2 wide
  decide

/-- The result word of `CLS` as a number, R127. -/
theorem toNat_clsWord (e : LutEntry) (wide : Bool) (x : Line) :
    (clsWord e wide x).toNat =
      (lineMask e x).toNat + 2 * (lineHev e x).toNat + 4 * (flat x).toNat + 8 * (wide && flat2 x).toNat +
        16 * kselNumber (kernelClass (lineMask e x) (flat x) (flat2 x) (if wide then .f16 else .f8)) := by
  simp only [clsWord, toNat_fields, toNat_kselBits, BitVec.toNat_ofBool, BitVec.toNat_ofNat]
  omega

/-- Line 0 of a segment begins at its base. -/
theorem lineOrigin_zero (dir : Dir) (pitch : BitVec 16) (a : Int) : lineOrigin dir pitch a 0 = a := by
  cases dir <;> simp [lineOrigin]

/-- The window of each form of `CLS` as a range, R127. -/
theorem mem_clsWindow (wide : Bool) (k : Int) :
    k ∈ clsWindow wide ↔ (if wide then -8 else -4) ≤ k ∧ k ≤ if wide then 7 else 3 := by
  cases wide with
  | false => exact mem_window8 k
  | true => exact mem_window16 k

end Sys2Proof.Machine

namespace Sys2Proof.Claims

open Sys2Proof.Machine

/-! ### Samples and footprints by their addresses -/

theorem lineOrigin_add_eq_addr (s : State) (dir : Dir) (a : Int) (j : Nat) (k : Int) :
    lineOrigin dir s.pitch a j + k * sampleStep dir s.pitch = addr s dir a j k := by
  cases dir with
  | v => simp only [lineOrigin, sampleStep, addr, mul_one]
  | h => rfl

theorem readLine_eq_sample (s : State) (dir : Dir) (a : Int) (j : Nat) :
    readLine s.pix (lineOrigin dir s.pitch a j) (sampleStep dir s.pitch) = sample s dir a j := by
  funext k
  rw [readLine, lineOrigin_add_eq_addr, sample]

/-- The range check of a window of consecutive samples in the first n lines, 20_memory.md R65. -/
theorem inRange_footprint_iff_fits {s : State} {dir : Dir} {a n lo hi : Int} {lines : List Nat} {window : List Int}
    (hlines : ∀ j : Nat, j ∈ lines ↔ (j : Int) < n) (hwindow : ∀ k, k ∈ window ↔ lo ≤ k ∧ k ≤ hi) :
    inRange s.cfg (footprint dir s.pitch a lines window) = true ↔ fits s dir a n lo hi := by
  rw [inRange_iff]
  constructor
  · intro h j k hj hn hlo hhi
    lift j to Nat using hj
    exact h _ (mem_footprint.2 ⟨j, (hlines j).2 hn, k, (hwindow k).2 ⟨hlo, hhi⟩, (lineOrigin_add_eq_addr s dir a j k).symm⟩)
  · intro h x hx
    obtain ⟨j, hj, k, hk, rfl⟩ := mem_footprint.1 hx
    obtain ⟨hlo, hhi⟩ := (hwindow k).1 hk
    rw [lineOrigin_add_eq_addr]
    exact h j k (by omega) ((hlines j).1 hj) hlo hhi

/-- The class of the statements is the model's. -/
theorem chosen_eq_kernelClass (e : LutEntry) (cap : Kernel) (x : Line) :
    chosen e cap x = kernelClass (lineMask e x) (flat x) (flat2 x) cap := by
  rw [kernelClass_eq, chosen]

/-! ### The command `CLS` -/

theorem pitchCheck_passes_iff (s : State) : (pitchCheck s).1 = false ↔ 16 ≤ s.pitch.toNat :=
  decide_eq_false_iff_not.trans not_lt

theorem cls_checks_pass_iff (s : State) (rd ra : Reg) (dir : Dir) (wide : Bool) (lvl : Level) :
    firstError (checksOf (.cls rd ra dir wide lvl) s) = none ↔ 16 ≤ s.pitch.toNat ∧ (s.lutAt lvl).valid = true ∧
      fits s dir (s.reg ra).toNat 1 (if wide then -8 else -4) (if wide then 7 else 3) := by
  have hlines (j : Nat) : j ∈ lineZero ↔ (j : Int) < 1 := by rw [mem_lineZero]; omega
  rw [firstError_eq_none_iff, ← inRange_footprint_iff_fits hlines (mem_clsWindow wide)]
  simp [checksOf, pitchCheck_passes_iff, lutCheck, rangeCheck]

/-- `CLS` writes the word of the line at the old `x[ra]`. -/
theorem completed_cls_eq (s : State) (rd ra : Reg) (dir : Dir) (wide : Bool) (lvl : Level) :
    completed (.cls rd ra dir wide lvl) s =
      (s.setReg rd (clsWord (s.lutAt lvl) wide (sample s dir (s.reg ra).toNat 0))).retire := by
  have hline := readLine_eq_sample s dir (s.reg ra).toNat 0
  rw [lineOrigin_zero] at hline
  rw [completed, hline]
  rfl

/-- Settles O36: the checks pass, and the word written is the number of R127. -/
theorem clsReportsTheClass : Obligations.ClsReportsTheClass := by
  intro s rd ra dir wide lvl hpitch hvalid hfits
  have hexec := exec_complete ((cls_checks_pass_iff s rd ra dir wide lvl).2 ⟨hpitch, hvalid, hfits⟩)
  rw [completed_cls_eq] at hexec
  refine exec_writes_reg hexec ?_
  rw [toNat_clsWord, ← chosen_eq_kernelClass]
  rfl

/-- Settles O35: a line's masks are those of its samples, with the thresholds of the entry. -/
theorem classifierFunctions : Obligations.ClassifierFunctions :=
  ⟨filterMask_iff, hevMask_iff, flatMask4_iff, flatMask5_iff, flat_iff, flat2_iff, kernelClass_eq,
    fun _ _ => filterMask_iff .., fun _ _ => hevMask_iff ..⟩

end Sys2Proof.Claims

/-! ## The filter kernels: O37, O38, O39, O41, O40

A flat kernel is a weighted sum of samples; the weights add up to a power of 2, so an output lies between the bounds of the
inputs. `filter4` is restated without the signed domain: a sum saturated to -128..127, its two roundings, and four samples that
move by them and saturate to 0..255. -/

namespace Sys2Proof.Machine

/-! ### The flat kernels as sums of taps -/

/-- `clamp(i, -(W+1), W)` of R142: the end samples stand for the positions past the window. -/
def clampIndex (w : Nat) (i : Int) : Int := min (w : Int) (max (-((w : Int) + 1)) i)

@[simp] theorem boxSum_zero (w : Nat) (x : Line) (i : Int) : boxSum w x i 0 = 0 := rfl

theorem boxSum_succ (w : Nat) (x : Line) (i : Int) (n : Nat) :
    boxSum w x i (n + 1) = boxSum w x i n + x (clampIndex w (i + ((n : Int) - w))) := rfl

theorem filter8_eq (x : Line) (i : Int) : filter8 x i = (boxSum 3 x i 7 + x i + 4) / 8 := rfl

theorem filter16_eq (x : Line) (i : Int) : filter16 x i = (boxSum 7 x i 15 + x i + 8) / 16 := rfl

/-- The box of `filter8`, term by term. -/
theorem boxSum_seven (x : Line) (i : Int) :
    boxSum 3 x i 7 = x (clampIndex 3 (i - 3)) + x (clampIndex 3 (i - 2)) + x (clampIndex 3 (i - 1)) + x (clampIndex 3 i) +
      x (clampIndex 3 (i + 1)) + x (clampIndex 3 (i + 2)) + x (clampIndex 3 (i + 3)) := by
  norm_num [boxSum_succ, ← sub_eq_add_neg]

/-- The box of `filter16`, term by term. -/
theorem boxSum_fifteen (x : Line) (i : Int) :
    boxSum 7 x i 15 = x (clampIndex 7 (i - 7)) + x (clampIndex 7 (i - 6)) + x (clampIndex 7 (i - 5)) +
      x (clampIndex 7 (i - 4)) + x (clampIndex 7 (i - 3)) + x (clampIndex 7 (i - 2)) + x (clampIndex 7 (i - 1)) +
      x (clampIndex 7 i) + x (clampIndex 7 (i + 1)) + x (clampIndex 7 (i + 2)) + x (clampIndex 7 (i + 3)) +
      x (clampIndex 7 (i + 4)) + x (clampIndex 7 (i + 5)) + x (clampIndex 7 (i + 6)) + x (clampIndex 7 (i + 7)) := by
  norm_num [boxSum_succ, ← sub_eq_add_neg]

/-! ### The flat kernels keep the bounds of a line -/

theorem boxSum_bounds {x : Line} {lo hi : Int} (h : ∀ k, lo ≤ x k ∧ x k ≤ hi) (w : Nat) (i : Int) (n : Nat) :
    n * lo ≤ boxSum w x i n ∧ boxSum w x i n ≤ n * hi := by
  induction n with
  | zero => simp
  | succ n ih =>
    obtain ⟨hlo, hhi⟩ := h (clampIndex w (i + ((n : Int) - w)))
    rw [boxSum_succ]
    push_cast
    constructor <;> linarith

/-- The weights of `filter8` add up to 8, so its outputs lie between the bounds of its inputs. -/
theorem filter8_bounds {x : Line} {lo hi : Int} (h : ∀ k, lo ≤ x k ∧ x k ≤ hi) (i : Int) :
    lo ≤ filter8 x i ∧ filter8 x i ≤ hi := by
  have hbox := boxSum_bounds h 3 i 7
  have hi' := h i
  rw [filter8_eq]
  omega

/-- The weights of `filter16` add up to 16. -/
theorem filter16_bounds {x : Line} {lo hi : Int} (h : ∀ k, lo ≤ x k ∧ x k ≤ hi) (i : Int) :
    lo ≤ filter16 x i ∧ filter16 x i ≤ hi := by
  have hbox := boxSum_bounds h 7 i 15
  have hi' := h i
  rw [filter16_eq]
  omega

/-! ### `filter4` on samples -/

/-- Saturation to the samples 0..255. -/
def sat (v : Int) : Int := min 255 (max 0 v)

/-- The gated sum of `filter4`, R140: saturated, and 0 without the gate. -/
def clampedSum (m h : Bool) (p1 p0 q0 q1 : Int) : Int :=
  if m then clamp8 ((if h then clamp8 (p1 - q1) else 0) + 3 * (q0 - p0)) else 0

theorem clamp8_bounds (v : Int) : -128 ≤ clamp8 v ∧ clamp8 v ≤ 127 := by
  unfold clamp8; omega

theorem clampedSum_bounds (m h : Bool) (p1 p0 q0 q1 : Int) :
    -128 ≤ clampedSum m h p1 p0 q0 q1 ∧ clampedSum m h p1 p0 q0 q1 ≤ 127 := by
  cases m with
  | false => simp [clampedSum]
  | true => exact clamp8_bounds _

theorem sat_bounds (v : Int) : 0 ≤ sat v ∧ sat v ≤ 255 := by
  unfold sat; omega

theorem sat_of_sample {v : Int} (h : 0 ≤ v ∧ v ≤ 255) : sat v = v := by
  unfold sat; omega

/-- Saturation keeps a bound on the step away from a sample. -/
theorem abs_sat_add_sub_le {v d n : Int} (h : 0 ≤ v ∧ v ≤ 255) (hlo : -n ≤ d) (hhi : d ≤ n) : |sat (v + d) - v| ≤ n := by
  rw [abs_le]; unfold sat; omega

theorem s2u_clamp8 (v : Int) : s2u (clamp8 v) = sat (v + 128) := by
  unfold s2u clamp8 sat; omega

theorem u2s_sub_u2s (a b : Int) : u2s a - u2s b = a - b := by
  unfold u2s; ring

/-- The rounding with 4 and with 3 of a value that is saturated already: only the upper end can saturate again. -/
theorem asr_clamp8_add {c r : Int} (hc : -128 ≤ c) (hr : 0 ≤ r) : asr (clamp8 (c + r)) 3 = min 127 (c + r) / 8 := by
  rw [clamp8, max_eq_right (by omega)]
  rfl

/-- The first rounding of the sum: what `q0` loses. -/
def roundQ (c : Int) : Int := min 127 (c + 4) / 8

/-- The second rounding of the sum: what `p0` gains. -/
def roundP (c : Int) : Int := min 127 (c + 3) / 8

/-- What the outer samples move by. -/
def outerStep (h : Bool) (c : Int) : Int := if h then 0 else (roundQ c + 1) / 2

/-- `filter4` with no conversion to the signed domain left, for both values of the gate. -/
theorem filter4_eq (m h : Bool) (p1 p0 q0 q1 : Int) :
    filter4 m h p1 p0 q0 q1 =
      let c := clampedSum m h p1 p0 q0 q1
      ⟨sat (p1 + outerStep h c), sat (p0 + roundP c), sat (q0 - roundQ c), sat (q1 - outerStep h c)⟩ := by
  have hlo := (clampedSum_bounds m h p1 p0 q0 q1).1
  have hgain (v d : Int) : s2u (clamp8 (u2s v + d)) = sat (v + d) := by rw [s2u_clamp8, u2s]; congr 1; ring
  have hloss (v d : Int) : s2u (clamp8 (u2s v - d)) = sat (v - d) := hgain v (-d)
  simp only [filter4, u2s_sub_u2s, hgain, hloss]
  rw [← clampedSum, asr_clamp8_add hlo (by decide), asr_clamp8_add hlo (by decide)]
  rfl

theorem roundP_bounds {c : Int} (h : -128 ≤ c ∧ c ≤ 127) : -16 ≤ roundP c ∧ roundP c ≤ 15 := by
  unfold roundP; omega

theorem roundQ_bounds {c : Int} (h : -128 ≤ c ∧ c ≤ 127) : -16 ≤ roundQ c ∧ roundQ c ≤ 15 := by
  unfold roundQ; omega

theorem outerStep_bounds (h : Bool) {c : Int} (hc : -128 ≤ c ∧ c ≤ 127) : -8 ≤ outerStep h c ∧ outerStep h c ≤ 8 := by
  have := roundQ_bounds hc
  unfold outerStep
  split <;> omega

/-- A sum of 0 moves no sample. -/
theorem filter4_of_sum_zero {m h : Bool} {p1 p0 q0 q1 : Int} (hc : clampedSum m h p1 p0 q0 q1 = 0)
    (hp1 : 0 ≤ p1 ∧ p1 ≤ 255) (hp0 : 0 ≤ p0 ∧ p0 ≤ 255) (hq0 : 0 ≤ q0 ∧ q0 ≤ 255) (hq1 : 0 ≤ q1 ∧ q1 ≤ 255) :
    filter4 m h p1 p0 q0 q1 = ⟨p1, p0, q0, q1⟩ := by
  have houter : outerStep h 0 = 0 := by cases h <;> rfl
  have hround : roundP 0 = 0 ∧ roundQ 0 = 0 := ⟨rfl, rfl⟩
  simp only [filter4_eq, hc, houter, hround, add_zero, sub_zero, sat_of_sample hp1, sat_of_sample hp0, sat_of_sample hq0,
    sat_of_sample hq1]

theorem clampedSum_flat (m h : Bool) (p1 p0 : Int) : clampedSum m h p1 p0 p0 p1 = 0 := by
  have hzero : clamp8 0 = 0 := rfl
  simp [clampedSum, hzero]

end Sys2Proof.Machine

namespace Sys2Proof.Claims

open Sys2Proof.Machine

/-- Settles O37: the box with its clamped indices written out is the row of taps. -/
theorem filter8Taps : Obligations.Filter8Taps := by
  refine ⟨fun x => ?_, fun x hx => ?_⟩
  · simp only [filter8_eq, boxSum_seven]
    norm_num [clampIndex]
    omega
  · obtain rfl : x = fun k => if k < 0 then 10 else 250 := funext hx
    rfl

/-- Settles O38, as for `filter8`. -/
theorem filter16Taps : Obligations.Filter16Taps := by
  refine ⟨fun x => ?tapsP, fun x => ?tapsQ, fun x hx => ?step⟩
  case step =>
    obtain rfl : x = fun k => if k < 0 then 10 else 250 := funext hx
    rfl
  all_goals
    simp only [filter16_eq, boxSum_fifteen]
    norm_num [clampIndex]
    omega

/-- Settles O39: the box of n samples is at most 255 n, and a constant line has equal bounds. -/
theorem flatKernelRanges : Obligations.FlatKernelRanges := by
  refine ⟨fun x i hx => ?_, fun x v i hx => ?_⟩
  · have hbox8 := boxSum_bounds hx 3 i 7
    have hbox16 := boxSum_bounds hx 7 i 15
    have hi := hx i
    obtain ⟨hlo8, hhi8⟩ := filter8_bounds hx i
    obtain ⟨hlo16, hhi16⟩ := filter16_bounds hx i
    exact ⟨by omega, by omega, hlo8, hhi8, hlo16, hhi16⟩
  · have hbounds (k : Int) : v ≤ x k ∧ x k ≤ v := ⟨(hx k).ge, (hx k).le⟩
    obtain ⟨hlo8, hhi8⟩ := filter8_bounds hbounds i
    obtain ⟨hlo16, hhi16⟩ := filter16_bounds hbounds i
    exact ⟨le_antisymm hhi8 hlo8, le_antisymm hhi16 hlo16⟩

/-- Settles O41: `filter4_eq` with the gate open; the statement writes its named steps out. -/
theorem filter4OnSamples : Obligations.Filter4OnSamples :=
  ⟨fun h p1 p0 q0 q1 _ _ _ _ => filter4_eq true h p1 p0 q0 q1, fun _ _ _ => ⟨rfl, rfl, rfl, rfl⟩⟩

/-- Settles O40: a sum of 0 moves nothing, and the two roundings of any sum are small. -/
theorem filter4Properties : Obligations.Filter4Properties := by
  refine ⟨fun h p1 p0 q0 q1 => filter4_of_sum_zero rfl,
    fun m h p1 p0 hp1 hp0 => filter4_of_sum_zero (clampedSum_flat m h p1 p0) hp1 hp0 hp0 hp1,
    fun m h p1 p0 q0 q1 hp1 hp0 hq0 hq1 => ?_, by decide, by decide⟩
  have hc := clampedSum_bounds m h p1 p0 q0 q1
  rw [filter4_eq]
  generalize clampedSum m h p1 p0 q0 q1 = c at hc
  have hP := roundP_bounds hc
  have hQ := roundQ_bounds hc
  have hG := outerStep_bounds h hc
  refine ⟨sat_bounds _, sat_bounds _, sat_bounds _, sat_bounds _, abs_sat_add_sub_le hp0 (by omega) (by omega),
    abs_sat_add_sub_le hq0 (by omega) (by omega), abs_sat_add_sub_le hp1 (by omega) (by omega),
    abs_sat_add_sub_le hq1 (by omega) (by omega), ?_⟩
  rintro rfl
  exact ⟨(congrArg sat (add_zero p1)).trans (sat_of_sample hp1), (congrArg sat (sub_zero q1)).trans (sat_of_sample hq1)⟩

end Sys2Proof.Claims

/-! ## The raw kernels and the edge commands: O42, O43

With a legal pitch, the samples of a footprint inside PIXMEM lie at distinct bytes. So what is read back from a stored line is
the kernel's outputs; and since the class and the outputs of a line depend on its own window alone, filtering one line of a
segment changes neither the samples nor the outcome of another (42_kernels.md R154). -/

namespace Sys2Proof.Machine

/-! ### Lines of samples -/

/-- The values of a line are bytes. -/
def Line.Samples (x : Line) : Prop := ∀ k, 0 ≤ x k ∧ x k ≤ 255

theorem toNat_byte_bounds (b : Byte) : 0 ≤ (b.toNat : Int) ∧ (b.toNat : Int) ≤ 255 := by
  have := b.isLt
  omega

theorem readLine_samples (m : Memory) (o st : Int) : Line.Samples (readLine m o st) := fun _ => toNat_byte_bounds _

theorem filter4Line_samples (m h : Bool) (x : Line) : Line.Samples (filter4Line m h x) := by
  intro k
  simp only [filter4Line, filter4_eq]
  split_ifs <;> exact sat_bounds _

/-- A kernel as a function of lines, with the mask and hev bits that `filter4` takes. -/
def runKernel (c : Kernel) (m h : Bool) : Line → Line :=
  match c with
  | .f4 => filter4Line m h
  | .f8 => filter8
  | .f16 => filter16

/-- Every kernel turns samples into samples, R141 and R145. -/
theorem runKernel_samples (c : Kernel) (m h : Bool) {x : Line} (hx : x.Samples) : Line.Samples (runKernel c m h x) := by
  cases c with
  | f4 => exact filter4Line_samples m h x
  | f8 => exact filter8_bounds hx
  | f16 => exact filter16_bounds hx

theorem kernelOut_eq_runKernel (e : LutEntry) (x : Line) (c : Kernel) :
    kernelOut e x c = runKernel c true (lineHev e x) x := by
  cases c <;> rfl

theorem kernelOut_samples (e : LutEntry) {x : Line} (h : x.Samples) (c : Kernel) : Line.Samples (kernelOut e x c) :=
  kernelOut_eq_runKernel e x c ▸ runKernel_samples c true (lineHev e x) h

/-- Storing a sample as a byte loses nothing. -/
theorem toNat_ofInt_sample {v : Int} (h : 0 ≤ v ∧ v ≤ 255) : ((BitVec.ofInt 8 v).toNat : Int) = v := by
  rw [BitVec.toNat_ofInt]
  omega

/-! ### Samples at distinct addresses -/

/-- The samples of a window of some lines of a segment lie at distinct bytes of PIXMEM. -/
def DistinctSamples (dir : Dir) (pitch : BitVec 16) (a : Int) (lines : List Nat) (window : List Int) : Prop :=
  ∀ j ∈ lines, ∀ j' ∈ lines, ∀ k ∈ window, ∀ k' ∈ window,
    (lineOrigin dir pitch a j + k * sampleStep dir pitch).toNat = (lineOrigin dir pitch a j' + k' * sampleStep dir pitch).toNat →
    j = j' ∧ k = k'

/-- A footprint inside PIXMEM has no negative address, so distinct samples are distinct bytes. -/
theorem distinctSamples_of_inRange {c : Config} {dir : Dir} {pitch : BitVec 16} {a : Int} {lines : List Nat}
    {window : List Int} (hpitch : 16 ≤ pitch.toNat) (hlines : ∀ j ∈ lines, j < 8) (hwindow : ∀ k ∈ window, -8 ≤ k ∧ k ≤ 7)
    (hr : inRange c (footprint dir pitch a lines window) = true) : DistinctSamples dir pitch a lines window := by
  intro j hj j' hj' k hk k' hk' heq
  have hpos := ((inRange_iff c _).1 hr _ (mem_footprint.2 ⟨j, hj, k, hk, rfl⟩)).1
  have hpos' := ((inRange_iff c _).1 hr _ (mem_footprint.2 ⟨j', hj', k', hk', rfl⟩)).1
  have haddr : lineOrigin dir pitch a j + k * sampleStep dir pitch = lineOrigin dir pitch a j' + k' * sampleStep dir pitch := by
    omega
  exact sample_addr_inj hpitch (hlines j hj) (hlines j' hj') (hwindow k hk) (hwindow k' hk') haddr

/-- What is read back from a stored line: the outputs at the stored samples, the old samples elsewhere in the window. -/
theorem readLine_storeLine {m : Memory} (hwf : m.wf) {o st : Int} {window ks : List Int} {out : Line} (hout : out.Samples)
    (hsub : ∀ k ∈ ks, k ∈ window)
    (hinj : ∀ k ∈ window, ∀ k' ∈ window, (o + k * st).toNat = (o + k' * st).toNat → k = k') {k : Int} (hk : k ∈ window) :
    readLine (storeLine o st ks out m) o st k = if k ∈ ks then out k else readLine m o st k := by
  split
  · rename_i hmem
    rw [readLine, storeLine_read_at hwf out (fun b hb b' hb' => hinj b (hsub b hb) b' (hsub b' hb')) hmem,
      toNat_ofInt_sample (hout k)]
  · rename_i hmem
    refine readLine_congr (storeLine_read_other hwf out fun b hb heq => ?_)
    exact hmem (hinj k hk b (hsub b hb) heq ▸ hb)

/-! ### Filtering one line -/

/-- What `EdgeOp` makes of one line, R151: the outputs of the line's class at the samples that its kernel writes. -/
def filteredLine (e : LutEntry) (cap : Kernel) (x : Line) : Line := fun k =>
  match lineClass e cap x with
  | none => x k
  | some c => if k ∈ kernelWrites c then kernelOut e x c k else x k

theorem filteredLine_none {e : LutEntry} {cap : Kernel} {x : Line} (h : lineClass e cap x = none) :
    filteredLine e cap x = x := by
  funext k
  simp only [filteredLine, h]

theorem filteredLine_some {e : LutEntry} {cap c : Kernel} {x : Line} (h : lineClass e cap x = some c) (k : Int) :
    filteredLine e cap x k = if k ∈ kernelWrites c then kernelOut e x c k else x k := by
  simp only [filteredLine, h]

theorem readLine_filterLine {m : Memory} (hwf : m.wf) {e : LutEntry} {cap : Kernel} {o st : Int}
    (hinj : ∀ k ∈ capWindow cap, ∀ k' ∈ capWindow cap, (o + k * st).toNat = (o + k' * st).toNat → k = k') {k : Int}
    (hk : k ∈ capWindow cap) :
    readLine (filterLine e cap o st m) o st k = filteredLine e cap (readLine m o st) k := by
  unfold filterLine
  split
  · rename_i hclass
    rw [filteredLine_none hclass]
  · rename_i c hclass
    rw [filteredLine_some hclass]
    exact readLine_storeLine hwf (kernelOut_samples e (readLine_samples m o st) c)
      (fun b hb => kernelWrites_subset_capWindow (lineClass_writes hclass hb)) hinj hk

/-! ### A line is filtered by the samples of its window -/

/-- The kernel class of a line depends on the samples of the window alone. -/
theorem lineClass_congr (e : LutEntry) {cap : Kernel} {x y : Line} (h : ∀ k ∈ capWindow cap, x k = y k) :
    lineClass e cap x = lineClass e cap y := by
  cases cap <;> simp only [capWindow, window8, window16, List.forall_mem_cons] at h <;>
    simp [lineClass, lineMask, flat, flat2, h]

/-- The sum of `filterN` reads only samples -(W+1)..W. -/
theorem boxSum_congr {w : Nat} {x y : Line} (h : ∀ k, -((w : Int) + 1) ≤ k → k ≤ w → x k = y k) (i : Int) (n : Nat) :
    boxSum w x i n = boxSum w y i n := by
  induction n with
  | zero => rfl
  | succ n ih => rw [boxSum_succ, boxSum_succ, ih, h _ (by unfold clampIndex; omega) (by unfold clampIndex; omega)]

theorem filterN_congr {w : Nat} {x y : Line} (h : ∀ k, -((w : Int) + 1) ≤ k → k ≤ w → x k = y k) (sh : Nat) {i : Int}
    (hlo : -((w : Int) + 1) ≤ i) (hhi : i ≤ w) : filterN w sh x i = filterN w sh y i := by
  rw [filterN, filterN, boxSum_congr h, h i hlo hhi]

/-- The outputs of a kernel depend on the samples of its own window alone. -/
theorem kernelOut_congr (e : LutEntry) {c : Kernel} {x y : Line} (h : ∀ k ∈ capWindow c, x k = y k) {k : Int}
    (hk : k ∈ capWindow c) : kernelOut e x c k = kernelOut e y c k := by
  cases c with
  | f4 =>
    simp only [capWindow, window8, List.forall_mem_cons] at h
    simp only [kernelOut, filter4Line, lineHev, h]
  | f8 =>
    obtain ⟨hlo, hhi⟩ := (mem_window8 k).1 hk
    exact filterN_congr (fun i hlo hhi => h i ((mem_window8 i).2 ⟨hlo, hhi⟩)) 3 hlo hhi
  | f16 =>
    obtain ⟨hlo, hhi⟩ := (mem_window16 k).1 hk
    exact filterN_congr (fun i hlo hhi => h i ((mem_window16 i).2 ⟨hlo, hhi⟩)) 4 hlo hhi

/-- Only the widest cap gives the widest kernel, R125. -/
theorem eq_f16_of_lineClass {e : LutEntry} {cap : Kernel} {x : Line} (h : lineClass e cap x = some .f16) : cap = .f16 := by
  rw [lineClass, kernelClass_eq] at h
  split_ifs at h with hmask hwide hflat
  · exact hwide.1
  · simp at h
  · simp at h

/-- A line's kernel reads nothing outside the window of the cap. -/
theorem lineClass_window {e : LutEntry} {cap c : Kernel} {x : Line} (h : lineClass e cap x = some c) {k : Int}
    (hk : k ∈ capWindow c) : k ∈ capWindow cap := by
  have hnarrow (h8 : k ∈ window8) : k ∈ capWindow cap := by
    cases cap <;> simp only [capWindow, mem_window8, mem_window16] at * <;> omega
  cases c with
  | f4 => exact hnarrow hk
  | f8 => exact hnarrow hk
  | f16 => rwa [eq_f16_of_lineClass h]

theorem filteredLine_congr (e : LutEntry) {cap : Kernel} {x y : Line} (h : ∀ k ∈ capWindow cap, x k = y k) {k : Int}
    (hk : k ∈ capWindow cap) : filteredLine e cap x k = filteredLine e cap y k := by
  have hclass := lineClass_congr e h
  cases hx : lineClass e cap x with
  | none => rw [filteredLine_none hx, filteredLine_none (hclass ▸ hx), h k hk]
  | some c =>
    rw [filteredLine_some hx, filteredLine_some (hclass ▸ hx)]
    split
    · rename_i hmem
      exact kernelOut_congr e (fun b hb => h b (lineClass_window hx hb)) (kernelWrites_subset_capWindow hmem)
    · exact h k hk

/-! ### The lines of a segment, one after another -/

section
variable {e : LutEntry} {dir : Dir} {pitch : BitVec 16} {a : Int} {cap : Kernel}

/-- Line j of the segment at `a` as PIXMEM holds it. -/
def segmentLine (dir : Dir) (pitch : BitVec 16) (a : Int) (j : Nat) (m : Memory) : Line :=
  readLine m (lineOrigin dir pitch a j) (sampleStep dir pitch)

/-- `filterLine` on line j of the segment at `a`. -/
def filterSegmentLine (e : LutEntry) (dir : Dir) (pitch : BitVec 16) (a : Int) (cap : Kernel) (m : Memory) (j : Nat) : Memory :=
  filterLine e cap (lineOrigin dir pitch a j) (sampleStep dir pitch) m

theorem filterSegmentLine_wf {m : Memory} (h : m.wf) (j : Nat) : (filterSegmentLine e dir pitch a cap m j).wf :=
  filterLine_wf h _ _ _ _

theorem edgeOp_eq_foldl (m : Memory) :
    edgeOp e dir pitch a cap m = segmentLines.foldl (filterSegmentLine e dir pitch a cap) m := rfl

/-- Filtering line j leaves every line of the segment but j as it is. -/
theorem segmentLine_filterSegmentLine {m : Memory} (hwf : m.wf) {lines : List Nat}
    (hdist : DistinctSamples dir pitch a lines (capWindow cap)) {j j' : Nat} (hj : j ∈ lines) (hj' : j' ∈ lines) {k : Int}
    (hk : k ∈ capWindow cap) :
    segmentLine dir pitch a j' (filterSegmentLine e dir pitch a cap m j) k =
      if j' = j then filteredLine e cap (segmentLine dir pitch a j' m) k else segmentLine dir pitch a j' m k := by
  split
  · rename_i heq
    subst heq
    exact readLine_filterLine hwf (fun b hb b' hb' h => (hdist j' hj' j' hj' b hb b' hb' h).2) hk
  · rename_i hne
    refine readLine_congr (filterLine_read_other hwf fun b hb heq => hne ?_)
    exact (hdist j' hj' j hj k hk b (kernelWrites_subset_capWindow hb) heq).1

/-- R154: after some lines of a segment in any order, each of them holds what its own samples before the first line gave. -/
theorem segmentLine_foldl {lines : List Nat} (hdist : DistinctSamples dir pitch a lines (capWindow cap)) {l : List Nat}
    (hsub : ∀ j ∈ l, j ∈ lines) (hnodup : l.Nodup) {m : Memory} (hwf : m.wf) {j : Nat} (hj : j ∈ lines) {k : Int}
    (hk : k ∈ capWindow cap) :
    segmentLine dir pitch a j (l.foldl (filterSegmentLine e dir pitch a cap) m) k =
      if j ∈ l then filteredLine e cap (segmentLine dir pitch a j m) k else segmentLine dir pitch a j m k := by
  induction l generalizing m with
  | nil => simp
  | cons i l ih =>
    obtain ⟨hi, hnodup⟩ := List.nodup_cons.1 hnodup
    have hfirst {b : Int} (hb : b ∈ capWindow cap) :=
      segmentLine_filterSegmentLine (e := e) hwf hdist (hsub i List.mem_cons_self) hj hb
    rw [List.foldl_cons, ih (fun j hj => hsub j (List.mem_cons_of_mem i hj)) hnodup (filterSegmentLine_wf hwf i)]
    by_cases hji : j = i
    · rw [if_neg (hji ▸ hi), hfirst hk, if_pos hji, if_pos (hji ▸ List.mem_cons_self)]
    · have hkept (b : Int) (hb : b ∈ capWindow cap) := (hfirst hb).trans (if_neg hji)
      simp only [List.mem_cons, hji, false_or, filteredLine_congr e hkept hk, hkept k hk]

theorem segmentLine_edgeOp {m : Memory} (hwf : m.wf)
    (hdist : DistinctSamples dir pitch a segmentLines (capWindow cap)) {j : Nat} (hj : j ∈ segmentLines) {k : Int}
    (hk : k ∈ capWindow cap) :
    segmentLine dir pitch a j (edgeOp e dir pitch a cap m) k = filteredLine e cap (segmentLine dir pitch a j m) k := by
  rw [edgeOp_eq_foldl, segmentLine_foldl hdist (fun _ h => h) (by decide) hwf hj hk, if_pos hj]

end

end Sys2Proof.Machine

namespace Sys2Proof.Claims

open Sys2Proof.Machine

/-! ### Windows and classes as the statements write them -/

theorem mem_capWindow (cap : Kernel) (k : Int) : k ∈ capWindow cap ↔ -(capReach cap + 1) ≤ k ∧ k ≤ capReach cap := by
  cases cap with
  | f4 => exact mem_window8 k
  | f8 => exact mem_window8 k
  | f16 => exact mem_window16 k

theorem mem_kernelWrites (c : Kernel) (k : Int) : k ∈ kernelWrites c ↔ -(writeReach c + 1) ≤ k ∧ k ≤ writeReach c := by
  cases c with
  | f4 => exact mem_window4 k
  | f8 => exact mem_writes8 k
  | f16 => exact mem_writes16 k

theorem capWindow_wide {cap : Kernel} {k : Int} (h : k ∈ capWindow cap) : -8 ≤ k ∧ k ≤ 7 := by
  cases cap <;> simp only [capWindow, mem_window8, mem_window16] at h <;> omega

theorem lineClass_eq_chosen (e : LutEntry) (cap : Kernel) (x : Line) : lineClass e cap x = chosen e cap x := by
  rw [chosen_eq_kernelClass, lineClass]
  cases cap <;> simp [kernelClass]

theorem kernelOut_eq_kernelValue (e : LutEntry) (x : Line) (c : Kernel) : kernelOut e x c = kernelValue e x c := by
  cases c <;> rfl

theorem sample_samples (s : State) (dir : Dir) (a j : Int) : (sample s dir a j).Samples := fun _ => toNat_byte_bounds _

/-- A byte apart from a sample that lies in PIXMEM. -/
theorem ne_toNat_of_ne_addr {s : State} {dir : Dir} {a : Int} {j : Nat} {k : Int} {b : Nat}
    (hpos : 0 ≤ addr s dir a j k) (hne : (b : Int) ≠ addr s dir a j k) :
    b ≠ (lineOrigin dir s.pitch a j + k * sampleStep dir s.pitch).toNat := by
  rw [lineOrigin_add_eq_addr]
  omega

/-! ### The state a kernel or edge command leaves -/

/-- The state a command leaves that completes with `m` in PIXMEM and writes nothing else. -/
def retireWith (s : State) (m : Memory) : State := { s with pix := m }.retire

@[simp] theorem retireWith_pix (s : State) (m : Memory) : (retireWith s m).pix = m := rfl
@[simp] theorem retireWith_pitch (s : State) (m : Memory) : (retireWith s m).pitch = s.pitch := rfl

theorem retireWith_frame (s : State) (m : Memory) :
    retireWith s m = { s with pix := (retireWith s m).pix, cmdcnt := s.cmdcnt + 1#32 } := rfl

theorem sample_retireWith (s : State) (m : Memory) (dir : Dir) (a : Int) (j : Nat) :
    sample (retireWith s m) dir a j = segmentLine dir s.pitch a j m :=
  (readLine_eq_sample (retireWith s m) dir a j).symm

/-! ### The raw kernel commands -/

/-- The window a raw kernel command reads, R148 to R150. -/
def rawWindow : Kernel → List Int
  | .f4 => window4
  | .f8 => window8
  | .f16 => window16

/-- The last sample of that window; the first is `-(rawReach + 1)`. -/
def rawReach : Kernel → Int
  | .f4 => 1
  | .f8 => 3
  | .f16 => 7

/-- The raw kernel command of a kernel; `m` and `h` are the bits of `K4`. -/
def rawCommand (c : Kernel) (ra : Reg) (dir : Dir) (m h : Bool) : Instr :=
  match c with
  | .f4 => .k4 ra dir m h
  | .f8 => .k8 ra dir
  | .f16 => .k16 ra dir

theorem mem_rawWindow (c : Kernel) (k : Int) : k ∈ rawWindow c ↔ -(rawReach c + 1) ≤ k ∧ k ≤ rawReach c := by
  cases c with
  | f4 => exact mem_window4 k
  | f8 => exact mem_window8 k
  | f16 => exact mem_window16 k

theorem rawWindow_wide {c : Kernel} {k : Int} (h : k ∈ rawWindow c) : -8 ≤ k ∧ k ≤ 7 := by
  cases c <;> simp only [rawWindow, mem_window4, mem_window8, mem_window16] at h <;> omega

theorem kernelWrites_subset_rawWindow {c : Kernel} {k : Int} (h : k ∈ kernelWrites c) : k ∈ rawWindow c := by
  cases c with
  | f4 => exact h
  | f8 => exact kernelWrites_subset_capWindow (cap := .f8) h
  | f16 => exact kernelWrites_subset_capWindow (cap := .f16) h

section
variable {s : State} {c : Kernel} {ra : Reg} {dir : Dir}

theorem checksOf_rawCommand (s : State) (c : Kernel) (ra : Reg) (dir : Dir) (m h : Bool) :
    checksOf (rawCommand c ra dir m h) s = rawChecks s ra dir (rawWindow c) := by
  cases c <;> rfl

theorem completed_rawCommand (s : State) (c : Kernel) (ra : Reg) (dir : Dir) (m h : Bool) :
    completed (rawCommand c ra dir m h) s = retireWith s (rawApply s ra dir (kernelWrites c) (runKernel c m h)) := by
  cases c <;> rfl

theorem rawChecks_pass_iff :
    firstError (rawChecks s ra dir (rawWindow c)) = none ↔
      16 ≤ s.pitch.toNat ∧ fits s dir (s.reg ra).toNat 1 (-(rawReach c + 1)) (rawReach c) := by
  have hlines (j : Nat) : j ∈ lineZero ↔ (j : Int) < 1 := by rw [mem_lineZero]; omega
  rw [firstError_eq_none_iff, ← inRange_footprint_iff_fits hlines (mem_rawWindow c)]
  simp [rawChecks, pitchCheck_passes_iff, rangeCheck]

/-- A raw kernel command whose checks pass completes with its kernel applied to line 0. -/
theorem exec_rawCommand (m h : Bool) (hpass : firstError (rawChecks s ra dir (rawWindow c)) = none) :
    exec (rawCommand c ra dir m h) s =
      .next (retireWith s (rawApply s ra dir (kernelWrites c) (runKernel c m h))) := by
  rw [← checksOf_rawCommand s c ra dir m h] at hpass
  rw [exec_complete hpass, completed_rawCommand]

/-- `ApplyLine` on line 0, R146, with the samples as the statements write them. -/
theorem rawApply_eq_storeLine (s : State) (ra : Reg) (dir : Dir) (ks : List Int) (kernel : Line → Line) :
    rawApply s ra dir ks kernel =
      storeLine (lineOrigin dir s.pitch (s.reg ra).toNat 0) (sampleStep dir s.pitch) ks
        (kernel (sample s dir (s.reg ra).toNat 0)) s.pix := by
  have hline := readLine_eq_sample s dir (s.reg ra).toNat 0
  rw [lineOrigin_zero] at hline ⊢
  rw [rawApply, hline]
  rfl

/-- A sample that the command writes holds the kernel's output on the samples before. -/
theorem sample_rawApply (m h : Bool) (hwf : s.pix.wf)
    (hpass : firstError (rawChecks s ra dir (rawWindow c)) = none) {k : Int} (hk : k ∈ kernelWrites c) :
    sample (retireWith s (rawApply s ra dir (kernelWrites c) (runKernel c m h))) dir (s.reg ra).toNat 0 k =
      runKernel c m h (sample s dir (s.reg ra).toNat 0) k := by
  have hdist : DistinctSamples dir s.pitch (s.reg ra).toNat lineZero (rawWindow c) :=
    distinctSamples_of_inRange (rawChecks_pass_iff.1 hpass).1 (by simp [lineZero]) (fun _ => rawWindow_wide)
      (inRange_of_rawChecks hpass)
  have hzero : 0 ∈ lineZero := (mem_lineZero 0).2 rfl
  refine (congrFun (sample_retireWith s _ dir _ 0) k).trans ?_
  rw [rawApply_eq_storeLine, segmentLine, readLine_storeLine hwf (runKernel_samples c m h (sample_samples s dir _ 0))
    (fun _ => kernelWrites_subset_rawWindow) (fun b hb b' hb' heq => (hdist 0 hzero 0 hzero b hb b' hb' heq).2)
    (kernelWrites_subset_rawWindow hk), if_pos hk]

/-- The byte frame of a raw kernel command. -/
theorem rawApply_read_other (m h : Bool) (hwf : s.pix.wf)
    (hfits : fits s dir (s.reg ra).toNat 1 (-(rawReach c + 1)) (rawReach c)) {b : Nat}
    (hb : ∀ k ∈ kernelWrites c, (b : Int) ≠ addr s dir (s.reg ra).toNat 0 k) :
    (rawApply s ra dir (kernelWrites c) (runKernel c m h)).read b = s.pix.read b := by
  rw [rawApply_eq_storeLine]
  refine storeLine_read_other hwf _ fun k hk => ?_
  obtain ⟨hlo, hhi⟩ := (mem_rawWindow c k).1 (kernelWrites_subset_rawWindow hk)
  exact ne_toNat_of_ne_addr (hfits 0 k le_rfl one_pos hlo hhi).1 (hb k hk)

/-- R148 to R150 for the raw kernel command of any kernel. -/
theorem rawCommand_filters_line (m h : Bool) (hwf : s.pix.wf) (hpitch : 16 ≤ s.pitch.toNat)
    (hfits : fits s dir (s.reg ra).toNat 1 (-(rawReach c + 1)) (rawReach c)) :
    ∃ t, exec (rawCommand c ra dir m h) s = .next t ∧ t = { s with pix := t.pix, cmdcnt := s.cmdcnt + 1#32 } ∧
      (∀ k, -(writeReach c + 1) ≤ k → k ≤ writeReach c →
        sample t dir (s.reg ra).toNat 0 k = runKernel c m h (sample s dir (s.reg ra).toNat 0) k) ∧
      (∀ a : Nat, (∀ k, -(writeReach c + 1) ≤ k → k ≤ writeReach c → (a : Int) ≠ addr s dir (s.reg ra).toNat 0 k) →
        t.pix.read a = s.pix.read a) := by
  have hpass := rawChecks_pass_iff.2 ⟨hpitch, hfits⟩
  refine ⟨_, exec_rawCommand m h hpass, retireWith_frame _ _, fun k hlo hhi => ?_, fun a ha => ?_⟩
  · exact sample_rawApply m h hwf hpass ((mem_kernelWrites c k).2 ⟨hlo, hhi⟩)
  · refine rawApply_read_other m h hwf hfits fun k hk => ?_
    obtain ⟨hlo, hhi⟩ := (mem_kernelWrites c k).1 hk
    exact ha k hlo hhi

end

/-- Settles O42: the three commands are those of the three kernels. -/
theorem rawKernelCommands : Obligations.RawKernelCommands := by
  rintro s i ra dir m h out lo hi wlo whi hwf hpitch
    (⟨rfl, rfl, rfl, rfl, rfl, rfl⟩ | ⟨rfl, rfl, rfl, rfl, rfl, rfl⟩ | ⟨rfl, rfl, rfl, rfl, rfl, rfl⟩) hfits
  · exact rawCommand_filters_line (c := .f4) m h hwf hpitch hfits
  · exact rawCommand_filters_line (c := .f8) m h hwf hpitch hfits
  · exact rawCommand_filters_line (c := .f16) m h hwf hpitch hfits

/-! ### The edge commands -/

section
variable {s : State} {cap : Kernel} {ra : Reg} {dir : Dir} {lvl : Level}

theorem edgeFootprint_inRange_iff :
    inRange s.cfg (footprint dir s.pitch (s.reg ra).toNat segmentLines (capWindow cap)) = true ↔
      fits s dir (s.reg ra).toNat 8 (-(capReach cap + 1)) (capReach cap) := by
  have hlines (j : Nat) : j ∈ segmentLines ↔ (j : Int) < 8 := by rw [mem_segmentLines]; omega
  exact inRange_footprint_iff_fits hlines (mem_capWindow cap)

theorem edgeChecks_pass_iff :
    firstError (edgeChecks s ra dir lvl cap) = none ↔ 16 ≤ s.pitch.toNat ∧ (s.lutAt lvl).valid = true ∧
      fits s dir (s.reg ra).toNat 8 (-(capReach cap + 1)) (capReach cap) := by
  rw [firstError_eq_none_iff, ← edgeFootprint_inRange_iff]
  simp [edgeChecks, pitchCheck_passes_iff, lutCheck, rangeCheck]

theorem checksOf_edgeCommand (s : State) (cap : Kernel) (ra : Reg) (dir : Dir) (lvl : Level) :
    checksOf (edgeCommand cap ra dir lvl) s = edgeChecks s ra dir lvl cap := by
  cases cap <;> rfl

theorem completed_edgeCommand (s : State) (cap : Kernel) (ra : Reg) (dir : Dir) (lvl : Level) :
    completed (edgeCommand cap ra dir lvl) s = retireWith s (edgeApply s ra dir lvl cap) := by
  cases cap <;> rfl

/-- An edge command whose checks pass completes with the edge operation on PIXMEM, R151 to R153. -/
theorem exec_edgeCommand (h : firstError (edgeChecks s ra dir lvl cap) = none) :
    exec (edgeCommand cap ra dir lvl) s = .next (retireWith s (edgeApply s ra dir lvl cap)) := by
  rw [← checksOf_edgeCommand] at h
  rw [exec_complete h, completed_edgeCommand]

/-- R154: each line after an edge command is its line before the command, filtered. -/
theorem sample_edgeApply (hwf : s.pix.wf) (hpitch : 16 ≤ s.pitch.toNat)
    (hfits : fits s dir (s.reg ra).toNat 8 (-(capReach cap + 1)) (capReach cap)) {j : Nat} (hj : j < 8) {k : Int}
    (hk : k ∈ capWindow cap) :
    sample (retireWith s (edgeApply s ra dir lvl cap)) dir (s.reg ra).toNat j k =
      filteredLine (s.lutAt lvl) cap (sample s dir (s.reg ra).toNat j) k := by
  have hdist := distinctSamples_of_inRange hpitch (fun j => (mem_segmentLines j).1) (fun _ => capWindow_wide)
    (edgeFootprint_inRange_iff.2 hfits)
  rw [sample_retireWith, edgeApply, segmentLine_edgeOp hwf hdist ((mem_segmentLines j).2 hj) hk, segmentLine,
    readLine_eq_sample]

/-- The byte frame of an edge command. -/
theorem edgeApply_read_other (hwf : s.pix.wf)
    (hfits : fits s dir (s.reg ra).toNat 8 (-(capReach cap + 1)) (capReach cap)) {b : Nat}
    (hb : ∀ j : Nat, j < 8 → ∀ k ∈ kernelWrites cap, (b : Int) ≠ addr s dir (s.reg ra).toNat j k) :
    (edgeApply s ra dir lvl cap).read b = s.pix.read b := by
  refine edgeOp_read_other (cap := cap) hwf fun j hj k hk => ?_
  have hj8 := (mem_segmentLines j).1 hj
  obtain ⟨hlo, hhi⟩ := (mem_capWindow cap k).1 (kernelWrites_subset_capWindow hk)
  exact ne_toNat_of_ne_addr (hfits j k (by omega) (by omega) hlo hhi).1 (hb j hj8 k hk)

end

/-- Settles O43: the 8 lines lie at distinct bytes, so each is filtered as it was before the command. -/
theorem edgeCommandsFilterEachLine : Obligations.EdgeCommandsFilterEachLine := by
  intro s cap ra dir lvl hwf hpitch hvalid hfits
  refine ⟨_, exec_edgeCommand (edgeChecks_pass_iff.2 ⟨hpitch, hvalid, hfits⟩), retireWith_frame _ _, fun j hj hj8 => ?_,
    fun b hb => ?_⟩
  · lift j to Nat using hj
    have hline {k : Int} (hlo : -(capReach cap + 1) ≤ k) (hhi : k ≤ capReach cap) :=
      sample_edgeApply (lvl := lvl) hwf hpitch hfits (by omega : j < 8) ((mem_capWindow cap k).2 ⟨hlo, hhi⟩)
    refine ⟨fun hnone k hlo hhi => ?_, fun K hsome k hlo hhi => ?_⟩
    · rw [hline hlo hhi, filteredLine_none ((lineClass_eq_chosen _ _ _).trans hnone)]
    · rw [hline hlo hhi, filteredLine_some ((lineClass_eq_chosen _ _ _).trans hsome), kernelOut_eq_kernelValue]
      simp only [mem_kernelWrites]
  · rw [retireWith_pix]
    refine edgeApply_read_other hwf hfits fun j hj k hk => ?_
    obtain ⟨hlo, hhi⟩ := (mem_kernelWrites cap k).1 hk
    exact hb j k (by omega) (by omega) hlo hhi

end Sys2Proof.Claims

/-! ## The dispatcher: O45, O46, O47, O44

The checks of a dispatch pass exactly when its edges are ready. Then each edge is also an edge command that completes: its
origin lies in PIXMEM, so it fits a register, and neither its checks nor its thresholds depend on the edges before it
(43_dispatcher.md R187). -/

namespace Sys2Proof.Machine

theorem applyEdges_cons (s : State) (dir : Dir) (e : Edge) (l : List Edge) (m : Memory) :
    applyEdges s dir (e :: l) m = applyEdges s dir l (edgeOp (s.lutAt e.lvl) dir s.pitch e.origin e.cls m) := by
  rw [applyEdges, List.foldl_cons, applyEdges]

/-- The byte frame of a list of edges: a byte at no address that an edge's own class can write. -/
theorem applyEdges_read_other {m : Memory} (hwf : m.wf) {s : State} {dir : Dir} {l : List Edge} {x : Nat}
    (hx : ∀ e ∈ l, ∀ j ∈ segmentLines, ∀ k ∈ kernelWrites e.cls,
      x ≠ (lineOrigin dir s.pitch e.origin j + k * sampleStep dir s.pitch).toNat) :
    (applyEdges s dir l m).read x = m.read x :=
  (applyEdges_induction (P := fun m' => m'.wf ∧ m'.read x = m.read x) ⟨hwf, rfl⟩ fun _ e he ⟨hwf', hread⟩ =>
    ⟨edgeOp_wf hwf' _ _ _ _ _, (edgeOp_read_other hwf' (hx e he)).trans hread⟩).2

end Sys2Proof.Machine

namespace Sys2Proof.Claims

open Sys2Proof.Machine

/-! ### The edge list -/

theorem cols_eq_planeCols (plane : Plane) : cols plane = planeCols plane := by
  cases plane <;> rfl

theorem unitBit_eq_dirMask (s : State) (dir : Dir) (b : Nat) :
    unitBit s dir .ml16 .ma16 b = (dirMask16 s.masks dir).getLsbD b ∧
    unitBit s dir .ml8 .ma8 b = (dirMask8 s.masks dir).getLsbD b ∧
    unitBit s dir .ml4 .ma4 b = (dirMask4 s.masks dir).getLsbD b ∧
    unitBit s dir .ml4i .ma4i b = (dirMask4i s.masks dir).getLsbD b := by
  cases dir <;> exact ⟨rfl, rfl, rfl, rfl⟩

theorem origin_eq_edgeOrigin (s : State) (dir : Dir) (row c off : Nat) :
    origin s dir row c off = edgeOrigin s dir row c off := by
  cases dir with
  | v => simp only [origin, edgeOrigin]; push_cast; rfl
  | h => simp only [origin, edgeOrigin]; push_cast; rfl

/-- The model's edges of a unit are those of the rules: the first mask with the unit's bit gives the boundary class. -/
theorem unitEdges_eq_unitList (s : State) (dir : Dir) (plane : Plane) (row c : Nat) :
    unitEdges s dir plane row c = unitList s dir plane row c := by
  obtain ⟨h16, h8, h4, h4i⟩ := unitBit_eq_dirMask s dir (row * planeCols plane + c)
  simp only [unitEdges, unitList, boundaryClass, cols_eq_planeCols, origin_eq_edgeOrigin, internalOffset, h16, h8, h4, h4i]
  congr 1
  split_ifs <;> rfl

/-- No mask bit of the row set: no unit has an edge. -/
theorem edgeList_eq_nil {s : State} {dir : Dir} {plane : Plane} {row : Nat}
    (h : ∀ c, c < cols plane →
      unitBit s dir .ml16 .ma16 (row * cols plane + c) = false ∧ unitBit s dir .ml8 .ma8 (row * cols plane + c) = false ∧
      unitBit s dir .ml4 .ma4 (row * cols plane + c) = false ∧ unitBit s dir .ml4i .ma4i (row * cols plane + c) = false) :
    edgeList s dir plane row = [] := by
  refine List.flatMap_eq_nil_iff.2 fun c hc => ?_
  obtain ⟨h16, h8, h4, h4i⟩ := h c (by rwa [cols_eq_planeCols, ← List.mem_range])
  simp [unitEdges_eq_unitList, unitList, h16, h8, h4, h4i]

/-! ### The checks -/

section
variable {s : State} {dir : Dir} {plane : Plane} {row : BitVec 3}

/-- The row check of R187 fails for the ill-formed dispatches only (R91). -/
theorem rowCheck_of_wf (hwf : (Instr.dispatch dir plane row).wf = true) :
    (decide (plane = .chroma) && decide (4 ≤ row.toNat)) = false := by
  cases plane with
  | luma => rfl
  | chroma => simpa [Instr.wf] using hwf

theorem edge_footprint_inRange_iff (s : State) (dir : Dir) (e : Edge) :
    inRange s.cfg (e.footprint dir s.pitch) = true ↔ fits s dir e.origin 8 (-(capReach e.cls + 1)) (capReach e.cls) :=
  inRange_footprint_iff_fits (fun j => by rw [mem_segmentLines]; omega) (mem_capWindow e.cls)

/-- The checks of a well-formed dispatch, R186: `PITCH`, and every edge ready. -/
theorem dispatchChecks_pass_iff (hwf : (Instr.dispatch dir plane row).wf = true) :
    firstError (dispatchChecks s dir plane row) = none ↔
      16 ≤ s.pitch.toNat ∧ edgesReady s dir (edgeList s dir plane row.toNat) := by
  simp only [firstError_eq_none_iff, dispatchChecks, rowCheck_of_wf hwf, List.cons_append, List.forall_mem_cons,
    List.forall_mem_append, List.forall_mem_map, pitchCheck_passes_iff, lutCheck, rangeCheck, Bool.not_eq_false',
    edge_footprint_inRange_iff, edgesReady, forall_and, true_and]

/-- With no edge in the list the pitch is all that is checked. -/
theorem firstError_dispatchChecks_of_nil (hwf : (Instr.dispatch dir plane row).wf = true)
    (hnil : edgeList s dir plane row.toNat = []) :
    firstError (dispatchChecks s dir plane row) = firstError [pitchCheck s] := by
  simp [dispatchChecks, hnil, rowCheck_of_wf hwf, firstError_cons]

/-- A dispatch whose checks pass completes with its edges applied to PIXMEM, R187. -/
theorem exec_dispatch (h : firstError (dispatchChecks s dir plane row) = none) :
    exec (.dispatch dir plane row) s = .next (retireWith s (applyEdges s dir (edgeList s dir plane row.toNat) s.pix)) :=
  exec_complete h

end

/-! ### An edge as an edge command -/

/-- The state in which `runEdges` executes an edge: its origin in A0, and in PIXMEM what the edges before it left. -/
def edgeState (s : State) (e : Edge) (m : Memory) : State := { s.setReg 0#3 (BitVec.ofInt 32 e.origin) with pix := m }

section
variable {s : State} {dir : Dir} {e : Edge}

/-- The origin is sample 0 of line 0, so it lies in PIXMEM, which has at most 2^31 bytes (R5). -/
theorem origin_bounds (hlegal : s.cfg.Legal) (hfits : fits s dir e.origin 8 (-(capReach e.cls + 1)) (capReach e.cls)) :
    0 ≤ e.origin ∧ e.origin < 2 ^ 31 := by
  have hreach : 0 ≤ capReach e.cls := by cases e.cls <;> decide
  have haddr : addr s dir e.origin 0 0 = e.origin := by cases dir <;> simp [addr]
  have hin := hfits 0 0 le_rfl (by decide) (by omega) hreach
  rw [haddr] at hin
  obtain ⟨⟨-, hpix⟩, -⟩ := hlegal
  omega

/-- A0 holds the origin, with no bit lost. -/
theorem reg_edgeState (ho : 0 ≤ e.origin ∧ e.origin < 2 ^ 31) (m : Memory) :
    (((edgeState s e m).reg 0#3).toNat : Int) = e.origin := by
  have hreg : (edgeState s e m).reg 0#3 = BitVec.ofInt 32 e.origin := s.reg_setReg_self 0#3 _
  rw [hreg, BitVec.toNat_ofInt]
  omega

/-- A ready edge, executed as a command, leaves the edge operation of the dispatch in PIXMEM. -/
theorem exec_edgeState (hlegal : s.cfg.Legal) (hpitch : 16 ≤ s.pitch.toNat) (hvalid : (s.lutAt e.lvl).valid = true)
    (hfits : fits s dir e.origin 8 (-(capReach e.cls + 1)) (capReach e.cls)) (m : Memory) :
    exec (edgeCommand e.cls 0#3 dir e.lvl) (edgeState s e m) =
      .next (retireWith (edgeState s e m) (edgeOp (s.lutAt e.lvl) dir s.pitch e.origin e.cls m)) := by
  have hreg := reg_edgeState (s := s) (origin_bounds hlegal hfits) m
  have happly : edgeApply (edgeState s e m) 0#3 dir e.lvl e.cls = edgeOp (s.lutAt e.lvl) dir s.pitch e.origin e.cls m := by
    rw [edgeApply, hreg]
    rfl
  have hfits' : fits (edgeState s e m) dir ((edgeState s e m).reg 0#3).toNat 8 (-(capReach e.cls + 1)) (capReach e.cls) := by
    rw [hreg]
    exact hfits
  rw [exec_edgeCommand (s := edgeState s e m) (edgeChecks_pass_iff.2 ⟨hpitch, hvalid, hfits'⟩), happly]

theorem runEdges_cons_of_exec {l : List Edge} {m m' : Memory} (herr : s.status.err = false)
    (h : exec (edgeCommand e.cls 0#3 dir e.lvl) (edgeState s e m) = .next (retireWith (edgeState s e m) m')) :
    runEdges s dir (e :: l) m = runEdges s dir l m' := by
  have herr' : ¬ (retireWith (edgeState s e m) m').status.err = true := Bool.eq_false_iff.1 herr
  rw [edgeState] at h herr'
  rw [runEdges, h]
  exact if_neg herr'

/-- Ready edges executed one by one as commands leave what the dispatch leaves, from any PIXMEM. -/
theorem runEdges_eq_applyEdges (hlegal : s.cfg.Legal) (herr : s.status.err = false) (hpitch : 16 ≤ s.pitch.toNat)
    {l : List Edge} (hready : edgesReady s dir l) (m : Memory) : runEdges s dir l m = some (applyEdges s dir l m) := by
  induction l generalizing m with
  | nil => rfl
  | cons e l ih =>
    obtain ⟨hvalid, hfits⟩ := hready e List.mem_cons_self
    rw [runEdges_cons_of_exec herr (exec_edgeState hlegal hpitch hvalid hfits m), applyEdges_cons]
    exact ih (fun d hd => hready d (List.mem_cons_of_mem e hd)) _

end

/-! ### The statements -/

/-- Settles O45: the checks pass, and the edges executed as commands leave what the dispatch leaves. -/
theorem dispatchIsItsEdgeCommands : Obligations.DispatchIsItsEdgeCommands := fun s _ _ _ hinv herr hpitch hwf hready =>
  ⟨_, exec_dispatch ((dispatchChecks_pass_iff hwf).2 ⟨hpitch, hready⟩), retireWith_frame _ _,
    runEdges_eq_applyEdges hinv.legal herr hpitch hready s.pix⟩

/-- Settles O46: an error entry writes none of these, and each edge keeps the bytes its class cannot write. -/
theorem dispatchFrame : Obligations.DispatchFrame := by
  intro s t dir plane row hwf ht
  rcases exec_cases ht with ⟨code, info, -, rfl⟩ | ⟨-, rfl⟩
  · exact ⟨rfl, rfl, rfl, rfl, rfl, fun _ _ => rfl⟩
  · refine ⟨rfl, rfl, rfl, rfl, rfl, fun a ha => ?_⟩
    rw [completed_dispatch_pix]
    refine applyEdges_read_other hwf fun e he j hj k hk => ?_
    have hj8 := (mem_segmentLines j).1 hj
    obtain ⟨hlo, hhi⟩ := (mem_kernelWrites e.cls k).1 hk
    have hne := ha e he j k (by omega) (by omega) hlo hhi
    rw [lineOrigin_add_eq_addr]
    omega

/-- Settles O47: the edge list is empty, so `PITCH` is the one check and no edge is applied. -/
theorem dispatchOfEmptyRow : Obligations.DispatchOfEmptyRow := by
  intro s dir plane row hwf hmasks
  have hnil := edgeList_eq_nil hmasks
  have hchecks := firstError_dispatchChecks_of_nil hwf hnil
  constructor
  · intro hpitch
    have hpass : (pitchCheck s).1 = false := (pitchCheck_passes_iff s).2 hpitch
    rw [exec_dispatch (hchecks.trans (by simp [firstError_eq_none_iff, hpass])), hnil]
    rfl
  · intro hpitch
    have hfail : (pitchCheck s).1 = true := decide_eq_true hpitch
    exact exec_error (i := .dispatch dir plane row) (hchecks.trans (if_pos hfail))

/-- Settles O44, unit by unit. -/
theorem dispatchEdgeList : Obligations.DispatchEdgeList := by
  intro s dir plane row
  rw [cols_eq_planeCols]
  exact List.flatMap_congr fun c _ => unitEdges_eq_unitList s dir plane row c

end Sys2Proof.Claims

/-! ## The control commands: O14, O25, O22, O23, O26

A completed command counts once, `CSRW CMDCNT` apart. `CSRR` and `CSRW` go through the address of a CSR: the number the
command stream reads there, and the field a write there leaves. -/

namespace Sys2Proof.Machine

/-! ### A mask after a write of one half -/

theorem Masks.toNat_get_setLo (m : Masks) (n : MaskName) (v : Word) :
    ((m.setLo n v).get n).toNat = (m.get n).toNat / 2 ^ 32 * 2 ^ 32 + v.toNat := by
  rw [Masks.setLo, Masks.get_set, if_pos rfl, toNat_fields, toNat_maskHi]

theorem Masks.toNat_get_setHi (m : Masks) (n : MaskName) (v : Word) :
    ((m.setHi n v).get n).toNat = v.toNat * 2 ^ 32 + (m.get n).toNat % 2 ^ 32 := by
  rw [Masks.setHi, Masks.get_set, if_pos rfl, toNat_fields, toNat_maskLo]

theorem Masks.get_setLo_ne (m : Masks) {n n' : MaskName} (v : Word) (h : n' ≠ n) : (m.setLo n v).get n' = m.get n' := by
  rw [Masks.setLo, Masks.get_set, if_neg h]

theorem Masks.get_setHi_ne (m : Masks) {n n' : MaskName} (v : Word) (h : n' ≠ n) : (m.setHi n v).get n' = m.get n' := by
  rw [Masks.setHi, Masks.get_set, if_neg h]

/-! ### The immediates -/

/-- `LIH` puts its immediate above the lower half of the register. -/
theorem toNat_lihWord (imm : BitVec 16) (v : Word) :
    (imm ++ v.extractLsb' 0 16).toNat = imm.toNat * 2 ^ 16 + v.toNat % 2 ^ 16 := by
  rw [toNat_fields, toNat_field, Nat.pow_zero, Nat.div_one]

end Sys2Proof.Machine

namespace Sys2Proof.Claims

open Sys2Proof.Machine

/-! ### `CMDCNT` after a completed command -/

/-- A command that reaches a CSR passes its checks only at an address of the map. -/
theorem exists_csrAddress_of_checks {csr : CsrAddr} {i : Instr} {s : State}
    (hi : (∃ r, i = .csrr r csr) ∨ ∃ r, i = .csrw csr r) (hpass : firstError (checksOf i s) = none) : ∃ c, csr = csrAddress c := by
  refine exists_csrAddress fun hno => ?_
  rcases hi with ⟨r, rfl⟩ | ⟨r, rfl⟩ <;> simp [checksOf, csrAt_eq_none_iff.2 hno, firstError] at hpass

/-- A command that completes counts once, unless it writes `CMDCNT` itself (44_control.md R207). -/
theorem completed_cmdcnt {i : Instr} {s : State} (hpass : firstError (checksOf i s) = none) (hi : ∀ rs, i ≠ .csrw 0x05#8 rs) :
    (completed i s).cmdcnt = s.cmdcnt + 1#32 := by
  cases i with
  | csrr rd csr =>
    obtain ⟨c, rfl⟩ := exists_csrAddress_of_checks (.inl ⟨rd, rfl⟩) hpass
    simp [completed, csrAt_csrAddress]
  | csrw csr rs =>
    obtain ⟨c, rfl⟩ := exists_csrAddress_of_checks (.inr ⟨rs, rfl⟩) hpass
    have hc : c ≠ .cmdcnt := fun h => hi rs (by rw [h, csrAddress])
    simp [completed, csrAt_csrAddress, csrwAfter_eq, hc]
  | _ => simp [completed]

/-! ### What `CSRR` reads -/

theorem toNat_streamStatus (s : State) : s.streamStatus.toNat = s.status.done.toNat + 4 :=
  toNat_statusBits _ _ _ _

theorem not_noCsr_of_mem_csrReads {s : State} {a : CsrAddr} {v : Nat} (h : (a, v) ∈ csrReads s) : ¬ noCsr a := by
  have haddr : a ∈ (csrReads s).map Prod.fst := List.mem_map_of_mem h
  have hmap : ∀ b ∈ (csrReads s).map Prod.fst, ¬ noCsr b := by
    simp [csrReads, noCsr]
  exact hmap a haddr

theorem eq_of_mem_csrReads_status {s : State} {v : Nat} (h : (0x02#8, v) ∈ csrReads s) : v = s.status.done.toNat + 4 := by
  simpa [csrReads] using h

/-- The numbers of `csrReads` are those of the CSRs at the listed addresses, as the command stream sees them. -/
theorem exists_csrValue_of_mem_csrReads {s : State} (hlegal : s.cfg.Legal) (hroom : s.cmdq.length ≤ s.cfg.cmdqDepth)
    {a : CsrAddr} {v : Nat} (h : (a, v) ∈ csrReads s) :
    ∃ c, a = csrAddress c ∧ (s.csrValue s.streamStatus c).toNat = v := by
  obtain ⟨c, rfl⟩ := exists_csrAddress (not_noCsr_of_mem_csrReads h)
  refine ⟨c, rfl, ?_⟩
  by_cases hc : c = .status
  · subst hc
    rw [eq_of_mem_csrReads_status h]
    exact toNat_streamStatus s
  · have haddr : csrAddress c ≠ 0x02#8 := fun he => hc (csrAddress_inj (c' := .status).1 he)
    rw [s.csrValue_view _ s.hostStatus hc, ← hostCsrRead_csrAddress]
    exact toNat_hostCsrRead hlegal hroom _ h haddr

/-! ### What `CSRW` leaves -/

/-- A command that completes by writing one mask: the number there, the other masks, and the frame. -/
theorem exec_writes_mask {i : Instr} {s : State} {masks : Masks} {m : MaskName} {n : Nat}
    (h : exec i s = .next { s with masks := masks, cmdcnt := s.cmdcnt + 1#32 }) (hm : (masks.get m).toNat = n)
    (hothers : ∀ m', m' ≠ m → masks.get m' = s.masks.get m') :
    ∃ t, exec i s = .next t ∧ (t.masks.get m).toNat = n ∧ (∀ m', m' ≠ m → t.masks.get m' = s.masks.get m') ∧
      t = { s with masks := t.masks, cmdcnt := s.cmdcnt + 1#32 } :=
  ⟨_, h, hm, hothers, rfl⟩

/-! ### The statements -/

/-- Settles O14: an error entry keeps `CMDCNT`; a completed command keeps `ERR` at 0, and either counts or writes `CMDCNT`. -/
theorem commandCounts : Obligations.CommandCounts := by
  intro i s herr
  obtain ⟨t, ht⟩ := exec_next i s
  refine ⟨t, ht, ?_⟩
  rcases exec_cases ht with ⟨code, info, -, rfl⟩ | ⟨hpass, rfl⟩
  · exact .inl ⟨rfl, rfl⟩
  · obtain ⟨-, -, hkept, -⟩ := completed_keeps_errors i s
    by_cases hi : ∃ rs, i = .csrw 0x05#8 rs
    · obtain ⟨rs, rfl⟩ := hi
      exact .inr (.inr ⟨hkept herr, rs, rfl, rfl⟩)
    · have hother : ∀ rs, i ≠ .csrw 0x05#8 rs := fun rs he => hi ⟨rs, he⟩
      refine .inr (.inl ⟨hkept herr, hother, ?_⟩)
      rw [completed_cmdcnt hpass hother, BitVec.toNat_add]
      rfl

/-- Settles O25: the listed address is that of a CSR, and `CSRR` of it writes its value to `x[rd]`. -/
theorem csrrReadsTheMap : Obligations.CsrrReadsTheMap := by
  intro s rd a v hlegal hroom hmem
  obtain ⟨c, rfl, hv⟩ := exists_csrValue_of_mem_csrReads hlegal hroom hmem
  exact exec_writes_reg (exec_csrr_csrAddress s rd c) hv

/-- Settles O22: none of the three makes a check. -/
theorem controlCommandsComplete : Obligations.ControlCommandsComplete := fun _ _ =>
  ⟨exec_complete (i := .nop) rfl, exec_complete (i := .pref _) rfl, exec_complete (i := .done) rfl⟩

/-- Settles O23: both write one register, `LI` a zero-extended immediate, `LIH` the immediate above the old lower half. -/
theorem immediateCommands : Obligations.ImmediateCommands := fun s rd imm =>
  ⟨exec_writes_reg (exec_complete rfl) (BitVec.toNat_setWidth_of_le (by decide)),
    exec_writes_reg (exec_complete rfl) (toNat_lihWord imm (s.reg rd))⟩

/-- Settles O26, by the kind of CSR: `CTRL`, `STATUS`, `PITCH`, `SBBASE`, `CMDCNT`, and the two halves of a mask. -/
theorem csrwWritesTheMap : Obligations.CsrwWritesTheMap := by
  intro s rs
  have hcsrw {c : Csr} (hc : c.readOnly = false) := exec_csrw_csrAddress s hc rs
  refine ⟨hcsrw (c := .ctrl) rfl, (hcsrw (c := .status) rfl).trans ?_, (hcsrw (c := .pitch) rfl).trans ?_,
    hcsrw (c := .sbbase) rfl, hcsrw (c := .cmdcnt) rfl, fun m => ?_, fun m => ?_⟩
  · simp only [State.writeCsr, State.writeStatus_eq]
    cases (s.reg rs).getLsbD 0 <;> cases (s.reg rs).getLsbD 1 <;> simp
  · have hpitch : (s.reg rs).extractLsb' 0 16 = BitVec.ofNat 16 ((s.reg rs).toNat % 2 ^ 16) :=
      BitVec.eq_of_toNat_eq (by simp)
    simp [State.writeCsr, hpitch]
  · exact exec_writes_mask (hcsrw (c := .maskLo m) rfl) (s.masks.toNat_get_setLo m _) fun n hn => s.masks.get_setLo_ne _ hn
  · exact exec_writes_mask (hcsrw (c := .maskHi m) rfl) (s.masks.toNat_get_setHi m _) fun n hn => s.masks.get_setHi_ne _ hn

end Sys2Proof.Claims

/-! ## Errors: O5, O13, O18, O19, O20, O7, O21, O53, O54

Which error a command raises is a fact about its list of checks, whose order is the priority of 60_exceptions.md R228: the
first failing check decides, and where all failing checks name one error it is that one. The host's part, the return from an
error and the flush, is a write of `STATUS` or `CTRL`. -/

namespace Sys2Proof.Machine

/-! ### The first failing check -/

theorem firstError_cons_pass {c : Check} (h : c.1 = false) (l : List Check) : firstError (c :: l) = firstError l := by
  simp [firstError_cons, h]

theorem firstError_cons_fail {c : Check} (h : c.1 = true) (l : List Check) : firstError (c :: l) = some c.2 := by
  rw [firstError_cons, if_pos h]

theorem firstError_append_pass {pre : List Check} (h : ∀ c ∈ pre, c.1 = false) (l : List Check) :
    firstError (pre ++ l) = firstError l := by
  induction pre with
  | nil => rfl
  | cons c pre ih =>
    obtain ⟨hc, hpre⟩ := List.forall_mem_cons.1 h
    rw [List.cons_append, firstError_cons_pass hc, ih hpre]

theorem mem_of_firstError {l : List Check} {e : ErrCode × Word} (h : firstError l = some e) : (true, e) ∈ l := by
  obtain ⟨pre, post, rfl, -⟩ := (firstError_eq_some_iff l e).1 h
  simp

/-- Where all failing checks name one error, that is the error. -/
theorem firstError_eq_of_failing {l : List Check} {e : ErrCode × Word} (hfail : firstError l ≠ none)
    (h : ∀ c ∈ l, c.1 = true → c.2 = e) : firstError l = some e := by
  obtain ⟨e', he'⟩ := Option.ne_none_iff_exists'.1 hfail
  rw [he', ← h _ (mem_of_firstError he') rfl]

theorem pitchCheck_fails {s : State} (h : s.pitch.toNat < 16) : (pitchCheck s).1 = true := decide_eq_true h

theorem lutCheck_fails {s : State} {l : Level} (h : (s.lutAt l).valid = false) : (lutCheck s l).1 = true := by
  simp [lutCheck, h]

theorem lutCheck_passes {s : State} {l : Level} (h : (s.lutAt l).valid = true) : (lutCheck s l).1 = false := by
  simp [lutCheck, h]

end Sys2Proof.Machine

namespace Sys2Proof.Claims

open Sys2Proof.Machine

/-- A command raises the error of its first failing check. -/
theorem exec_raises {i : Instr} {s : State} {code : ErrCode} {info : Word}
    (h : firstError (checksOf i s) = some (code, info)) : exec i s = .next (raised s (encode i) code.code info) :=
  exec_error h

/-! ### A word at the head of the queue -/

theorem setWidth_opcOf (w : Word) : (opcOf w).setWidth 32 = BitVec.ofNat 32 (opcode w) := by
  rw [← toNat_opcOf, BitVec.ofNat_toNat]

/-- A word that leaves a running block halted has entered one error, and written nothing else. -/
theorem runWord_halts {w : Word} {s t : State} (he : s.status.err = false) (ht : runWord w s = .next t)
    (hhalt : t.status.err = true) : ∃ code info, t = s.enterError w code info := by
  cases hd : decode w with
  | reject why =>
    cases (runWord_reject s hd).symm.trans ht
    exact ⟨_, _, rfl⟩
  | command i =>
    obtain ⟨hw, -⟩ := encodeOfDecode w i hd
    rcases exec_cases ((runWord_command s hd).symm.trans ht) with ⟨code, info, -, rfl⟩ | ⟨-, rfl⟩
    · exact ⟨code, info, by rw [hw]⟩
    · obtain ⟨-, -, hkept, -⟩ := completed_keeps_errors i s
      rw [hkept he] at hhalt
      cases hhalt

/-! ### The checks of the pixel commands -/

/-- The pitch is the first thing that a pixel command checks, after the row that decoding has already checked. -/
theorem firstError_of_low_pitch {i : Instr} {s : State} (hi : isPixel i = true) (hwf : i.wf = true)
    (hpitch : s.pitch.toNat < 16) : firstError (checksOf i s) = some (.pitch, s.pitch.setWidth 32) := by
  have hfail := pitchCheck_fails hpitch
  cases i with
  | cls | k4 | k8 | k16 | lpf4 | lpf8 | lpf16 => exact firstError_cons_fail hfail _
  | dispatch dir plane row => exact (firstError_cons_pass (rowCheck_of_wf hwf) _).trans (firstError_cons_fail hfail _)
  | _ => cases hi

/-- The levels come after the pitch. -/
theorem firstError_of_invalid_level {s : State} {l : Level} (hpitch : 16 ≤ s.pitch.toNat)
    (hvalid : (s.lutAt l).valid = false) (rest : List Check) :
    firstError (pitchCheck s :: lutCheck s l :: rest) = some (.lut, l.setWidth 32) := by
  rw [firstError_cons_pass ((pitchCheck_passes_iff s).2 hpitch), firstError_cons_fail (lutCheck_fails hvalid)]
  rfl

section
variable {s : State} {dir : Dir} {plane : Plane} {row : BitVec 3}

/-- With a legal pitch a dispatch checks the levels of its edges, then their footprints. -/
theorem firstError_dispatchChecks (hwf : (Instr.dispatch dir plane row).wf = true) (hpitch : 16 ≤ s.pitch.toNat) :
    firstError (dispatchChecks s dir plane row) =
      firstError ((edgeList s dir plane row.toNat).map (fun e => lutCheck s e.lvl) ++
        (edgeList s dir plane row.toNat).map (fun e => rangeCheck s s.sbbase (e.footprint dir s.pitch))) :=
  (firstError_cons_pass (rowCheck_of_wf hwf) _).trans (firstError_cons_pass ((pitchCheck_passes_iff s).2 hpitch) _)

/-- The first edge in list order with an invalid level decides. -/
theorem firstError_dispatchChecks_of_invalid_level (hwf : (Instr.dispatch dir plane row).wf = true)
    (hpitch : 16 ≤ s.pitch.toNat) {pre post : List Edge} {e : Edge}
    (hlist : edgeList s dir plane row.toNat = pre ++ e :: post)
    (hpre : ∀ d ∈ pre, (s.lutAt d.lvl).valid = true) (hvalid : (s.lutAt e.lvl).valid = false) :
    firstError (dispatchChecks s dir plane row) = some (.lut, e.lvl.setWidth 32) := by
  have hpass : ∀ c ∈ pre.map (fun d => lutCheck s d.lvl), c.1 = false :=
    List.forall_mem_map.2 fun d hd => lutCheck_passes (hpre d hd)
  rw [firstError_dispatchChecks hwf hpitch, hlist, List.map_append, List.append_assoc, firstError_append_pass hpass,
    List.map_cons, List.cons_append, firstError_cons_fail (lutCheck_fails hvalid)]
  rfl

/-- With valid levels only footprints can fail, and all of them have one base operand. -/
theorem firstError_dispatchChecks_of_footprint (hwf : (Instr.dispatch dir plane row).wf = true)
    (hpitch : 16 ≤ s.pitch.toNat) (hvalid : ∀ e ∈ edgeList s dir plane row.toNat, (s.lutAt e.lvl).valid = true)
    (hfail : firstError (dispatchChecks s dir plane row) ≠ none) :
    firstError (dispatchChecks s dir plane row) = some (.range, s.sbbase) := by
  have hpass : ∀ c ∈ (edgeList s dir plane row.toNat).map (fun e => lutCheck s e.lvl), c.1 = false :=
    List.forall_mem_map.2 fun e he => lutCheck_passes (hvalid e he)
  rw [firstError_dispatchChecks hwf hpitch, firstError_append_pass hpass] at hfail ⊢
  exact firstError_eq_of_failing hfail (List.forall_mem_map.2 fun _ _ _ => rfl)

end

/-- With a legal pitch a raw kernel can only fail its footprint. -/
theorem firstError_rawChecks_of_footprint {s : State} {ra : Reg} {dir : Dir} {window : List Int}
    (hpitch : 16 ≤ s.pitch.toNat) (hfail : firstError (rawChecks s ra dir window) ≠ none) :
    firstError (rawChecks s ra dir window) = some (.range, s.reg ra) := by
  rw [rawChecks, firstError_cons_pass ((pitchCheck_passes_iff s).2 hpitch)] at hfail ⊢
  exact firstError_eq_of_failing hfail (List.forall_mem_singleton.2 fun _ => rfl)

/-- With a legal pitch and a valid level only the footprint can fail. -/
theorem firstError_of_footprint {s : State} {l : Level} {base : Word} {fp : List Int} (hpitch : 16 ≤ s.pitch.toNat)
    (hvalid : (s.lutAt l).valid = true)
    (hfail : firstError [pitchCheck s, lutCheck s l, rangeCheck s base fp] ≠ none) :
    firstError [pitchCheck s, lutCheck s l, rangeCheck s base fp] = some (.range, base) := by
  rw [firstError_cons_pass ((pitchCheck_passes_iff s).2 hpitch), firstError_cons_pass (lutCheck_passes hvalid)] at hfail ⊢
  exact firstError_eq_of_failing hfail (List.forall_mem_singleton.2 fun _ => rfl)

/-- R227 for the raw kernel command of any kernel. -/
theorem rawCommand_raises_range {s : State} {c : Kernel} {ra : Reg} {dir : Dir} (m h : Bool) (hpitch : 16 ≤ s.pitch.toNat)
    (hout : ¬ fits s dir (s.reg ra).toNat 1 (-(rawReach c + 1)) (rawReach c)) :
    exec (rawCommand c ra dir m h) s = .next (raised s (encode (rawCommand c ra dir m h)) 3#8 (s.reg ra)) := by
  refine exec_raises (code := .range) ?_
  rw [checksOf_rawCommand]
  exact firstError_rawChecks_of_footprint hpitch (mt rawChecks_pass_iff.1 fun ⟨_, hfits⟩ => hout hfits)

/-- No check of a raw kernel is that of a level. -/
theorem rawChecks_not_lut {s : State} {ra : Reg} {dir : Dir} {window : List Int} {code : ErrCode} {info : Word}
    (h : firstError (rawChecks s ra dir window) = some (code, info)) : code ≠ .lut := by
  have hmem := mem_of_firstError h
  rintro rfl
  simp [rawChecks, pitchCheck, rangeCheck] at hmem

/-- A raw kernel leaves no `E_LUT`: it enters another error, or completes and keeps the record. -/
theorem rawCommand_errcode {s t : State} {c : Kernel} {ra : Reg} {dir : Dir} {m h : Bool} (hcode : s.status.errcode = 0#8)
    (ht : exec (rawCommand c ra dir m h) s = .next t) : t.status.errcode ≠ 4#8 := by
  rcases exec_cases ht with ⟨code, info, herr, rfl⟩ | ⟨-, rfl⟩
  · rw [checksOf_rawCommand] at herr
    have hne := rawChecks_not_lut herr
    cases code with
    | lut => exact absurd rfl hne
    | illegal | csr | range | pitch => simp [ErrCode.code]
  · obtain ⟨-, -, -, hkept⟩ := completed_keeps_errors (rawCommand c ra dir m h) s
    rw [hkept hcode]
    decide

/-! ### The checks of the CSR commands -/

/-- Both CSR commands check that the address names a CSR. -/
theorem checksOf_of_noCsr (s : State) (r : Reg) {a : CsrAddr} (h : noCsr a) :
    checksOf (.csrr r a) s = [(true, .csr, a.setWidth 32)] ∧ checksOf (.csrw a r) s = [(true, .csr, a.setWidth 32)] := by
  simp [checksOf, csrAt_eq_none_iff.2 h]

theorem not_noCsr_of_mem_readOnlyAddrs : ∀ a ∈ readOnlyAddrs, ¬ noCsr a := by
  simp [readOnlyAddrs, noCsr]

theorem checksOf_csrw_readOnly (s : State) (r : Reg) {a : CsrAddr} (h : a ∈ readOnlyAddrs) :
    checksOf (.csrw a r) s = [(true, .csr, a.setWidth 32)] := by
  obtain ⟨c, rfl⟩ := exists_csrAddress (not_noCsr_of_mem_readOnlyAddrs a h)
  simp [checksOf, csrAt_csrAddress, (csrAddress_mem_readOnlyAddrs c).1 h]

/-! ### The host's writes of `STATUS` and `CTRL` -/

/-- A host write of `STATUS` on the state whose move is gone. -/
theorem step_writeStatus {s : State} {v : Word} {rest : List Move} (h : s.pending = .csrWrite 0x02#8 v :: rest) :
    step s = .next ({ s with pending := rest }.writeStatus v) :=
  step_csrWrite_csrAddress (c := .status) h

/-- A host write of `CTRL` on the state whose move is gone. -/
theorem step_writeCtrl {s : State} {v : Word} {rest : List Move} (h : s.pending = .csrWrite 0x01#8 v :: rest) :
    step s = .next ({ s with pending := rest }.writeCtrl v) :=
  step_csrWrite_csrAddress (c := .ctrl) h

/-- A host write of `STATUS` with bit 1 set is the return from an error, 60_exceptions.md R229. -/
theorem step_clears_error {s : State} {v : Word} {rest : List Move} (h : s.pending = .csrWrite 0x02#8 v :: rest)
    (hbit : v.getLsbD 1 = true) :
    ∃ t, step s = .next t ∧ t.status.err = false ∧ t.status.errcode = 0#8 ∧
      t = { s with status := t.status, pending := rest } := by
  have hstep := step_writeStatus h
  rw [State.writeStatus_eq, hbit] at hstep
  exact ⟨_, hstep, Bool.and_false _, rfl, rfl⟩

/-- A host write of `STATUS` with bit 1 clear keeps the error. -/
theorem step_keeps_error {s : State} {v : Word} {rest : List Move} (h : s.pending = .csrWrite 0x02#8 v :: rest)
    (hbit : v.getLsbD 1 = false) :
    ∃ t, step s = .next t ∧ t.status.err = s.status.err ∧ t.status.errcode = s.status.errcode ∧
      t = { s with status := t.status, pending := rest } := by
  have hstep := step_writeStatus h
  rw [State.writeStatus_eq, hbit] at hstep
  exact ⟨_, hstep, Bool.and_true _, rfl, rfl⟩

theorem busy_of_headIs {s : State} {w : Word} {rest : List Word} (h : headIs s w rest) : s.busy = true := by
  obtain ⟨he, hq⟩ := h
  simp [State.busy, he, hq]

theorem busy_of_idle {s : State} (h : s.cmdq = []) : s.busy = false := by
  simp [State.busy, h]

/-! ### The statements -/

/-- Settles O5: the word leaves the queue, and decoding refuses it. -/
theorem illegalWordRaises : Obligations.IllegalWordRaises := by
  rintro s moves w rest hturn ⟨he, hq⟩ hillegal
  obtain ⟨why, hd⟩ := (decodeRefusesExactlyTheIllegalWords w).2 hillegal
  rw [step_of_blockIsNext hturn, blockTurn_head (s := { s with pending := moves }) he hq, runWord_reject _ hd,
    setWidth_opcOf]
  rfl

/-- Settles O13: a step that halts the block is an error entry, and a halted block waits. -/
theorem errorsArePrecise : Obligations.ErrorsArePrecise := by
  rintro s t w rest hidle ⟨he, hq⟩ ht hhalt
  have hrun : runWord w { s with cmdq := rest } = .next t := by rw [← blockTurn_head he hq, ← step_block hidle, ht]
  obtain ⟨code, info, hentry⟩ := runWord_halts (s := { s with cmdq := rest }) he hrun hhalt
  obtain ⟨hlo, hhi⟩ := code.code_bounds
  have hidle' : t.pending = [] := (congrArg State.pending hentry).trans hidle
  have hwaits : step t = .next t := (step_block hidle').trans (blockTurn_waiting (.inr hhalt))
  subst hentry
  exact ⟨rfl, hlo, hhi, hwaits⟩

/-- Settles O18: the pitch is checked first. -/
theorem pitchBelow16Raises : Obligations.PitchBelow16Raises := fun _ _ hi hwf hpitch =>
  exec_raises (firstError_of_low_pitch hi hwf hpitch)

/-- Settles O19: the level is the first check that can fail, and the raw kernels check none. -/
theorem invalidLevelRaises : Obligations.InvalidLevelRaises := by
  refine ⟨fun s rd l hvalid => ?_, fun s i rd ra dir wide l hpitch hvalid hi => ?_,
    fun s dir plane row pre post e hpitch hwf hlist hpre hvalid => ?_, fun s t i ra dir m h hcode hi ht => ?_⟩
  · exact exec_raises (i := .lutr rd l) (firstError_cons_fail (lutCheck_fails hvalid) [])
  · refine exec_raises (code := .lut) ?_
    rcases hi with rfl | rfl | rfl | rfl <;> exact firstError_of_invalid_level hpitch hvalid _
  · exact exec_raises (i := .dispatch dir plane row)
      (firstError_dispatchChecks_of_invalid_level hwf hpitch hlist hpre hvalid)
  · rcases hi with rfl | rfl | rfl
    · exact rawCommand_errcode (c := .f4) hcode ht
    · exact rawCommand_errcode (c := .f8) (m := m) (h := h) hcode ht
    · exact rawCommand_errcode (c := .f16) (m := m) (h := h) hcode ht

/-- Settles O20: the checks do not all pass, and the footprint's is the only one that can fail. -/
theorem footprintOutsideRaises : Obligations.FootprintOutsideRaises := by
  refine ⟨fun s rd ra dir wide l hpitch hvalid hout => ?_, fun s i ra dir m h lo hi hpitch hout hcases => ?_,
    fun s cap ra dir l hpitch hvalid hout => ?_, fun s dir plane row hpitch hwf hvalid hout => ?_⟩
  · exact exec_raises (i := .cls rd ra dir wide l) (firstError_of_footprint hpitch hvalid
      (mt (cls_checks_pass_iff s rd ra dir wide l).1 fun ⟨_, _, hfits⟩ => hout hfits))
  · rcases hcases with ⟨rfl, rfl, rfl⟩ | ⟨rfl, rfl, rfl⟩ | ⟨rfl, rfl, rfl⟩
    · exact rawCommand_raises_range (c := .f4) m h hpitch hout
    · exact rawCommand_raises_range (c := .f8) m h hpitch hout
    · exact rawCommand_raises_range (c := .f16) m h hpitch hout
  · refine exec_raises (code := .range) ?_
    rw [checksOf_edgeCommand]
    exact firstError_of_footprint hpitch hvalid (mt edgeChecks_pass_iff.1 fun ⟨_, _, hfits⟩ => hout hfits)
  · obtain ⟨e, he, hnofit⟩ := hout
    exact exec_raises (i := .dispatch dir plane row) (firstError_dispatchChecks_of_footprint hwf hpitch hvalid
      (mt (dispatchChecks_pass_iff hwf).1 fun ⟨_, hready⟩ => hnofit (hready e he).2))

/-- Settles O7: a waiting block's turn, a push to an empty queue, and a write of `STATUS` with bit 1 set. -/
theorem waitingBlockKeepsState : Obligations.WaitingBlockKeepsState := by
  refine ⟨fun s moves hturn hwait => ?_, fun s w moves hq he hdepth hp => ?_, fun s w rest moves hq he hp => ?_⟩
  · exact (step_of_blockIsNext hturn).trans (blockTurn_waiting (s := { s with pending := moves }) hwait)
  · have hstep := step_push_room (m := .push w) (w := w) (fun _ => rfl) hp (by rw [hq]; exact hdepth)
    have hhead : headIs { s with cmdq := s.cmdq ++ [w], pending := moves } w [] := ⟨he, by simp [hq]⟩
    exact ⟨_, hstep, rfl, hhead, busy_of_headIs hhead⟩
  · obtain ⟨t, ht, hclear, -, hframe⟩ := step_clears_error hp (by decide)
    have hhead : headIs t w rest := ⟨hclear, (congrArg State.cmdq hframe).trans hq⟩
    exact ⟨t, ht, congrArg State.pending hframe, hhead, busy_of_headIs hhead⟩

/-- Settles O21: the one check of the command fails. -/
theorem csrErrors : Obligations.CsrErrors := by
  refine ⟨fun s r a h => ?_, fun s r a h => ?_⟩
  · obtain ⟨hread, hwrite⟩ := checksOf_of_noCsr s r h
    exact ⟨exec_raises (code := .csr) (congrArg firstError hread), exec_raises (code := .csr) (congrArg firstError hwrite)⟩
  · exact exec_raises (code := .csr) (congrArg firstError (checksOf_csrw_readOnly s r h))

/-- Settles O53: bit 1 alone decides, and a cleared block runs the head of its queue. -/
theorem returnFromError : Obligations.ReturnFromError := by
  refine fun s v rest herr hp => ⟨fun hbit => ?_, fun hbit => ?_⟩
  · obtain ⟨t, ht, hclear, hcode, hframe⟩ := step_clears_error hp hbit
    refine ⟨t, ht, hclear, hcode, hframe, ?_⟩
    rintro w q i rfl hq hd
    have hidle : t.pending = [] := congrArg State.pending hframe
    have hqt : t.cmdq = w :: q := (congrArg State.cmdq hframe).trans hq
    rw [step_block hidle, blockTurn_head hclear hqt, runWord_command _ hd]
  · obtain ⟨t, ht, hkept, hcode, hframe⟩ := step_keeps_error hp hbit
    exact ⟨t, ht, hkept.trans herr, hcode, hframe⟩

/-- Settles O54: the flush empties the queue, and the return from the error leaves it empty. -/
theorem flushDuringHalt : Obligations.FlushDuringHalt := by
  intro s v u _ hflush hbit hp
  have hctrl := step_writeCtrl hp
  obtain ⟨t, ht, hclear, -, hframe⟩ :=
    step_clears_error (s := { s with pending := [.csrWrite 0x02#8 u] }.writeCtrl v) rfl hbit
  have hempty : t.cmdq = [] := (congrArg State.cmdq hframe).trans (if_pos hflush)
  have hidle : t.pending = [] := congrArg State.pending hframe
  exact ⟨t, (run_succ hctrl 1).trans (run_succ ht 0), hempty, hclear, busy_of_idle hempty,
    (step_block hidle).trans (blockTurn_waiting (.inl hempty))⟩

end Sys2Proof.Claims

/-! ## Reset, the turns that are refused, and the queue: O10, O12, O16, O9, O11, O55

What a host reads after reset is what it reads from `resetWith`, whatever moves stay pending. A PIXMEM is the content of some
reset because its own cells, written in order, give it back. The only turn that can be refused is a `pixAccess`. -/

namespace Sys2Proof.Machine

/-! ### A PIXMEM from its own cells -/

/-- A byte written behind all listed ones goes to the end of the list. -/
theorem Memory.write_behind {m : Memory} {a : Nat} {v : Byte} (hlt : ∀ d ∈ m, d.1 < a) (hv : v ≠ Memory.unlisted) :
    m.write a v = m ++ [(a, v)] := by
  induction m with
  | nil => exact if_neg hv
  | cons d m ih =>
    obtain ⟨hd, hm⟩ := List.forall_mem_cons.1 hlt
    rw [Memory.write, if_neg hd.le.not_gt, if_neg hd.ne', ih hm, List.cons_append]

/-- The last cell is written last. -/
theorem Memory.ofCells_concat (n : Nat) (cells : List Host.Cell) (c : Host.Cell) :
    Memory.ofCells n (cells ++ [c]) =
      if c.1 < n then (Memory.ofCells n cells).write c.1 c.2 else Memory.ofCells n cells := by
  rw [Memory.ofCells, List.foldl_append]
  rfl

/-- A PIXMEM of `n` bytes is the content of a reset with its own cells: in canonical form, each goes behind the ones before. -/
theorem Memory.ofCells_self {n : Nat} {m : Memory} (hwf : m.wf) (hin : ∀ c ∈ m, c.1 < n) : Memory.ofCells n m = m := by
  induction m using List.reverseRecOn with
  | nil => rfl
  | append_singleton m c ih =>
    obtain ⟨hsorted, hbytes⟩ := hwf
    obtain ⟨hinit, -, hlt⟩ := List.pairwise_append.1 hsorted
    simp only [List.forall_mem_append, List.forall_mem_singleton] at hbytes hin hlt
    rw [Memory.ofCells_concat, if_pos hin.2, ih ⟨hinit, hbytes.1⟩ hin.1, Memory.write_behind hlt hbytes.2]

/-! ### The turns that are refused -/

theorem State.busy_iff (s : State) : s.busy = true ↔ s.cmdq ≠ [] ∧ s.status.err = false := by
  simp [State.busy]

/-- An access of the host to PIXMEM is done, or is refused by a busy block. -/
theorem pixAccess_cases (s after : State) :
    pixAccess s after = .next after ∨ (pixAccess s after = .refused .hostPixWhileBusy ∧ s.busy = true) := by
  cases h : s.busy with
  | true => exact .inr ⟨pixAccess_busy h after, rfl⟩
  | false => exact .inl (pixAccess_notBusy h after)

/-- The turn of a push always answers a next state. -/
theorem pushTurn_next (w : Word) (rest : List Move) (s : State) : ∃ t, pushTurn w rest s = .next t := by
  rcases Nat.lt_or_ge s.cmdq.length s.cfg.cmdqDepth with hroom | hfull
  · exact ⟨_, pushTurn_room hroom w rest⟩
  · rw [pushTurn_full hfull]
    exact blockTurn_next s

/-- A host move that accesses PIXMEM. -/
def Move.accessesPix (m : Move) : Prop := (∃ a, m = .pixRead a) ∨ ∃ a v, m = .pixWrite a v

/-- Everything the turn of a move can answer: a next state, or the refusal of an access to PIXMEM of a busy block. -/
theorem moveTurn_cases (m : Move) (rest : List Move) (s : State) :
    (∃ t, moveTurn m rest s = .next t) ∨
      (moveTurn m rest s = .refused .hostPixWhileBusy ∧ s.busy = true ∧ m.accessesPix) := by
  cases m with
  | block => exact .inl (blockTurn_next _)
  | push w => exact .inl (pushTurn_next w rest s)
  | pushBytes b0 b1 b2 b3 => exact .inl (pushTurn_next _ rest s)
  | csrRead a => exact .inl ⟨_, rfl⟩
  | csrWrite a v => exact .inl ⟨_, rfl⟩
  | pixRead a =>
    exact (pixAccess_cases s _).imp (fun h => ⟨_, h⟩) fun ⟨h, hbusy⟩ => ⟨h, hbusy, .inl ⟨a, rfl⟩⟩
  | pixWrite a v =>
    exact (pixAccess_cases s _).imp (fun h => ⟨_, h⟩) fun ⟨h, hbusy⟩ => ⟨h, hbusy, .inr ⟨a, v, rfl⟩⟩
  | reset content => exact .inl ⟨_, rfl⟩

/-! ### A run of block turns -/

/-- Each turn of a running block takes a word, and a waiting block keeps its state. -/
theorem run_drains (n : Nat) {s : State} (hidle : s.pending = []) (hlen : s.cmdq.length ≤ n) :
    ∃ t, Host.Core.run core n s = .next t ∧ t.pending = [] ∧ (t.cmdq = [] ∨ t.status.err = true) := by
  induction n generalizing s with
  | zero => exact ⟨s, run_zero s, hidle, .inl (List.eq_nil_of_length_eq_zero (Nat.le_zero.1 hlen))⟩
  | succ n ih =>
    by_cases hwait : s.cmdq = [] ∨ s.status.err = true
    · exact ⟨s, run_stutter ((step_block hidle).trans (blockTurn_waiting hwait)) _, hidle, hwait⟩
    · obtain ⟨hq, he⟩ := not_or.1 hwait
      obtain ⟨u, hu, hpending, -, hshorter⟩ := blockTurn_takes (Bool.eq_false_of_not_eq_true he) hq
      rw [run_succ ((step_block hidle).trans hu)]
      exact ih (hpending.trans hidle) (by omega)

/-! ### Reset -/

/-- The move of a reset, 70_reset_and_hazards.md R253: one step. -/
theorem step_reset {s : State} {content : List Host.Cell} {rest : List Move} (h : s.pending = .reset content :: rest) :
    step s = .next { State.resetWith s.cfg (Memory.ofCells s.cfg.pixBytes content) with pending := rest } :=
  step_move h

/-- The invariant holds after reset when PIXMEM is canonical and inside its bounds. -/
theorem State.resetWith_inv {c : Config} {pix : Memory} (hlegal : c.Legal) (hpix : pix.Fits c.pixBytes) :
    (State.resetWith c pix).Inv where
  legal := hlegal
  queue := Nat.zero_le _
  canonical := hpix.1
  inside := hpix.2
  errcode := by simp [State.resetWith]
  codes := by simp [State.resetWith]

end Sys2Proof.Machine

namespace Sys2Proof.Claims

open Sys2Proof.Machine

/-- The reset values of 70_reset_and_hazards.md R251, with the parameters in `QSTAT` and `PIXSIZE`; the pending moves and the
bytes of PIXMEM show in none of them. -/
theorem resetValues_resetWith {c : Config} (hlegal : c.Legal) (pix : Memory) (moves : List Move) :
    ResetValues { State.resetWith c pix with pending := moves } where
  regs r := by simp [State.reg, State.resetWith]
  queue := rfl
  ctrl := BitVec.eq_of_toNat_eq (toNat_ctrlWord _)
  status := BitVec.eq_of_toNat_eq (toNat_hostStatus _)
  id := rfl
  pitch := rfl
  sbbase := rfl
  cmdcnt := rfl
  errcmd := rfl
  errinfo := rfl
  qstat := (toNat_qstatWord hlegal (Nat.zero_le _)).trans ((Nat.zero_add _).trans (Nat.mul_comm _ _))
  pixsize := toNat_hostCsrRead hlegal (Nat.zero_le _) (0x09#8, c.pixBytes) (by simp [csrReads, State.resetWith]) (by simp)
  masks m := by cases m <;> rfl
  lut l := by simp [State.lutAt, State.resetWith]
  lvltab l := by simp [State.lvltabAt, State.resetWith]
  lvlu n hn := by simp [State.unitLevel_eq _ n hn, State.resetWith]
  irq := rfl

/-- Settles O9: canonical form and bounds come from `ofCells`. -/
theorem resetMeetsInvariant : Obligations.ResetMeetsInvariant :=
  ⟨State.resetWith_inv (by decide) (Memory.ofCells_wf _ []), fun _ content hlegal =>
    State.resetWith_inv hlegal (Memory.ofCells_wf _ content)⟩

/-- Settles O10: the step is `resetWith`, whose queue is empty, so the block waits. -/
theorem resetMoveLeavesResetValues : Obligations.ResetMoveLeavesResetValues := by
  refine ⟨fun s content rest hlegal hp => ?_, fun n m hwf hin => ⟨m, Memory.ofCells_self hwf hin⟩⟩
  refine ⟨_, step_reset hp, resetValues_resetWith hlegal _ rest, rfl, rfl, rfl, busy_of_idle rfl, fun moves hturn => ?_⟩
  rw [step_of_blockIsNext hturn, blockTurn_waiting (.inl rfl)]

/-- Settles O11: `State.reset` is `resetWith` of the default parameters. -/
theorem resetStateHasResetValues : Obligations.ResetStateHasResetValues :=
  ⟨resetValues_resetWith (by decide) [] [], rfl, rfl, fun pix _ hlegal => resetValues_resetWith hlegal pix []⟩

/-- Settles O12: the block's turn answers a next state, and so does every move but the access to PIXMEM of a busy block. -/
theorem onlyBusyPixelAccessIsRefused : Obligations.OnlyBusyPixelAccessIsRefused := by
  intro s
  cases hp : s.pending with
  | nil => exact .inl (step_block hp ▸ blockTurn_next s)
  | cons m rest =>
    rw [step_move hp]
    refine (moveTurn_cases m rest s).imp_right fun ⟨hrefused, hbusy, hpix⟩ => ?_
    obtain ⟨hq, he⟩ := s.busy_iff.1 hbusy
    exact ⟨hrefused, hq, he, m, rest, rfl, hpix⟩

/-- Settles O16: the queue of n words drains in n turns of the block. -/
theorem queueDrains : Obligations.QueueDrains := fun _ hidle => run_drains _ hidle le_rfl

/-- Settles O55: the turn of a push with room, of one that waits for a halted block, and of one that waits for a running one. -/
theorem pushWaitsForRoom : Obligations.PushWaitsForRoom := by
  intro s w rest hp
  have hm : ∀ u, moveTurn (.push w) rest u = pushTurn w rest u := fun _ => rfl
  exact ⟨step_push_room hm hp, step_push_halted hm hp, step_push_running hm hp⟩

end Sys2Proof.Claims
